-- ==== Sys2Proof/Word.lean ====
section
/-! DEFINITION. The widths of PNGCORE's words (00_scope.md R11: XLEN 32, CMDW 64, CELLW 64; R12: a byte is 8 bits). -/

namespace Sys2Proof

/-- A byte, 0 .. 255, always unsigned (R12). -/
abbrev Byte := BitVec 8

/-- A register's contents, and every 32-bit value (R11, R22). -/
abbrev Word := BitVec 32

/-- A command word (R80). -/
abbrev CmdWord := BitVec 64

/-- A pixel cell of space PIX (R64, R176). -/
abbrev PixCell := BitVec 64

end Sys2Proof
end

