-- ==== Sys2Proof/Config.lean ====
section
/-! DEFINITION. What an implementation of PNGCORE fixes, and the free values. -/

namespace Sys2Proof.Config

/-- The parameter ROWMAX (R11, R25, I1) of the machine `State.reset` describes. The spec leaves it open in 1 .. 2^32-1;
4096 is the value of its vectors. DESIGN CHOICE, log 1: unsafe for a claim about `State.reset`, safe for a claim about
every state, since ROWMAX is a field of State that no step changes. -/
def rowmax : Word := 0x1000#32

/-- The free values: byte `n` of an unending supply about which nothing is known. `PX.RESET` fills PREV and CUR from
it, since R185 leaves both unspecified. DESIGN CHOICE, log 3: safe. -/
opaque freeByte : Nat → Byte

end Sys2Proof.Config
end

