-- ==== Sys2Proof/Syntax.lean ====
section
/-! DEFINITION. The commands of PNGCORE (30_encoding.md R83), one constructor for each row of the opcode table; the
registers' names (10_state.md R22); the pseudo-commands (R88); the reasons a word is illegal (R85). -/

namespace Sys2Proof

/-- The registers of R22 by name, in the order of their numbers. -/
inductive Reg where
  | id | faultlog | rowmax
  | ckStatus | ckErr | ckPos | ckLen | ckRemain | ckDeclen | ckType | ckCrc | ckData | ckCount | poPos
  | pxStatus | pxErr | pxPos | pxLen | pxWidth | pxHeight | pxDepth | pxChans | pxIlace
  | pxPass | pxRow | pxPw | pxPh | pxRb | pxBpp | pxQw | pxQh
  deriving DecidableEq, Repr

/-- The seventeen commands (R83). A register operand is the number in the RN field, an immediate the unsigned 32-bit
number it is (R82); whether the number names a register, and the selector a pass, is `Instr.wf`. -/
inductive Instr where
  /-- R100. -/
  | nop
  /-- R101. -/
  | rdr (rn : Byte)
  /-- R102. -/
  | wrr (rn : Byte) (imm : Word)
  /-- R118. -/
  | ckReset
  /-- R119. -/
  | ckOpen
  /-- R120. -/
  | ckRd8
  /-- R121. -/
  | ckRd16
  /-- R122. -/
  | ckRd32
  /-- R123. -/
  | ckRdn (n : Word)
  /-- R124. -/
  | ckRdall
  /-- R125. -/
  | ckRdstr
  /-- R126. -/
  | ckFinish
  /-- R185. -/
  | pxReset
  /-- R186. -/
  | pxStart
  /-- R187. -/
  | pxRow
  /-- R188. -/
  | pxRun
  /-- R162. -/
  | pxGeom (sel : Word)
  deriving DecidableEq, Repr

/-- The values of the OPC field that are commands (R83), by name. -/
inductive Opcode where
  | nop | rdr | wrr
  | ckReset | ckOpen | ckRd8 | ckRd16 | ckRd32 | ckRdn | ckRdall | ckRdstr | ckFinish
  | pxReset | pxStart | pxRow | pxRun | pxGeom
  deriving DecidableEq, Repr

/-- Why a word is no command: the clauses of R85, one name each. -/
inductive Illegal where
  /-- OPC is none of the seventeen values of R83. -/
  | unknownOpcode
  /-- The ZERO field is not 0. -/
  | zeroFieldSet
  /-- RN is not 0 in a command other than RDR and WRR. -/
  | unusedRnSet
  /-- IMM is not 0 in a command other than WRR, CK.RDN and PX.GEOM. -/
  | unusedImmSet
  /-- RN of RDR or WRR is no register number of R22. -/
  | undefinedRegister
  /-- IMM of PX.GEOM is above 7. -/
  | passSelectorAbove7
  deriving DecidableEq, Repr

/-- What the decoder answers for a word: the command, or why there is none. -/
inductive Decoded where
  | command (i : Instr)
  | illegal (why : Illegal)
  deriving DecidableEq, Repr

/-- The pseudo-commands of R88. -/
inductive Pseudo where
  | ckSetbuf (pos len : Word)
  | pxSetbuf (pos len : Word)
  | pxConfig (w h d c i : Word)
  | ckSkip
  deriving DecidableEq, Repr

end Sys2Proof
end

