-- ==== Sys2Proof/WellFormed.lean ====
section
/-! DEFINITION. Which terms of `Instr` are commands of the opcode table: the operand checks of R83 and R85. -/

namespace Sys2Proof

/-- The register numbers of R22, as the ranges its table covers. -/
def regDefined (rn : Byte) : Bool :=
  rn.toNat ≤ 0x02 || (0x10 ≤ rn.toNat && rn.toNat ≤ 0x1A) || (0x20 ≤ rn.toNat && rn.toNat ≤ 0x30)

/-- The pass selectors of PX.GEOM (R82, R162). -/
def selectorDefined (sel : Word) : Bool := sel.toNat ≤ 7

/-- The operand checks: RN of RDR and WRR is a register number, IMM of PX.GEOM is at most 7; every other operand is
free (R82). -/
def Instr.wf : Instr → Bool
  | .rdr rn => regDefined rn
  | .wrr rn _ => regDefined rn
  | .pxGeom sel => selectorDefined sel
  | .nop => true
  | .ckReset => true
  | .ckOpen => true
  | .ckRd8 => true
  | .ckRd16 => true
  | .ckRd32 => true
  | .ckRdn _ => true
  | .ckRdall => true
  | .ckRdstr => true
  | .ckFinish => true
  | .pxReset => true
  | .pxStart => true
  | .pxRow => true
  | .pxRun => true

end Sys2Proof
end

