-- ==== Sys2Proof/Decode.lean ====
section
/-! DEFINITION. The command word (30_encoding.md R80 to R85): the decoder, total on every word, and the encoder,
written from the same tables; the register numbers (R22, R89); the pseudo-commands (R88); the written form (R87). -/

namespace Sys2Proof

/-! ## Register numbers (R22) -/

/-- The register a number names, if any (R22). -/
def Reg.ofNum (rn : Byte) : Option Reg :=
  match rn.toNat with
  | 0x00 => some .id
  | 0x01 => some .faultlog
  | 0x02 => some .rowmax
  | 0x10 => some .ckStatus
  | 0x11 => some .ckErr
  | 0x12 => some .ckPos
  | 0x13 => some .ckLen
  | 0x14 => some .ckRemain
  | 0x15 => some .ckDeclen
  | 0x16 => some .ckType
  | 0x17 => some .ckCrc
  | 0x18 => some .ckData
  | 0x19 => some .ckCount
  | 0x1A => some .poPos
  | 0x20 => some .pxStatus
  | 0x21 => some .pxErr
  | 0x22 => some .pxPos
  | 0x23 => some .pxLen
  | 0x24 => some .pxWidth
  | 0x25 => some .pxHeight
  | 0x26 => some .pxDepth
  | 0x27 => some .pxChans
  | 0x28 => some .pxIlace
  | 0x29 => some .pxPass
  | 0x2A => some .pxRow
  | 0x2B => some .pxPw
  | 0x2C => some .pxPh
  | 0x2D => some .pxRb
  | 0x2E => some .pxBpp
  | 0x2F => some .pxQw
  | 0x30 => some .pxQh
  | _ => none

/-- The number of a register (R22). -/
def Reg.num : Reg → Byte
  | .id => 0x00#8
  | .faultlog => 0x01#8
  | .rowmax => 0x02#8
  | .ckStatus => 0x10#8
  | .ckErr => 0x11#8
  | .ckPos => 0x12#8
  | .ckLen => 0x13#8
  | .ckRemain => 0x14#8
  | .ckDeclen => 0x15#8
  | .ckType => 0x16#8
  | .ckCrc => 0x17#8
  | .ckData => 0x18#8
  | .ckCount => 0x19#8
  | .poPos => 0x1A#8
  | .pxStatus => 0x20#8
  | .pxErr => 0x21#8
  | .pxPos => 0x22#8
  | .pxLen => 0x23#8
  | .pxWidth => 0x24#8
  | .pxHeight => 0x25#8
  | .pxDepth => 0x26#8
  | .pxChans => 0x27#8
  | .pxIlace => 0x28#8
  | .pxPass => 0x29#8
  | .pxRow => 0x2A#8
  | .pxPw => 0x2B#8
  | .pxPh => 0x2C#8
  | .pxRb => 0x2D#8
  | .pxBpp => 0x2E#8
  | .pxQw => 0x2F#8
  | .pxQh => 0x30#8

/-! ## Fields of the command word (R80) -/

/-- OPC, bits 63:56. -/
def opcField (w : CmdWord) : Byte := w.extractLsb' 56 8

/-- RN, bits 55:48. -/
def rnField (w : CmdWord) : Byte := w.extractLsb' 48 8

/-- ZERO, bits 47:32. -/
def zeroField (w : CmdWord) : BitVec 16 := w.extractLsb' 32 16

/-- IMM, bits 31:0. -/
def immField (w : CmdWord) : Word := w.extractLsb' 0 32

/-- The word with these fields and ZERO = 0 (R80, R81). -/
def packWord (opc rn : Byte) (imm : Word) : CmdWord := opc ++ rn ++ (0#16) ++ imm

/-! ## The opcode map (R83) -/

/-- The command an OPC value names, if any (R83). -/
def Opcode.ofByte (b : Byte) : Option Opcode :=
  match b.toNat with
  | 0x00 => some .nop
  | 0x01 => some .rdr
  | 0x02 => some .wrr
  | 0x10 => some .ckReset
  | 0x11 => some .ckOpen
  | 0x12 => some .ckRd8
  | 0x13 => some .ckRd16
  | 0x14 => some .ckRd32
  | 0x15 => some .ckRdn
  | 0x16 => some .ckRdall
  | 0x17 => some .ckRdstr
  | 0x18 => some .ckFinish
  | 0x20 => some .pxReset
  | 0x21 => some .pxStart
  | 0x22 => some .pxRow
  | 0x23 => some .pxRun
  | 0x24 => some .pxGeom
  | _ => none

/-- The OPC value of a command (R83). -/
def Opcode.byte : Opcode → Byte
  | .nop => 0x00#8
  | .rdr => 0x01#8
  | .wrr => 0x02#8
  | .ckReset => 0x10#8
  | .ckOpen => 0x11#8
  | .ckRd8 => 0x12#8
  | .ckRd16 => 0x13#8
  | .ckRd32 => 0x14#8
  | .ckRdn => 0x15#8
  | .ckRdall => 0x16#8
  | .ckRdstr => 0x17#8
  | .ckFinish => 0x18#8
  | .pxReset => 0x20#8
  | .pxStart => 0x21#8
  | .pxRow => 0x22#8
  | .pxRun => 0x23#8
  | .pxGeom => 0x24#8

/-! ## The decoder (R85) -/

/-- A command without operands: RN and IMM must be 0 (R81). -/
def plainCommand (i : Instr) (rn : Byte) (imm : Word) : Decoded :=
  if rn ≠ 0#8 then .illegal .unusedRnSet
  else if imm ≠ 0#32 then .illegal .unusedImmSet
  else .command i

/-- A command whose one operand is IMM: RN must be 0 (R81). -/
def immCommand (i : Instr) (rn : Byte) : Decoded :=
  if rn ≠ 0#8 then .illegal .unusedRnSet else .command i

/-- The command of an opcode with these operand fields (R83, R85). -/
def assemble (op : Opcode) (rn : Byte) (imm : Word) : Decoded :=
  match op with
  | .nop => plainCommand .nop rn imm
  | .rdr =>
    if imm ≠ 0#32 then .illegal .unusedImmSet
    else if (Reg.ofNum rn).isNone then .illegal .undefinedRegister
    else .command (.rdr rn)
  | .wrr =>
    if (Reg.ofNum rn).isNone then .illegal .undefinedRegister
    else .command (.wrr rn imm)
  | .ckReset => plainCommand .ckReset rn imm
  | .ckOpen => plainCommand .ckOpen rn imm
  | .ckRd8 => plainCommand .ckRd8 rn imm
  | .ckRd16 => plainCommand .ckRd16 rn imm
  | .ckRd32 => plainCommand .ckRd32 rn imm
  | .ckRdn => immCommand (.ckRdn imm) rn
  | .ckRdall => plainCommand .ckRdall rn imm
  | .ckRdstr => plainCommand .ckRdstr rn imm
  | .ckFinish => plainCommand .ckFinish rn imm
  | .pxReset => plainCommand .pxReset rn imm
  | .pxStart => plainCommand .pxStart rn imm
  | .pxRow => plainCommand .pxRow rn imm
  | .pxRun => plainCommand .pxRun rn imm
  | .pxGeom =>
    if rn ≠ 0#8 then .illegal .unusedRnSet
    else if 7 < imm.toNat then .illegal .passSelectorAbove7
    else .command (.pxGeom imm)

/-- The command a word is, or the clause of R85 that makes it illegal. -/
def decode (w : CmdWord) : Decoded :=
  if zeroField w ≠ 0#16 then .illegal .zeroFieldSet
  else
    match Opcode.ofByte (opcField w) with
    | none => .illegal .unknownOpcode
    | some op => assemble op (rnField w) (immField w)

/-- The command of the decoder's answer, if there is one. -/
def Decoded.toOption : Decoded → Option Instr
  | .command i => some i
  | .illegal _ => none

/-- The word the opcode table's bits `w` of a row of `nbits` bits stand for: every bit above `nbits` is 0. A command
word is a word, not a byte sequence, and has no byte order (R65). -/
def tableWord (nbits w : Nat) : CmdWord := BitVec.ofNat 64 (w % 2 ^ nbits)

/-- What the decoder reads from the opcode table's bits (R83). -/
def decodeTableWord (nbits w : Nat) : Option Instr := (decode (tableWord nbits w)).toOption

/-! ## The encoder -/

/-- The word of a command (R80 to R83). -/
def encode : Instr → CmdWord
  | .nop => packWord Opcode.nop.byte 0#8 0#32
  | .rdr rn => packWord Opcode.rdr.byte rn 0#32
  | .wrr rn imm => packWord Opcode.wrr.byte rn imm
  | .ckReset => packWord Opcode.ckReset.byte 0#8 0#32
  | .ckOpen => packWord Opcode.ckOpen.byte 0#8 0#32
  | .ckRd8 => packWord Opcode.ckRd8.byte 0#8 0#32
  | .ckRd16 => packWord Opcode.ckRd16.byte 0#8 0#32
  | .ckRd32 => packWord Opcode.ckRd32.byte 0#8 0#32
  | .ckRdn n => packWord Opcode.ckRdn.byte 0#8 n
  | .ckRdall => packWord Opcode.ckRdall.byte 0#8 0#32
  | .ckRdstr => packWord Opcode.ckRdstr.byte 0#8 0#32
  | .ckFinish => packWord Opcode.ckFinish.byte 0#8 0#32
  | .pxReset => packWord Opcode.pxReset.byte 0#8 0#32
  | .pxStart => packWord Opcode.pxStart.byte 0#8 0#32
  | .pxRow => packWord Opcode.pxRow.byte 0#8 0#32
  | .pxRun => packWord Opcode.pxRun.byte 0#8 0#32
  | .pxGeom sel => packWord Opcode.pxGeom.byte 0#8 sel

/-! ## The opcode table's match and mask (R83) -/

/-- The bits of the word that the command fixes (R83, column mask). -/
def Instr.mask : Instr → CmdWord
  | .rdr _ => 0xFF00FFFFFFFFFFFF#64
  | .wrr _ _ => 0xFF00FFFF00000000#64
  | .ckRdn _ => 0xFFFFFFFF00000000#64
  | .pxGeom _ => 0xFFFFFFFF00000000#64
  | .nop => 0xFFFFFFFFFFFFFFFF#64
  | .ckReset => 0xFFFFFFFFFFFFFFFF#64
  | .ckOpen => 0xFFFFFFFFFFFFFFFF#64
  | .ckRd8 => 0xFFFFFFFFFFFFFFFF#64
  | .ckRd16 => 0xFFFFFFFFFFFFFFFF#64
  | .ckRd32 => 0xFFFFFFFFFFFFFFFF#64
  | .ckRdall => 0xFFFFFFFFFFFFFFFF#64
  | .ckRdstr => 0xFFFFFFFFFFFFFFFF#64
  | .ckFinish => 0xFFFFFFFFFFFFFFFF#64
  | .pxReset => 0xFFFFFFFFFFFFFFFF#64
  | .pxStart => 0xFFFFFFFFFFFFFFFF#64
  | .pxRow => 0xFFFFFFFFFFFFFFFF#64
  | .pxRun => 0xFFFFFFFFFFFFFFFF#64

/-- The value of those bits (R83, column match). -/
def Instr.matchBits : Instr → CmdWord
  | .nop => 0x0000000000000000#64
  | .rdr _ => 0x0100000000000000#64
  | .wrr _ _ => 0x0200000000000000#64
  | .ckReset => 0x1000000000000000#64
  | .ckOpen => 0x1100000000000000#64
  | .ckRd8 => 0x1200000000000000#64
  | .ckRd16 => 0x1300000000000000#64
  | .ckRd32 => 0x1400000000000000#64
  | .ckRdn _ => 0x1500000000000000#64
  | .ckRdall => 0x1600000000000000#64
  | .ckRdstr => 0x1700000000000000#64
  | .ckFinish => 0x1800000000000000#64
  | .pxReset => 0x2000000000000000#64
  | .pxStart => 0x2100000000000000#64
  | .pxRow => 0x2200000000000000#64
  | .pxRun => 0x2300000000000000#64
  | .pxGeom _ => 0x2400000000000000#64

/-! ## Pseudo-commands and the written form (R87 to R89) -/

/-- The commands a pseudo-command stands for, in the order the assembler emits them (R88). -/
def Pseudo.expand : Pseudo → List Instr
  | .ckSetbuf pos len => [.wrr Reg.ckLen.num len, .wrr Reg.ckPos.num pos]
  | .pxSetbuf pos len => [.wrr Reg.pxLen.num len, .wrr Reg.pxPos.num pos]
  | .pxConfig w h d c i =>
    [.wrr Reg.pxWidth.num w, .wrr Reg.pxHeight.num h, .wrr Reg.pxDepth.num d, .wrr Reg.pxChans.num c,
      .wrr Reg.pxIlace.num i]
  | .ckSkip => [.ckRdall]

/-- The written name of a register (R22, R89). -/
def Reg.name : Reg → String
  | .id => "ID"
  | .faultlog => "FAULTLOG"
  | .rowmax => "ROWMAX"
  | .ckStatus => "CK_STATUS"
  | .ckErr => "CK_ERR"
  | .ckPos => "CK_POS"
  | .ckLen => "CK_LEN"
  | .ckRemain => "CK_REMAIN"
  | .ckDeclen => "CK_DECLEN"
  | .ckType => "CK_TYPE"
  | .ckCrc => "CK_CRC"
  | .ckData => "CK_DATA"
  | .ckCount => "CK_COUNT"
  | .poPos => "PO_POS"
  | .pxStatus => "PX_STATUS"
  | .pxErr => "PX_ERR"
  | .pxPos => "PX_POS"
  | .pxLen => "PX_LEN"
  | .pxWidth => "PX_WIDTH"
  | .pxHeight => "PX_HEIGHT"
  | .pxDepth => "PX_DEPTH"
  | .pxChans => "PX_CHANS"
  | .pxIlace => "PX_ILACE"
  | .pxPass => "PX_PASS"
  | .pxRow => "PX_ROW"
  | .pxPw => "PX_PW"
  | .pxPh => "PX_PH"
  | .pxRb => "PX_RB"
  | .pxBpp => "PX_BPP"
  | .pxQw => "PX_QW"
  | .pxQh => "PX_QH"

/-- The mnemonic of a command (R83). -/
def Instr.mnemonic : Instr → String
  | .nop => "NOP"
  | .rdr _ => "RDR"
  | .wrr _ _ => "WRR"
  | .ckReset => "CK.RESET"
  | .ckOpen => "CK.OPEN"
  | .ckRd8 => "CK.RD8"
  | .ckRd16 => "CK.RD16"
  | .ckRd32 => "CK.RD32"
  | .ckRdn _ => "CK.RDN"
  | .ckRdall => "CK.RDALL"
  | .ckRdstr => "CK.RDSTR"
  | .ckFinish => "CK.FINISH"
  | .pxReset => "PX.RESET"
  | .pxStart => "PX.START"
  | .pxRow => "PX.ROW"
  | .pxRun => "PX.RUN"
  | .pxGeom _ => "PX.GEOM"

/-- One hexadecimal digit, upper case. -/
def hexDigit (n : Nat) : String := (["0", "1", "2", "3", "4", "5", "6", "7", "8", "9", "A", "B", "C", "D", "E", "F"].getD n "?")

/-- The written form of a register operand: its name, or its number as r0x13 where it has none (R87). -/
def regOperand (rn : Byte) : String :=
  match Reg.ofNum rn with
  | some r => r.name
  | none => "r0x" ++ hexDigit (rn.toNat / 16) ++ hexDigit (rn.toNat % 16)

/-- The written operands of a command, with the blank before them; immediates in decimal (R87). -/
def Instr.operandText : Instr → String
  | .rdr rn => " " ++ regOperand rn
  | .wrr rn imm => " " ++ regOperand rn ++ ", " ++ toString imm.toNat
  | .ckRdn n => " " ++ toString n.toNat
  | .pxGeom sel => " " ++ toString sel.toNat
  | .nop => ""
  | .ckReset => ""
  | .ckOpen => ""
  | .ckRd8 => ""
  | .ckRd16 => ""
  | .ckRd32 => ""
  | .ckRdall => ""
  | .ckRdstr => ""
  | .ckFinish => ""
  | .pxReset => ""
  | .pxStart => ""
  | .pxRow => ""
  | .pxRun => ""

/-- The written form of a command (R87). -/
def Instr.written (i : Instr) : String := i.mnemonic ++ i.operandText

end Sys2Proof
end

