-- ==== Sys2Proof/Machine/State.lean ====
section
/-! DEFINITION. The state of PNGCORE (10_state.md R20 to R52, 20_memory.md R60 to R64, 30_encoding.md R84), the host's
actions (70_reset_and_hazards.md R240), the reasons a step or a reader could stop, and the state after reset (R231). -/

namespace Sys2Proof.Machine

/-- The phases of unit CK (R26); code 3 never occurs. -/
inductive CkPhase where
  | idle | payload | fault
  deriving DecidableEq, Repr

/-- The phases of unit PX (R37). -/
inductive PxPhase where
  | idle | run | fault | done
  deriving DecidableEq, Repr

/-- The two units (R2, R18). -/
inductive UnitName where
  | ck | px
  deriving DecidableEq, Repr

/-- The error codes of R201, by name; `ErrCode.code` gives their numbers. -/
inductive ErrCode where
  | eIllcmd | eAccess | eSeq | eRange | eUnsupported | eRowmax
  | eTrunc | eLength | eType | eCrc | eBudget | eFilter | eSltrunc
  deriving DecidableEq, Repr

/-- The CODE of a response (R84): the three codes that are no error, or an error. Codes 3 to 15 and 29 to 255 do not
exist (I9). -/
inductive RespCode where
  | ok | nochunk | faulted
  | error (e : ErrCode)
  deriving DecidableEq, Repr

/-- A response (R84). -/
structure Response where
  code : RespCode
  value : Word
  deriving DecidableEq, Repr

/-- What the host may do between two commands (R240): present a command word, change one byte of an input space,
assert reset. The actions that change nothing (reading a register is a command, reading PO or PIX reads the state) are
none of these, nor is writing PO or PIX (log 10). -/
inductive HostAction where
  | command (w : CmdWord)
  | putCks (addr : Word) (b : Byte)
  | putSls (addr : Word) (b : Byte)
  | reset
  deriving DecidableEq, Repr

/-- The bytes of an input space (CKS, SLS) by address: addresses strictly rising, no byte 0x00 listed. An unlisted
address reads 0x00 (DESIGN CHOICE, log 5). -/
abbrev Memory := List Host.Cell

/-- The written cells of space PIX by pixel index, indices strictly rising. An unlisted index is unwritten: it holds no
value (R64, I5). -/
abbrev PixGrid := List (Nat × PixCell)

/-- Unit CK (R26 to R36). `CK_STATUS` and `CK_CRC` are read from these fields. -/
structure CkUnit where
  /-- `CK_STATUS.PHASE` (R26). -/
  phase : CkPhase
  /-- `CK_STATUS.EOS` (R26). -/
  eos : Bool
  /-- `CK_STATUS.STRNUL` (R26). -/
  strnul : Bool
  /-- `CK_ERR` (R27). -/
  err : Word
  /-- `CK_POS` (R28). -/
  pos : Word
  /-- `CK_LEN` (R29). -/
  len : Word
  /-- `CK_REMAIN` (R30). -/
  remain : Word
  /-- `CK_DECLEN` (R31). -/
  declen : Word
  /-- `CK_TYPE` (R32). -/
  type : Word
  /-- `CRCACC` (R33). -/
  crcacc : Word
  /-- `CK_DATA` (R34). -/
  data : Word
  /-- `CK_COUNT` (R35). -/
  count : Word
  /-- `PO_POS` (R36). -/
  poPos : Word
  deriving DecidableEq, Repr

/-- Unit PX (R37 to R48). -/
structure PxUnit where
  /-- `PX_STATUS.PHASE` (R37). -/
  phase : PxPhase
  /-- `PX_ERR` (R38). -/
  err : Word
  /-- `PX_POS` (R39). -/
  pos : Word
  /-- `PX_LEN` (R39). -/
  len : Word
  /-- `PX_WIDTH` (R40). -/
  width : Word
  /-- `PX_HEIGHT` (R40). -/
  height : Word
  /-- `PX_DEPTH` (R41). -/
  depth : Word
  /-- `PX_CHANS` (R42). -/
  chans : Word
  /-- `PX_ILACE` (R43). -/
  ilace : Word
  /-- `PX_PASS` (R44). -/
  pass : Word
  /-- `PX_ROW` (R44). -/
  row : Word
  /-- `PX_PW` (R45). -/
  pw : Word
  /-- `PX_PH` (R45). -/
  ph : Word
  /-- `PX_RB` (R45). -/
  rb : Word
  /-- `PX_BPP` (R45). -/
  bpp : Word
  /-- `PX_QW` (R46). -/
  qw : Word
  /-- `PX_QH` (R46). -/
  qh : Word
  /-- PREV[0 .. ROWMAX-1] (R47). -/
  prev : List Byte
  /-- CUR[0 .. ROWMAX-1] (R48, log 8). -/
  cur : List Byte
  deriving DecidableEq, Repr

/-- The state of PNGCORE with the four spaces and the command port beside it (R51, R60, R84). -/
structure State where
  /-- `FAULTLOG` (R23). -/
  faultlog : Word
  /-- `ROWMAX` (R25): the parameter; no step changes it (log 1). -/
  rowmax : Word
  /-- Unit CK. -/
  ck : CkUnit
  /-- Unit PX. -/
  px : PxUnit
  /-- Space CKS (R61). -/
  cks : Memory
  /-- Space SLS (R62). -/
  sls : Memory
  /-- Space PO (R63): every byte appended since the last hardware reset or CK.RESET, first byte first. -/
  po : List Byte
  /-- Space PIX (R64). -/
  pix : PixGrid
  /-- The response of the last command, none before the first (R84, log 7). -/
  resp : Option Response
  /-- What the host does next, soonest first (R240, log 6). -/
  inbox : List HostAction
  /-- How many free values have been handed out: the model's own field (log 4). -/
  freeCount : Nat
  deriving DecidableEq, Repr

/-- Why a reader of the state stops. NO STEP ANSWERS ONE: every error the spec gives PNGCORE is a response and a next
state (R200 to R204). -/
inductive Fault where
  /-- Raised by `readPix`, the host's reader of PIX, for a cell no PX.ROW has written since the last PX.START or
  hardware reset (R64, I5). Safe: the cell holds no value the spec gives. -/
  | pixUnwritten (idx : Nat)
  deriving DecidableEq, Repr

/-- Why a step could have no meaning. -/
inductive Refusal where
  /-- Raised by an arm of `exec` whose command has no meaning yet; no arm is one. Safe. -/
  | notModelled (mnemonic : String)
  deriving DecidableEq, Repr

/-- Unit CK after reset (R231). -/
def CkUnit.reset : CkUnit where
  phase := .idle
  eos := false
  strnul := false
  err := 0#32
  pos := 0#32
  len := 0#32
  remain := 0#32
  declen := 0#32
  type := 0#32
  crcacc := 0xFFFFFFFF#32
  data := 0#32
  count := 0#32
  poPos := 0#32

/-- Unit PX after reset (R231) with these line buffers, which R231 leaves unspecified. -/
def PxUnit.resetWith (prev cur : List Byte) : PxUnit where
  phase := .idle
  err := 0#32
  pos := 0#32
  len := 0#32
  width := 0#32
  height := 0#32
  depth := 0#32
  chans := 0#32
  ilace := 0#32
  pass := 0#32
  row := 0#32
  pw := 0#32
  ph := 0#32
  rb := 0#32
  bpp := 0#32
  qw := 0#32
  qh := 0#32
  prev := prev
  cur := cur

/-- A line buffer of zeros (R47). -/
def zeroLine (rowmax : Word) : List Byte := List.replicate rowmax.toNat 0#8

/-- The state after reset of the machine whose parameter ROWMAX is `rowmax` (R231); the line buffers hold zeros
(DESIGN CHOICE, log 2), the input spaces list nothing (log 5), no response has been given (log 7) and the host's
actions are none (log 6). -/
def State.resetWith (rowmax : Word) : State where
  faultlog := 0#32
  rowmax := rowmax
  ck := CkUnit.reset
  px := PxUnit.resetWith (zeroLine rowmax) (zeroLine rowmax)
  cks := []
  sls := []
  po := []
  pix := []
  resp := none
  inbox := []
  freeCount := 0

/-- The machine right after reset (R231), with ROWMAX = `Config.rowmax` (log 1). -/
def State.reset : State := State.resetWith Config.rowmax

end Sys2Proof.Machine
end

