-- ==== Sys2Proof/Machine/Flags.lean ====
section
/-! DEFINITION. Error codes and the fault log (60_exceptions.md R201, 10_state.md R23), the response word (R84), the
status registers assembled from their fields (R26, R37). -/

namespace Sys2Proof.Machine

/-! ## Error codes and responses -/

/-- The number of an error (R201). -/
def ErrCode.code : ErrCode → Byte
  | .eIllcmd => 16#8
  | .eAccess => 17#8
  | .eSeq => 18#8
  | .eRange => 19#8
  | .eUnsupported => 20#8
  | .eRowmax => 21#8
  | .eTrunc => 22#8
  | .eLength => 23#8
  | .eType => 24#8
  | .eCrc => 25#8
  | .eBudget => 26#8
  | .eFilter => 27#8
  | .eSltrunc => 28#8

/-- The number as a register holds it, zero-extended (R27, R38; DEDUCED, log 15). -/
def ErrCode.word (e : ErrCode) : Word := e.code.setWidth 32

/-- The CODE byte of a response (R84). -/
def RespCode.byte : RespCode → Byte
  | .ok => 0#8
  | .nochunk => 1#8
  | .faulted => 2#8
  | .error e => e.code

/-- A response as a 64-bit word: 0 in 63:40, CODE in 39:32, VALUE in 31:0 (R84). -/
def Response.word (r : Response) : BitVec 64 := (0#24) ++ r.code.byte ++ r.value

/-! ## The fault log -/

/-- Bit code-16 of the fault log, alone (R23, R201). -/
def ErrCode.logBit (e : ErrCode) : Word := 1#32 <<< (e.code.toNat - 16)

/-- The fault log with the error's bit set; no bit is ever cleared (R23). -/
def setLogBit (log : Word) (e : ErrCode) : Word := log ||| e.logBit

/-! ## The status registers -/

/-- A flag as a 32-bit number. -/
def flag (b : Bool) : Word := if b then 1#32 else 0#32

/-- The code of a CK phase (R26). -/
def CkPhase.code : CkPhase → Word
  | .idle => 0#32
  | .payload => 1#32
  | .fault => 2#32

/-- The code of a PX phase (R37). -/
def PxPhase.code : PxPhase → Word
  | .idle => 0#32
  | .run => 1#32
  | .fault => 2#32
  | .done => 3#32

/-- ANC: bit 5 of type byte 0, `CK_TYPE[29]` (R26). -/
def ckAnc (type : Word) : Bool := type.getLsbD 29

/-- PRIV: bit 5 of type byte 1, `CK_TYPE[21]` (R26). -/
def ckPriv (type : Word) : Bool := type.getLsbD 21

/-- SAFE: bit 5 of type byte 3, `CK_TYPE[5]` (R26). -/
def ckSafe (type : Word) : Bool := type.getLsbD 5

/-- `CK_STATUS` (R26): PHASE in 1:0, EOS in 2, STRNUL in 3, ANC in 4, PRIV in 5, 6 reads 0, SAFE in 7, 31:8 read 0. -/
def ckStatus (c : CkUnit) : Word :=
  c.phase.code ||| flag c.eos <<< 2 ||| flag c.strnul <<< 3 ||| flag (ckAnc c.type) <<< 4 |||
    flag (ckPriv c.type) <<< 5 ||| flag (ckSafe c.type) <<< 7

/-- `PX_STATUS` (R37): PHASE in 1:0, 31:2 read 0. -/
def pxStatus (p : PxUnit) : Word := p.phase.code

end Sys2Proof.Machine
end

