-- ==== Sys2Proof/Machine/Operands.lean ====
section
/-! DEFINITION. The register operand of RDR and WRR: what a register reads as, when WRR may write it, and the write
(10_state.md R22 to R46, 40_global_commands.md R101, R102). -/

namespace Sys2Proof.Machine

/-- The constant register `ID` reads: the ASCII bytes P N C 1 (R24). -/
def idValue : Word := 0x504E4331#32

/-- `crc_final` (R111), and what `CK_CRC` reads of `CRCACC` (R33). -/
def crcFinal (acc : Word) : Word := acc ^^^ 0xFFFFFFFF#32

/-- `R[r]` (R13, R22): reading has no side effect. -/
def readReg (r : Reg) (s : State) : Word :=
  match r with
  | .id => idValue
  | .faultlog => s.faultlog
  | .rowmax => s.rowmax
  | .ckStatus => ckStatus s.ck
  | .ckErr => s.ck.err
  | .ckPos => s.ck.pos
  | .ckLen => s.ck.len
  | .ckRemain => s.ck.remain
  | .ckDeclen => s.ck.declen
  | .ckType => s.ck.type
  | .ckCrc => crcFinal s.ck.crcacc
  | .ckData => s.ck.data
  | .ckCount => s.ck.count
  | .poPos => s.ck.poPos
  | .pxStatus => pxStatus s.px
  | .pxErr => s.px.err
  | .pxPos => s.px.pos
  | .pxLen => s.px.len
  | .pxWidth => s.px.width
  | .pxHeight => s.px.height
  | .pxDepth => s.px.depth
  | .pxChans => s.px.chans
  | .pxIlace => s.px.ilace
  | .pxPass => s.px.pass
  | .pxRow => s.px.row
  | .pxPw => s.px.pw
  | .pxPh => s.px.ph
  | .pxRb => s.px.rb
  | .pxBpp => s.px.bpp
  | .pxQw => s.px.qw
  | .pxQh => s.px.qh

/-- PX phase IDLE or DONE: when the PX configuration may be written (R39 to R43, R102). -/
def pxConfigurable (s : State) : Bool := s.px.phase == .idle || s.px.phase == .done

/-- The table of R102: is the register writable in the current phases? -/
def writable (r : Reg) (s : State) : Bool :=
  match r with
  | .ckPos => s.ck.phase == .idle
  | .ckLen => s.ck.phase == .idle || s.ck.phase == .payload
  | .pxPos => pxConfigurable s
  | .pxLen => pxConfigurable s
  | .pxWidth => pxConfigurable s
  | .pxHeight => pxConfigurable s
  | .pxDepth => pxConfigurable s
  | .pxChans => pxConfigurable s
  | .pxIlace => pxConfigurable s
  | .id => false
  | .faultlog => false
  | .rowmax => false
  | .ckStatus => false
  | .ckErr => false
  | .ckRemain => false
  | .ckDeclen => false
  | .ckType => false
  | .ckCrc => false
  | .ckData => false
  | .ckCount => false
  | .poPos => false
  | .pxStatus => false
  | .pxErr => false
  | .pxPass => false
  | .pxRow => false
  | .pxPw => false
  | .pxPh => false
  | .pxRb => false
  | .pxBpp => false
  | .pxQw => false
  | .pxQh => false

/-- `R[r] <- v` for a register WRR can write (R102): all 32 bits as given, unchecked (R22). A register that is never
writable has no storage here: the state is unchanged. -/
def writeReg (r : Reg) (v : Word) (s : State) : State :=
  match r with
  | .ckPos => { s with ck := { s.ck with pos := v } }
  | .ckLen => { s with ck := { s.ck with len := v } }
  | .pxPos => { s with px := { s.px with pos := v } }
  | .pxLen => { s with px := { s.px with len := v } }
  | .pxWidth => { s with px := { s.px with width := v } }
  | .pxHeight => { s with px := { s.px with height := v } }
  | .pxDepth => { s with px := { s.px with depth := v } }
  | .pxChans => { s with px := { s.px with chans := v } }
  | .pxIlace => { s with px := { s.px with ilace := v } }
  | .id => s
  | .faultlog => s
  | .rowmax => s
  | .ckStatus => s
  | .ckErr => s
  | .ckRemain => s
  | .ckDeclen => s
  | .ckType => s
  | .ckCrc => s
  | .ckData => s
  | .ckCount => s
  | .poPos => s
  | .pxStatus => s
  | .pxErr => s
  | .pxPass => s
  | .pxRow => s
  | .pxPw => s
  | .pxPh => s
  | .pxRb => s
  | .pxBpp => s
  | .pxQw => s
  | .pxQh => s

end Sys2Proof.Machine
end

