-- ==== Sys2Proof/Machine/Ops.lean ====
section
/-! DEFINITION. The shared operations: the spaces (20_memory.md), the responses and errors (60_exceptions.md R200 to
R206), the order of tests (30_encoding.md R90), the resets (R206, R231, R232) and what the host does (R240). -/

namespace Sys2Proof.Machine

/-! ## Sparse data by key -/

/-- The value listed under a key, if any. -/
def Assoc.lookup {α : Type} (k : Nat) : List (Nat × α) → Option α
  | [] => none
  | (k', v) :: rest => if k = k' then some v else Assoc.lookup k rest

/-- The list with this value under this key, keys kept rising. -/
def Assoc.insert {α : Type} (k : Nat) (v : α) : List (Nat × α) → List (Nat × α)
  | [] => [(k, v)]
  | (k', v') :: rest =>
    if k < k' then (k, v) :: (k', v') :: rest
    else if k = k' then (k, v) :: rest
    else (k', v') :: Assoc.insert k v rest

/-- The list without this key. -/
def Assoc.erase {α : Type} (k : Nat) : List (Nat × α) → List (Nat × α)
  | [] => []
  | (k', v') :: rest => if k = k' then rest else (k', v') :: Assoc.erase k rest

/-- Keys strictly rising. -/
abbrev Assoc.Rising {α : Type} (l : List (Nat × α)) : Prop := l.Pairwise (fun a b => a.1 < b.1)

/-! ## The input spaces CKS and SLS (R61, R62, R67) -/

/-- What an unlisted byte of CKS or SLS reads as (DESIGN CHOICE, log 5). -/
def unlistedByte : Byte := 0#8

/-- The canonical form: addresses strictly rising, no byte listed that reads the same unlisted, all addresses 32 bits. -/
abbrev Memory.wf (m : Memory) : Prop := Assoc.Rising m ∧ ∀ c ∈ m, c.2 ≠ unlistedByte ∧ c.1 < 2 ^ 32

/-- The byte at an address. -/
def Memory.read (m : Memory) (addr : Nat) : Byte := (Assoc.lookup addr m).getD unlistedByte

/-- `MemRead(S, addr, n)`: the n bytes from addr on, in address order (R14, R75). -/
def Memory.readN (m : Memory) (addr : Nat) : Nat → List Byte
  | 0 => []
  | n + 1 => m.read addr :: m.readN (addr + 1) n

/-- The memory with this byte at this address, in canonical form. -/
def Memory.write (m : Memory) (addr : Nat) (b : Byte) : Memory :=
  if b = unlistedByte then Assoc.erase addr m else Assoc.insert addr b m

/-- `BE(bytes)`: the big-endian value, first byte most significant (R14, R65). -/
def beNat (bytes : List Byte) : Nat := bytes.foldl (fun acc b => acc * 256 + b.toNat) 0

/-- `BE(bytes)` as a register holds it; for at most four bytes nothing is lost. -/
def beWord (bytes : List Byte) : Word := BitVec.ofNat 32 (beNat bytes)

/-- `ck_avail` (R29, R75): CK_LEN - CK_POS when that is not negative, else 0. -/
def ckAvail (s : State) : Nat := s.ck.len.toNat - s.ck.pos.toNat

/-- `px_avail` (R39, R75): PX_LEN - PX_POS when that is not negative, else 0. -/
def pxAvail (s : State) : Nat := s.px.len.toNat - s.px.pos.toNat

/-! ## The output spaces PO and PIX (R63, R64) -/

/-- `MemWrite(PO, n, bytes)` (R63): appends the bytes, PO_POS advances by their number modulo 2^32. -/
def poAppend (bytes : List Byte) (s : State) : State :=
  { s with po := s.po ++ bytes
           ck := { s.ck with poPos := s.ck.poPos + BitVec.ofNat 32 bytes.length } }

/-- `MemWrite(PIX, idx, cell)` (R64). -/
def PixGrid.write (g : PixGrid) (idx : Nat) (cell : PixCell) : PixGrid := Assoc.insert idx cell g

/-- The cell at an index, none where it is unwritten (R64). -/
def PixGrid.read (g : PixGrid) (idx : Nat) : Option PixCell := Assoc.lookup idx g

/-- The host reads a pixel: a cell that is unwritten is a fault of the reader (R64, I5). No step calls this. -/
def readPix (s : State) (idx : Nat) : Except Fault PixCell :=
  match s.pix.read idx with
  | some cell => .ok cell
  | none => .error (.pixUnwritten idx)

/-! ## Responses and errors (R15, R203, R204) -/

/-- `respond (c, v)` (R15, R84). -/
def respond (c : RespCode) (v : Word) (s : State) : State := { s with resp := some ⟨c, v⟩ }

/-- Sets the error's bit of the fault log (R23). -/
def logError (e : ErrCode) (s : State) : State := { s with faultlog := setLogBit s.faultlog e }

/-- `refuse E` (R203): the log bit and the response (E, 0), nothing else. -/
def refuse (e : ErrCode) (s : State) : State := respond (.error e) 0#32 (logError e s)

/-- Puts a unit in phase FAULT with this error (R204). -/
def faultUnit (u : UnitName) (e : ErrCode) (s : State) : State :=
  match u with
  | .ck => { s with ck := { s.ck with phase := .fault, err := e.word } }
  | .px => { s with px := { s.px with phase := .fault, err := e.word } }

/-- `raise E in U` (R204): the log bit, the unit's phase FAULT and error register, the response (E, 0), nothing else.
Nothing is saved anywhere; control stays with the host. -/
def raise (u : UnitName) (e : ErrCode) (s : State) : State :=
  respond (.error e) 0#32 (faultUnit u e (logError e s))

/-- The answer of a faulted unit (R90 step 2, R205): (FAULTED, U_ERR) and no change. -/
def answerFaulted (u : UnitName) (s : State) : State :=
  match u with
  | .ck => respond .faulted s.ck.err s
  | .px => respond .faulted s.px.err s

/-! ## The order of tests (R90) -/

/-- Steps 2 and 3 of R90 for a CK command that requires this phase, then its own tests and effects. -/
def ckCommand (required : CkPhase) (body : State → State) (s : State) : State :=
  if s.ck.phase = .fault then answerFaulted .ck s
  else if s.ck.phase ≠ required then refuse .eSeq s
  else body s

/-- Steps 2 and 3 of R90 for a PX command that these phases allow, then its own tests and effects. -/
def pxCommand (allowed : List PxPhase) (body : State → State) (s : State) : State :=
  if s.px.phase = .fault then answerFaulted .px s
  else if s.px.phase ∉ allowed then refuse .eSeq s
  else body s

/-! ## Leaving FAULT: the unit resets (R206, R118, R185, R232) -/

/-- The CK rows of R231, and PO empty (R118). -/
def resetCk (s : State) : State := { s with ck := CkUnit.reset, po := [] }

/-- The line buffer's bytes when the spec leaves them unspecified: fresh free values from number `start` on
(log 3). -/
def freeLine (rowmax : Word) (start : Nat) : List Byte :=
  (List.range rowmax.toNat).map (fun i => Config.freeByte (start + i))

/-- The PX rows of R231; PREV and CUR become unspecified (R185). -/
def resetPx (s : State) : State :=
  { s with
    px := PxUnit.resetWith (freeLine s.rowmax s.freeCount) (freeLine s.rowmax (s.freeCount + s.rowmax.toNat))
    freeCount := s.freeCount + 2 * s.rowmax.toNat }

/-! ## What the host does (R230, R231, R233, R240) -/

/-- The hardware reset: the state of R231. CKS and SLS are the host's and stay, and so do the host's further actions and
the count of free values (log 9). -/
def hardwareReset (s : State) : State :=
  { State.resetWith s.rowmax with cks := s.cks, sls := s.sls, inbox := s.inbox, freeCount := s.freeCount }

/-- The host changes a byte of CKS between two commands (R240). -/
def hostPutCks (addr : Word) (b : Byte) (s : State) : State := { s with cks := s.cks.write addr.toNat b }

/-- The host changes a byte of SLS between two commands (R240). -/
def hostPutSls (addr : Word) (b : Byte) (s : State) : State := { s with sls := s.sls.write addr.toNat b }

/-- The state once the port has taken the first pending action, the rest still to come. -/
def takeAction (rest : List HostAction) (s : State) : State := { s with inbox := rest }

/-- The state in which the word is the next the host presents. -/
def presentWord (w : CmdWord) (s : State) : State := { s with inbox := .command w :: s.inbox }

/-- An illegal word: refused with E_ILLCMD before any other test (R85, R90 step 1). -/
def illegalWord (s : State) : State := refuse .eIllcmd s

end Sys2Proof.Machine
end

