-- ==== Sys2Proof/Machine/Crc.lean ====
section
/-! DEFINITION. The CRC-32 (41_chunk_checker.md R111, R112) and the validity of a type code (R113). -/

namespace Sys2Proof.Machine

/-! ## The CRC-32 function (R111) -/

/-- `crc_init` (R111). -/
def crcInit : Word := 0xFFFFFFFF#32

/-- The polynomial, bit-reversed (R111). -/
def crcPoly : Word := 0xEDB88320#32

/-- One of the eight repetitions of `crc_update` (R111). -/
def crcStep (c : Word) : Word := if c.getLsbD 0 then (c >>> 1) ^^^ crcPoly else c >>> 1

/-- `crcStep`, n times. -/
def crcSteps : Nat → Word → Word
  | 0, c => c
  | n + 1, c => crcSteps n (crcStep c)

/-- `crc_update(acc, b)` (R111). -/
def crcUpdate (acc : Word) (b : Byte) : Word := crcSteps 8 (acc ^^^ b.setWidth 32)

/-- `crc_update` for each byte, in order (R112). -/
def crcBytes (acc : Word) (bytes : List Byte) : Word := bytes.foldl crcUpdate acc

/-- `crc32` of a byte sequence (R111). -/
def crc32 (bytes : List Byte) : Word := crcFinal (crcBytes crcInit bytes)

/-! ## Type codes (R113) -/

/-- An ASCII letter (R113 a). -/
def asciiLetter (t : Byte) : Bool :=
  (0x41 ≤ t.toNat && t.toNat ≤ 0x5A) || (0x61 ≤ t.toNat && t.toNat ≤ 0x7A)

/-- Bit 5 of a letter: lowercase (R113). -/
def lowercase (t : Byte) : Bool := t.getLsbD 5

/-- `type_valid` of the four type bytes (R113); of any other number of bytes, false. -/
def typeValid : List Byte → Bool
  | [t0, t1, t2, t3] =>
    (asciiLetter t0 && asciiLetter t1 && asciiLetter t2 && asciiLetter t3) &&
      !lowercase t2 && (lowercase t0 || !lowercase t3)
  | _ => false

end Sys2Proof.Machine
end

