-- ==== Sys2Proof/Machine/Chunk.lean ====
section
/-! DEFINITION. Unit CK, the incremental CRC-32 chunk checker: its nine commands (41_chunk_checker.md R115 to R126). -/

namespace Sys2Proof.Machine

/-- `ck_pre(n)` after the phase test (R116): the budget before the stream, then the command's own effects. -/
def ckPre (n : Nat) (body : State → State) (s : State) : State :=
  if s.ck.remain.toNat < n then raise .ck .eBudget s
  else if ckAvail s < n then raise .ck .eTrunc s
  else body s

/-- The bytes `ck_consume(n)` results in (R117). -/
def ckPayload (n : Nat) (s : State) : List Byte := s.cks.readN s.ck.pos.toNat n

/-- The effects of `ck_consume(n)` (R117): the accumulator over the bytes, the position and the budget. -/
def ckConsume (n : Nat) (s : State) : State :=
  { s with ck := { s.ck with
      crcacc := crcBytes s.ck.crcacc (ckPayload n s)
      pos := s.ck.pos + BitVec.ofNat 32 n
      remain := s.ck.remain - BitVec.ofNat 32 n } }

/-! ## CK.RESET (R118) -/

/-- CK.RESET: R118. -/
def execCkReset (s : State) : Host.Outcome State Fault Refusal := .next (respond .ok 0#32 (resetCk s))

/-! ## CK.OPEN (R119) -/

/-- The clean end of the stream (R76, R119, R215). -/
def ckNoChunk (s : State) : State := respond .nochunk 0#32 { s with ck := { s.ck with eos := true } }

/-- Opens a chunk of length `len` and type bytes `t` (R119, R112). -/
def ckBegin (len : Word) (t : List Byte) (s : State) : State :=
  respond .ok len { s with ck := { s.ck with
    crcacc := crcBytes crcInit t
    pos := s.ck.pos + 8#32
    remain := len
    declen := len
    type := beWord t
    phase := .payload
    eos := false
    strnul := false } }

/-- CK.OPEN after the phase test: length available, length sign, type available, type valid, in that order (R119). -/
def ckOpenBody (s : State) : State :=
  if ckAvail s = 0 then ckNoChunk s
  else if ckAvail s < 4 then raise .ck .eTrunc s
  else if (beWord (s.cks.readN s.ck.pos.toNat 4)).getLsbD 31 then raise .ck .eLength s
  else if ckAvail s < 8 then raise .ck .eTrunc s
  else if !typeValid (s.cks.readN (s.ck.pos.toNat + 4) 4) then raise .ck .eType s
  else ckBegin (beWord (s.cks.readN s.ck.pos.toNat 4)) (s.cks.readN (s.ck.pos.toNat + 4) 4) s

/-- CK.OPEN: R119. -/
def execCkOpen (s : State) : Host.Outcome State Fault Refusal := .next (ckCommand .idle ckOpenBody s)

/-! ## The integer reads (R120 to R122) -/

/-- The n payload bytes as one big-endian number, to CK_DATA and VALUE; nothing to PO (R120 to R122). -/
def ckReadInt (n : Nat) (s : State) : State :=
  let v := beWord (ckPayload n s)
  let t := ckConsume n s
  respond .ok v { t with ck := { t.ck with data := v } }

/-- CK.RD8: R120. -/
def execCkRd8 (s : State) : Host.Outcome State Fault Refusal := .next (ckCommand .payload (ckPre 1 (ckReadInt 1)) s)

/-- CK.RD16: R121. -/
def execCkRd16 (s : State) : Host.Outcome State Fault Refusal := .next (ckCommand .payload (ckPre 2 (ckReadInt 2)) s)

/-- CK.RD32: R122. -/
def execCkRd32 (s : State) : Host.Outcome State Fault Refusal := .next (ckCommand .payload (ckPre 4 (ckReadInt 4)) s)

/-! ## The forwarding reads (R123 to R125) -/

/-- Consumes n payload bytes, forwards the first k of them to PO and answers k (R123 to R125). -/
def ckForward (n k : Nat) (s : State) : State :=
  respond .ok (BitVec.ofNat 32 k) (poAppend ((ckPayload n s).take k) (ckConsume n s))

/-- CK.RDN n: R123. -/
def execCkRdn (n : Word) (s : State) : Host.Outcome State Fault Refusal :=
  .next (ckCommand .payload (ckPre n.toNat (ckForward n.toNat n.toNat)) s)

/-- CK.RDALL after the phase test (R124). -/
def ckRdallBody (s : State) : State :=
  if ckAvail s < s.ck.remain.toNat then raise .ck .eTrunc s
  else ckForward s.ck.remain.toNat s.ck.remain.toNat s

/-- CK.RDALL: R124. -/
def execCkRdall (s : State) : Host.Outcome State Fault Refusal := .next (ckCommand .payload ckRdallBody s)

/-- The index of the first byte 0x00, if any (R125). -/
def firstNul : List Byte → Option Nat
  | [] => none
  | b :: rest => if b = 0#8 then some 0 else (firstNul rest).map (· + 1)

/-- Sets STRNUL (R26, R125). -/
def setStrnul (b : Bool) (s : State) : State := { s with ck := { s.ck with strnul := b } }

/-- CK.RDSTR after the phase test (R125): `seg` of the pseudocode is the bytes that may be looked at. -/
def ckRdstrBody (s : State) : State :=
  match firstNul (ckPayload (min s.ck.remain.toNat (ckAvail s)) s) with
  | some z => setStrnul true (ckForward (z + 1) z s)
  | none =>
    if ckAvail s < s.ck.remain.toNat then raise .ck .eTrunc s
    else setStrnul false (ckForward s.ck.remain.toNat s.ck.remain.toNat s)

/-- CK.RDSTR: R125. -/
def execCkRdstr (s : State) : Host.Outcome State Fault Refusal := .next (ckCommand .payload ckRdstrBody s)

/-! ## CK.FINISH (R126) -/

/-- The chunk is good: past the trailer, one more chunk counted, phase IDLE (R126). -/
def ckEnd (trailer : Word) (s : State) : State :=
  respond .ok trailer { s with ck := { s.ck with
    pos := s.ck.pos + 4#32
    count := s.ck.count + 1#32
    phase := .idle } }

/-- CK.FINISH after the phase test: budget, trailer available, checksum, in that order (R126). -/
def ckFinishBody (s : State) : State :=
  if s.ck.remain ≠ 0#32 then raise .ck .eBudget s
  else if ckAvail s < 4 then raise .ck .eTrunc s
  else if beWord (s.cks.readN s.ck.pos.toNat 4) ≠ crcFinal s.ck.crcacc then raise .ck .eCrc s
  else ckEnd (beWord (s.cks.readN s.ck.pos.toNat 4)) s

/-- CK.FINISH: R126. -/
def execCkFinish (s : State) : Host.Outcome State Fault Refusal := .next (ckCommand .payload ckFinishBody s)

end Sys2Proof.Machine
end

