-- ==== Sys2Proof/Machine/Global.lean ====
section
/-! DEFINITION. The global commands NOP, RDR and WRR (40_global_commands.md R100 to R102). They belong to no unit and
are never answered FAULTED (R90). -/

namespace Sys2Proof.Machine

/-- NOP: R100. -/
def execNop (s : State) : Host.Outcome State Fault Refusal := .next (respond .ok 0#32 s)

/-- RDR RN: R101. A number that is no register is refused with E_ILLCMD (R85); the decoder gives no such command (DEDUCED, log 13). -/
def execRdr (rn : Byte) (s : State) : Host.Outcome State Fault Refusal :=
  match Reg.ofNum rn with
  | none => .next (refuse .eIllcmd s)
  | some r => .next (respond .ok (readReg r s) s)

/-- WRR RN, IMM: R102, its tests in the order the rule lists them. -/
def execWrr (rn : Byte) (imm : Word) (s : State) : Host.Outcome State Fault Refusal :=
  match Reg.ofNum rn with
  | none => .next (refuse .eIllcmd s)
  | some r => .next (if writable r s then respond .ok imm (writeReg r imm s) else refuse .eAccess s)

end Sys2Proof.Machine
end

