-- ==== Sys2Proof/Machine/Filter.lean ====
section
/-! DEFINITION. The scanline prediction filter reverser (42_filter_reverser.md R140 to R151). -/

namespace Sys2Proof.Machine

/-- The five filter types (R142). -/
inductive Filter where
  | none | sub | up | average | paeth
  deriving DecidableEq, Repr

/-- The type a filter-type byte names; a byte above 4 names none (R142, R151). -/
def Filter.ofByte (b : Byte) : Option Filter :=
  match b.toNat with
  | 0 => some .none
  | 1 => some .sub
  | 2 => some .up
  | 3 => some .average
  | 4 => some .paeth
  | _ => Option.none

/-- `paeth(a, b, c)` (R147), in exact integers: the nearest of a, b, c to p = a + b - c, a before b before c. -/
def paeth (a b c : Byte) : Byte :=
  let p : Int := (a.toNat : Int) + b.toNat - c.toNat
  let pa := (p - a.toNat).natAbs
  let pb := (p - b.toNat).natAbs
  let pc := (p - c.toNat).natAbs
  if pa ≤ pb ∧ pa ≤ pc then a else if pb ≤ pc then b else c

/-- `(a + b) div 2`, the sum not reduced (R146). -/
def average (a b : Byte) : Byte := BitVec.ofNat 8 ((a.toNat + b.toNat) / 2)

/-- `pred(f, a, b, c)` (R142 to R147). -/
def pred (f : Filter) (a b c : Byte) : Byte :=
  match f with
  | .none => 0#8
  | .sub => a
  | .up => b
  | .average => average a b
  | .paeth => paeth a b c

/-- What decoding adds the predictor to: modulo 256 (R148, R150). -/
def decodeFilter (f : Filter) (d a b c : Byte) : Byte := d + pred f a b c

/-- The encoder's side of the pairing property (R150, informative): no command does this. -/
def encodeFilter (f : Filter) (s a b c : Byte) : Byte := s - pred f a b c

/-- The loop of R148 from byte i on. `left` is CUR[i-1], CUR[i-2], ... down to CUR[0]; `above` is PREV. The neighbours
are those of R140: a = CUR[i-bpp], b = PREV[i], c = PREV[i-bpp], and 0 off the left edge. -/
def unfilterFrom (f : Filter) (bpp : Nat) (above : List Byte) : Nat → List Byte → List Byte → List Byte
  | _, _, [] => []
  | i, left, x :: xs =>
    let a := if bpp ≤ i then left.getD (bpp - 1) 0#8 else 0#8
    let b := above.getD i 0#8
    let c := if bpp ≤ i then above.getD (i - bpp) 0#8 else 0#8
    let v := decodeFilter f x a b c
    v :: unfilterFrom f bpp above (i + 1) (v :: left) xs

/-- The reconstructed row of the stored bytes `x` under the previous row `above` (R148). -/
def unfilter (f : Filter) (bpp : Nat) (above x : List Byte) : List Byte := unfilterFrom f bpp above 0 [] x

/-- A line buffer whose first bytes are these and whose further bytes are the old ones. -/
def overlay (row old : List Byte) : List Byte := row ++ old.drop row.length

/-- `unfilter_row(f, x)` (R148): fills CUR[0 .. RB-1]. -/
def unfilterRow (f : Filter) (x : List Byte) (s : State) : State :=
  { s with px := { s.px with cur := overlay (unfilter f s.px.bpp.toNat s.px.prev x) s.px.cur } }

/-- `PREV[i] <- CUR[i]` for i in 0 .. RB-1 (R148, R187). -/
def keepRow (s : State) : State :=
  { s with px := { s.px with prev := overlay (s.px.cur.take s.px.rb.toNat) s.px.prev } }

end Sys2Proof.Machine
end

