-- ==== Sys2Proof/Machine/Adam7.lean ====
section
/-! DEFINITION. The Adam7 interlace decomposer (43_adam7_decomposer.md R155 to R161), the row length (R171), and the
helper set_pass (45_pixel_commands.md R191). -/

namespace Sys2Proof.Machine

/-- Origin and steps of a pass (R156). -/
structure Geom where
  xOff : Nat
  yOff : Nat
  xStep : Nat
  yStep : Nat
  deriving DecidableEq, Repr

/-- The sequential geometry (R155). -/
def geomSequential : Geom := ⟨0, 0, 1, 1⟩

/-- Row p of the pass table (R156); from 7 on, the sequential geometry, which is what selector 7 of PX.GEOM names
(R162). No run has a pass index above 6 (DESIGN CHOICE, log 11). -/
def geomRow (p : Nat) : Geom :=
  match p with
  | 0 => ⟨0, 0, 8, 8⟩
  | 1 => ⟨4, 0, 8, 8⟩
  | 2 => ⟨0, 4, 4, 8⟩
  | 3 => ⟨2, 0, 4, 4⟩
  | 4 => ⟨0, 2, 2, 4⟩
  | 5 => ⟨1, 0, 2, 2⟩
  | 6 => ⟨0, 1, 1, 2⟩
  | _ => geomSequential

/-- `geom(p)` (R156): row p in the progressive scheme, the sequential geometry otherwise. -/
def geom (ilace : Word) (p : Nat) : Geom := if ilace = 1#32 then geomRow p else geomSequential

/-- One dimension of a pass: ceil((extent - off) / step), 0 where extent <= off (R157). -/
def passExtent (extent off step : Nat) : Nat := if extent ≤ off then 0 else (extent - off + step - 1) / step

/-- `passdim(W, H, g)` (R157). -/
def passDim (w h : Nat) (g : Geom) : Nat × Nat := (passExtent w g.xOff g.xStep, passExtent h g.yOff g.yStep)

/-- A pass with pixels (R158). -/
def passNonEmpty (w h : Nat) (g : Geom) : Bool := 0 < (passDim w h g).1 && 0 < (passDim w h g).2

/-- `next_pass(p)` (R161): the least later non-empty pass of the progressive scheme; none in sequential mode. -/
def nextPass (ilace : Word) (w h p : Nat) : Option Nat :=
  if ilace = 1#32 then [1, 2, 3, 4, 5, 6].find? (fun q => p < q && passNonEmpty w h (geomRow q)) else none

/-- `rowbytes(w)` for this channel count and depth (R171). -/
def rowBytes (w chans depth : Nat) : Nat := (w * chans * depth + 7) / 8

/-- `bytesPerPixel` (R141). -/
def bytesPerPixel (chans depth : Nat) : Nat := max 1 (chans * depth / 8)

/-- Pixel position of column q, row r of a pass, as an index of PIX (R160, R64). -/
def pixIndex (g : Geom) (w q r : Nat) : Nat := (g.yOff + r * g.yStep) * w + (g.xOff + q * g.xStep)

/-- The pass dimensions of pass p of the configured image. -/
def pxPassDim (s : State) (p : Nat) : Nat × Nat := passDim s.px.width.toNat s.px.height.toNat (geom s.px.ilace p)

/-- `set_pass(p)` (R191). -/
def setPass (p : Nat) (s : State) : State :=
  { s with px := { s.px with
      pass := BitVec.ofNat 32 p
      row := 0#32
      pw := BitVec.ofNat 32 (pxPassDim s p).1
      ph := BitVec.ofNat 32 (pxPassDim s p).2
      rb := BitVec.ofNat 32 (rowBytes (pxPassDim s p).1 s.px.chans.toNat s.px.depth.toNat)
      prev := zeroLine s.rowmax } }

end Sys2Proof.Machine
end

