-- ==== Sys2Proof/Machine/Unpack.lean ====
section
/-! DEFINITION. The sample bit-unpacker (44_sample_unpacker.md R170 to R179). -/

namespace Sys2Proof.Machine

/-- `sample(j)` of a row (R172 to R174): a byte at depth 8, two bytes big-endian at depth 16, below 8 the next d bits
from the most significant end. -/
def sample (depth : Nat) (row : List Byte) (j : Nat) : Nat :=
  if depth = 8 then (row.getD j 0#8).toNat
  else if depth = 16 then (row.getD (2 * j) 0#8).toNat * 256 + (row.getD (2 * j + 1) 0#8).toNat
  else ((row.getD (j * depth / 8) 0#8).toNat >>> (8 - depth - j * depth % 8)) % 2 ^ depth

/-- The sum of `sample(q*ch + k) << (16*k)` over the channels k below n (R176). -/
def cellSum (chans depth : Nat) (row : List Byte) (q : Nat) : Nat → Nat
  | 0 => 0
  | n + 1 => cellSum chans depth row q n + sample depth row (q * chans + n) <<< (16 * n)

/-- `cell(q)` (R176). -/
def cell (chans depth : Nat) (row : List Byte) (q : Nat) : PixCell :=
  BitVec.ofNat 64 (cellSum chans depth row q chans)

/-- The geometry of the pass being decoded. -/
def pxGeom (s : State) : Geom := geom s.px.ilace s.px.pass.toNat

/-- Where PX.ROW puts column q of the next row (R179). -/
def pxIndex (s : State) (q : Nat) : Nat := pixIndex (pxGeom s) s.px.width.toNat q s.px.row.toNat

/-- What PX.ROW puts there, of the row in CUR (R179). -/
def pxCell (s : State) (q : Nat) : PixCell := cell s.px.chans.toNat s.px.depth.toNat s.px.cur q

/-- The loop of R179 for the n columns from q on, in ascending order. -/
def writeCells (idx : Nat → Nat) (val : Nat → PixCell) : Nat → Nat → PixGrid → PixGrid
  | _, 0, g => g
  | q, n + 1, g => writeCells idx val (q + 1) n (g.write (idx q) (val q))

/-- `unpack_row` (R179): PX_PW cells of the row in CUR to PIX. -/
def unpackRow (s : State) : State :=
  { s with pix := writeCells (pxIndex s) (pxCell s) 0 s.px.pw.toNat s.pix }

end Sys2Proof.Machine
end

