-- ==== Sys2Proof/Machine/Pixel.lean ====
section
/-! DEFINITION. Unit PX, the pixel pipeline: PX.RESET, PX.START, PX.ROW, PX.RUN (45_pixel_commands.md R185 to R191) and
PX.GEOM (43_adam7_decomposer.md R162). -/

namespace Sys2Proof.Machine

/-! ## PX.RESET (R185) -/

/-- PX.RESET: R185. -/
def execPxReset (s : State) : Host.Outcome State Fault Refusal := .next (respond .ok 0#32 (resetPx s))

/-! ## PX.START (R186) -/

/-- DIMMAX (R11). -/
def dimMax : Nat := 2 ^ 31 - 1

/-- A legal width or height (R40, R186). -/
def dimLegal (n : Nat) : Bool := 1 ≤ n && n ≤ dimMax

/-- A legal depth (R41, R178). -/
def depthLegal (d : Nat) : Bool := d = 1 || d = 2 || d = 4 || d = 8 || d = 16

/-- A legal channel count (R42, R178). -/
def chansLegal (ch : Nat) : Bool := 1 ≤ ch && ch ≤ 4

/-- One channel only below depth 8 (R178). -/
def formatLegal (d ch : Nat) : Bool := 8 ≤ d || ch = 1

/-- The first of PX.START's own tests that fires (R186). -/
def startError (s : State) : Option ErrCode :=
  if !dimLegal s.px.width.toNat || !dimLegal s.px.height.toNat then some .eRange
  else if !depthLegal s.px.depth.toNat then some .eRange
  else if !chansLegal s.px.chans.toNat then some .eRange
  else if !formatLegal s.px.depth.toNat s.px.chans.toNat then some .eRange
  else if 1 < s.px.ilace.toNat then some .eUnsupported
  else if s.rowmax.toNat < rowBytes s.px.width.toNat s.px.chans.toNat s.px.depth.toNat then some .eRowmax
  else none

/-- The run begins (R186): BPP, pass 0, every PIX cell unwritten, phase RUN. -/
def beginRun (s : State) : State :=
  let t := setPass 0 { s with px := { s.px with
    bpp := BitVec.ofNat 32 (bytesPerPixel s.px.chans.toNat s.px.depth.toNat) } }
  { t with pix := [], px := { t.px with phase := .run } }

/-- PX.START after the phase test (R186). -/
def pxStartBody (s : State) : State :=
  match startError s with
  | some e => refuse e s
  | none => respond .ok 0#32 (beginRun s)

/-- PX.START: R186. -/
def execPxStart (s : State) : Host.Outcome State Fault Refusal :=
  .next (pxCommand [.idle, .done] pxStartBody s)

/-! ## PX.ROW (R187) -/

/-- The stored bytes of the next scanline, without its filter byte (R187). -/
def scanline (s : State) : List Byte := s.sls.readN (s.px.pos.toNat + 1) s.px.rb.toNat

/-- Past the scanline: PX_POS by 1 + RB, PX_ROW by 1 (R187). -/
def advanceRow (s : State) : State :=
  { s with px := { s.px with pos := s.px.pos + (1#32 + s.px.rb), row := s.px.row + 1#32 } }

/-- After the last row of a pass: the next non-empty pass, or phase DONE (R187, R161). -/
def endPass (s : State) : State :=
  if s.px.row = s.px.ph then
    match nextPass s.px.ilace s.px.width.toNat s.px.height.toNat s.px.pass.toNat with
    | none => { s with px := { s.px with phase := .done } }
    | some n => setPass n s
  else s

/-- One scanline of filter type f (R187): reconstruct, unpack, keep, advance. -/
def decodeRow (f : Filter) (s : State) : State :=
  endPass (advanceRow (keepRow (unpackRow (unfilterRow f (scanline s) s))))

/-- The body of PX.ROW, from "RB = R[PX_RB]" on (R187): stream availability before the filter byte. -/
def pxRowBody (s : State) : State :=
  if pxAvail s < 1 + s.px.rb.toNat then raise .px .eSltrunc s
  else
    match Filter.ofByte (s.sls.read s.px.pos.toNat) with
    | none => raise .px .eFilter s
    | some f => respond .ok 0#32 (decodeRow f s)

/-- PX.ROW: R187. -/
def execPxRow (s : State) : Host.Outcome State Fault Refusal := .next (pxCommand [.run] pxRowBody s)

/-! ## PX.RUN (R188) -/

/-- The loop of R188, at most `fuel` rows. -/
def runRows : Nat → State → State
  | 0, s => s
  | fuel + 1, s =>
    let t := pxRowBody s
    if t.px.phase = .run then runRows fuel t else t

/-- The loop of R188. Every row that does not fault takes at least its filter byte of SLS, so px_avail + 1 rows are
always enough (log 12). -/
def pxRunBody (s : State) : State := runRows (pxAvail s + 1) s

/-- PX.RUN: R188. -/
def execPxRun (s : State) : Host.Outcome State Fault Refusal := .next (pxCommand [.run] pxRunBody s)

/-! ## PX.GEOM (R162) -/

/-- The geometry a selector names (R162): 0 to 6 a pass of the table, 7 the sequential one. -/
def geomSelected (sel : Word) : Geom := geomRow sel.toNat

/-- PX.GEOM after the phase test (R162). -/
def pxGeomBody (sel : Word) (s : State) : State :=
  if !dimLegal s.px.width.toNat || !dimLegal s.px.height.toNat then refuse .eRange s
  else
    let d := passDim s.px.width.toNat s.px.height.toNat (geomSelected sel)
    respond .ok (BitVec.ofNat 32 d.1)
      { s with px := { s.px with qw := BitVec.ofNat 32 d.1, qh := BitVec.ofNat 32 d.2 } }

/-- PX.GEOM IMM: R162. A selector above 7 is refused with E_ILLCMD (R85); the decoder gives no such command (DEDUCED, log 13). -/
def execPxGeom (sel : Word) (s : State) : Host.Outcome State Fault Refusal :=
  .next (if 7 < sel.toNat then refuse .eIllcmd s else pxCommand [.idle, .run, .done] (pxGeomBody sel) s)

end Sys2Proof.Machine
end

