-- ==== Sys2Proof/Machine/Dispatch.lean ====
section
/-! DEFINITION. The meaning of each command, one arm for each constructor of Instr. -/

namespace Sys2Proof.Machine

def exec (i : Instr) (s : State) : Host.Outcome State Fault Refusal :=
  match i with
  | .nop => Sys2Proof.Machine.execNop s
  | .rdr rn => Sys2Proof.Machine.execRdr rn s
  | .wrr rn imm => Sys2Proof.Machine.execWrr rn imm s
  | .ckReset => Sys2Proof.Machine.execCkReset s
  | .ckOpen => Sys2Proof.Machine.execCkOpen s
  | .ckRd8 => Sys2Proof.Machine.execCkRd8 s
  | .ckRd16 => Sys2Proof.Machine.execCkRd16 s
  | .ckRd32 => Sys2Proof.Machine.execCkRd32 s
  | .ckRdn n => Sys2Proof.Machine.execCkRdn n s
  | .ckRdall => Sys2Proof.Machine.execCkRdall s
  | .ckRdstr => Sys2Proof.Machine.execCkRdstr s
  | .ckFinish => Sys2Proof.Machine.execCkFinish s
  | .pxReset => Sys2Proof.Machine.execPxReset s
  | .pxStart => Sys2Proof.Machine.execPxStart s
  | .pxRow => Sys2Proof.Machine.execPxRow s
  | .pxRun => Sys2Proof.Machine.execPxRun s
  | .pxGeom sel => Sys2Proof.Machine.execPxGeom sel s

end Sys2Proof.Machine
end

