-- ==== Sys2Proof/Machine/Step.lean ====
section
/-! DEFINITION. One step: one host action (70_reset_and_hazards.md R240, R242; log 6). -/

namespace Sys2Proof.Machine

/-- One step. With no action pending the block waits: nothing changes (R230, R243). A command word is executed to its
response (R80, R90); an illegal word is refused (R85). -/
def step (s : State) : Host.Outcome State Fault Refusal :=
  match s.inbox with
  | [] => .next s
  | .command w :: rest =>
    match decode w with
    | .illegal _ => .next (illegalWord (takeAction rest s))
    | .command i => exec i (takeAction rest s)
  | .putCks addr b :: rest => .next (hostPutCks addr b (takeAction rest s))
  | .putSls addr b :: rest => .next (hostPutSls addr b (takeAction rest s))
  | .reset :: rest => .next (hardwareReset (takeAction rest s))

/-- The state in which the next step runs the word with these table bits: the host presents it next (log 6). -/
def State.withFetchWord (s : State) (nbits w : Nat) : State := presentWord (tableWord nbits w) s

end Sys2Proof.Machine
end

