-- ==== Sys2Proof/Safety.lean ====
section
/-! DEFINITION. What a legal state of PNGCORE is, and the vocabulary of the claims: the invariants of the two units and of
the spaces, the scanlines a run still has to decode, the pixels it has decoded, a chunk as bytes. -/

namespace Sys2Proof.Machine

/-! ## Groups of commands and of values -/

/-- A width or height PX.START and PX.GEOM accept (R40, R186). -/
def dimOk (n : Word) : Bool := decide (1 ≤ n.toNat) && decide (n.toNat ≤ 2 ^ 31 - 1)

/-- The unit a command belongs to (R83): none for the global ones and for the unit resets, which no FAULT blocks (R90). -/
def workOf (i : Instr) : Option UnitName :=
  match i with
  | .nop => none
  | .rdr _ => none
  | .wrr _ _ => none
  | .ckReset => none
  | .ckOpen => some .ck
  | .ckRd8 => some .ck
  | .ckRd16 => some .ck
  | .ckRd32 => some .ck
  | .ckRdn _ => some .ck
  | .ckRdall => some .ck
  | .ckRdstr => some .ck
  | .ckFinish => some .ck
  | .pxReset => none
  | .pxStart => some .px
  | .pxRow => some .px
  | .pxRun => some .px
  | .pxGeom _ => some .px

/-- The commands that read payload bytes (R120 to R125). -/
def isPayloadRead (i : Instr) : Bool :=
  match i with
  | .nop => false
  | .rdr _ => false
  | .wrr _ _ => false
  | .ckReset => false
  | .ckOpen => false
  | .ckRd8 => true
  | .ckRd16 => true
  | .ckRd32 => true
  | .ckRdn _ => true
  | .ckRdall => true
  | .ckRdstr => true
  | .ckFinish => false
  | .pxReset => false
  | .pxStart => false
  | .pxRow => false
  | .pxRun => false
  | .pxGeom _ => false

/-- Commands one after the other, as long as each answers a next state (R70). -/
def execAll : List Instr → State → Host.Outcome State Fault Refusal
  | [], s => .next s
  | i :: rest, s =>
    match exec i s with
    | .next t => execAll rest t
    | .fault r => .fault r
    | .refused r => .refused r

/-! ## Legal states -/

/-- The spaces are in canonical form, and PO_POS counts the bytes of PO modulo 2^32 (R36, R63). -/
structure SpacesLegal (s : State) : Prop where
  cks : s.cks.wf
  sls : s.sls.wf
  pix : Assoc.Rising s.pix
  poPos : s.ck.poPos = BitVec.ofNat 32 s.po.length

/-- ROWMAX is in 1 .. 2^32-1 (R11), the line buffers have ROWMAX bytes (R47, R48), and bits 31:13 of the fault log are 0
(R23). -/
structure GlobalLegal (s : State) : Prop where
  rowmax : 0 < s.rowmax.toNat
  prev : s.px.prev.length = s.rowmax.toNat
  cur : s.px.cur.length = s.rowmax.toNat
  log : s.faultlog.toNat < 2 ^ 13

/-- Unit CK: the error register tells of the fault and the log knows it (R23, R27, R204), the budget is within the declared
length and that within 2^31-1 (R30, R31, R115), the type code is none yet or a valid one (R32, R113). -/
structure CkLegal (s : State) : Prop where
  fault : s.ck.phase = .fault →
    22 ≤ s.ck.err.toNat ∧ s.ck.err.toNat ≤ 26 ∧ s.faultlog.getLsbD (s.ck.err.toNat - 16) = true
  noFault : s.ck.phase ≠ .fault → s.ck.err = 0#32
  budget : s.ck.remain.toNat ≤ s.ck.declen.toNat
  length : s.ck.declen.toNat < 2 ^ 31
  type : s.ck.type = 0#32 ∨ ∃ t, typeValid t = true ∧ s.ck.type = beWord t

/-- A run is under way (or has just faulted): the configuration is one PX.START accepts, and the pass registers describe
a non-empty pass of it with a row still to come (R44, R45, R191). -/
structure PxRunning (s : State) : Prop where
  config : startError s = none
  pass : s.px.pass.toNat ≤ 6
  sequential : s.px.ilace = 0#32 → s.px.pass = 0#32
  width : s.px.pw.toNat = (pxPassDim s s.px.pass.toNat).1
  height : s.px.ph.toNat = (pxPassDim s s.px.pass.toNat).2
  nonEmpty : 0 < s.px.pw.toNat
  rowBytes : s.px.rb.toNat = rowBytes s.px.pw.toNat s.px.chans.toNat s.px.depth.toNat
  bpp : s.px.bpp.toNat = bytesPerPixel s.px.chans.toNat s.px.depth.toNat
  row : s.px.row.toNat < s.px.ph.toNat

/-- Unit PX: the error register (R38, R204), the run (R44, R45), and what DONE leaves (R44). -/
structure PxLegal (s : State) : Prop where
  fault : s.px.phase = .fault →
    27 ≤ s.px.err.toNat ∧ s.px.err.toNat ≤ 28 ∧ s.faultlog.getLsbD (s.px.err.toNat - 16) = true
  noFault : s.px.phase ≠ .fault → s.px.err = 0#32
  running : s.px.phase = .run ∨ s.px.phase = .fault → PxRunning s
  done : s.px.phase = .done → s.px.row = s.px.ph

/-- A legal state: what every step keeps. -/
structure Inv (s : State) : Prop where
  spaces : SpacesLegal s
  global : GlobalLegal s
  ck : CkLegal s
  px : PxLegal s

/-! ## What the accumulator covers (R112) -/

/-- The number of payload bytes of the open chunk already read (R31). -/
def ckRead (s : State) : Nat := s.ck.declen.toNat - s.ck.remain.toNat

/-- The bytes of CKS the open chunk's CRC covers so far: its type and the payload read (R112). -/
def ckCovered (s : State) : List Byte := s.cks.readN (s.ck.pos.toNat - ckRead s - 4) (4 + ckRead s)

/-- While a chunk is open the accumulator is that of the type bytes and the payload bytes read so far, wherever the
boundaries between the reads fell, and CK_TYPE is those type bytes (R32, R112). -/
structure CrcCovers (s : State) : Prop where
  inside : s.ck.phase = .payload → 8 + ckRead s ≤ s.ck.pos.toNat
  crc : s.ck.phase = .payload → s.ck.crcacc = crcBytes crcInit (ckCovered s)
  type : s.ck.phase = .payload → s.ck.type = beWord ((ckCovered s).take 4)

/-! ## A chunk on the stream (R110) -/

/-- The four bytes of a word, most significant first (R65). -/
def wordBytes (w : Word) : List Byte :=
  [w.extractLsb' 24 8, w.extractLsb' 16 8, w.extractLsb' 8 8, w.extractLsb' 0 8]

/-- Length, type, payload and trailer, where the trailer is `crc` (R110). -/
def chunkBytes (type payload : List Byte) (crc : Word) : List Byte :=
  wordBytes (BitVec.ofNat 32 payload.length) ++ type ++ payload ++ wordBytes crc

/-- The unread part of the chunk stream begins with these bytes. -/
def StreamBegins (s : State) (bytes : List Byte) : Prop :=
  bytes.length ≤ ckAvail s ∧ s.cks.readN s.ck.pos.toNat bytes.length = bytes

/-! ## What a run still has to decode (R159, R189) -/

/-- The passes after the current one that have scanlines, in order (R161). -/
def laterPasses (s : State) : List Nat :=
  if s.px.ilace = 1#32 then
    [1, 2, 3, 4, 5, 6].filter (fun p => s.px.pass.toNat < p &&
      passNonEmpty s.px.width.toNat s.px.height.toNat (geomRow p))
  else []

/-- Scanline count and scanline length of a pass (R157, R171). -/
def passScanlines (s : State) (p : Nat) : Nat × Nat :=
  ((pxPassDim s p).2, 1 + rowBytes (pxPassDim s p).1 s.px.chans.toNat s.px.depth.toNat)

/-- The scanlines still to come, grouped by pass: how many, and how long each is. -/
def remainingScanlines (s : State) : List (Nat × Nat) :=
  (s.px.ph.toNat - s.px.row.toNat, 1 + s.px.rb.toNat) :: (laterPasses s).map (passScanlines s)

/-- The bytes such groups take. -/
def scanlineBytes : List (Nat × Nat) → Nat
  | [] => 0
  | (n, size) :: rest => n * size + scanlineBytes rest

/-- Where the filter bytes of such groups stand, the first at `start`. -/
def filterByteAddresses (start : Nat) : List (Nat × Nat) → List Nat
  | [] => []
  | (n, size) :: rest => (List.range n).map (fun j => start + j * size) ++ filterByteAddresses (start + n * size) rest

/-- PX.ROW, n times, as long as each answers a next state. -/
def execRows (n : Nat) (s : State) : Host.Outcome State Fault Refusal := execAll (List.replicate n .pxRow) s

/-! ## The pixels a run has decoded (R160, R163) -/

/-- Column q of row r of pass p is a pixel of the configured image (R157, R160). -/
def IsPassPixel (s : State) (p q r : Nat) : Prop :=
  (s.px.ilace = 1#32 ∧ p ≤ 6 ∨ p = 0) ∧ q < (pxPassDim s p).1 ∧ r < (pxPassDim s p).2

/-- Row r of pass p comes before the row PX decodes next (R159). -/
def IsDecoded (s : State) (p r : Nat) : Prop :=
  p < s.px.pass.toNat ∨ p = s.px.pass.toNat ∧ r < s.px.row.toNat

/-- While PX runs, the written cells of PIX are exactly the pixels of the rows decoded so far (R64, R187). -/
def PixProgress (s : State) : Prop :=
  s.px.phase = .run → ∀ idx, (s.pix.read idx).isSome = true ↔
    ∃ p q r, IsPassPixel s p q r ∧ IsDecoded s p r ∧
      idx = pixIndex (geom s.px.ilace p) s.px.width.toNat q r

end Sys2Proof.Machine
end

