-- ==== Sys2Proof/Certificates/Slice0/Obligations.lean ====
section
/-! DEFINITION. The statements about PNGCORE, in the order of OBLIGATIONS.json. -/

open Sys2Proof Sys2Proof.Machine

/-! ## Encoding (30_encoding.md) -/

/-- The example words of R87 and others of R83's table, written out, decode to the commands they stand for. -/
def Obligations.DecodesWrittenOutWords : Prop :=
  decode 0x0000000000000000#64 = .command .nop ∧
  decode 0x0117000000000000#64 = .command (.rdr 0x17#8) ∧
  decode 0x0213000000000025#64 = .command (.wrr 0x13#8 37#32) ∧
  decode 0x1100000000000000#64 = .command .ckOpen ∧
  decode 0x1500000000000005#64 = .command (.ckRdn 5#32) ∧
  decode 0x1800000000000000#64 = .command .ckFinish ∧
  decode 0x2200000000000000#64 = .command .pxRow ∧
  decode 0x2400000000000006#64 = .command (.pxGeom 6#32) ∧
  decode 0x2400000000000008#64 = .illegal .passSelectorAbove7

/-- Decode of encode, for every well-formed command with every operand (R80 to R83): no bit of an encoding is lost. -/
def Obligations.DecodeOfEncodeIsTheCommand : Prop :=
  ∀ i : Instr, i.wf = true → decode (encode i) = .command i

/-- Encode of decode: a word that is a command is the one word of that command, and its operands are legal (R81, R83). -/
def Obligations.EncodeOfDecodeIsTheWord : Prop :=
  ∀ (w : CmdWord) (i : Instr), decode w = .command i → encode i = w ∧ i.wf = true

/-- R83's match and mask: a word decodes to a command of a row exactly when its masked bits are the row's match and the
operand is legal; and no word meets two rows. -/
def Obligations.MatchAndMaskSelectTheCommand : Prop :=
  (∀ (w : CmdWord) (i : Instr),
    (∃ j, decode w = .command j ∧ j.matchBits = i.matchBits) ↔
      w &&& i.mask = i.matchBits ∧
        (match i with
          | .rdr _ => regDefined (rnField w) = true
          | .wrr _ _ => regDefined (rnField w) = true
          | .pxGeom _ => selectorDefined (immField w) = true
          | _ => True)) ∧
  (∀ (w : CmdWord) (i j : Instr),
    w &&& i.mask = i.matchBits → w &&& j.mask = j.matchBits → i.matchBits = j.matchBits)

/-- R85: which words are illegal, and what becomes of one: E_ILLCMD before every other test, log bit 0, nothing else. -/
def Obligations.IllegalWordsAreRefused : Prop :=
  (∀ w : CmdWord, (∃ why, decode w = .illegal why) ↔
    opcField w ∉ [0x00#8, 0x01#8, 0x02#8, 0x10#8, 0x11#8, 0x12#8, 0x13#8, 0x14#8, 0x15#8, 0x16#8, 0x17#8, 0x18#8,
      0x20#8, 0x21#8, 0x22#8, 0x23#8, 0x24#8] ∨
    zeroField w ≠ 0#16 ∨
    (rnField w ≠ 0#8 ∧ opcField w ≠ 0x01#8 ∧ opcField w ≠ 0x02#8) ∨
    (immField w ≠ 0#32 ∧ opcField w ≠ 0x02#8 ∧ opcField w ≠ 0x15#8 ∧ opcField w ≠ 0x24#8) ∨
    ((opcField w = 0x01#8 ∨ opcField w = 0x02#8) ∧ ∀ r : Reg, r.num ≠ rnField w) ∨
    (opcField w = 0x24#8 ∧ 7 < (immField w).toNat)) ∧
  (∀ (s : State) (w : CmdWord) (rest : List HostAction),
    s.inbox = .command w :: rest → (∃ why, decode w = .illegal why) →
    step s = .next { s with
      inbox := rest
      faultlog := s.faultlog ||| 0x1#32
      resp := some ⟨.error .eIllcmd, 0#32⟩ })

/-! ## The step -/

/-- When the word at the port decodes to a command, the step is that command's meaning at the state whose port has taken
the word. -/
def Obligations.StepRunsThePresentedCommand : Prop :=
  ∀ (s : State) (w : CmdWord) (rest : List HostAction) (i : Instr),
    s.inbox = .command w :: rest → decode w = .command i → step s = exec i { s with inbox := rest }

/-- The host's other actions (R240): a byte put into an input space is read there and nowhere else, and nothing else
changes; with no action pending the block waits. One action a step is the model's choice (log 6). -/
def Obligations.StepPerformsTheHostsActions : Prop :=
  (∀ (s : State) (a : Word) (b : Byte) (rest : List HostAction), s.cks.wf → s.inbox = .putCks a b :: rest →
    ∃ m : Memory, step s = .next { s with inbox := rest, cks := m } ∧ m.wf ∧ m.read a.toNat = b ∧
      ∀ x, x ≠ a.toNat → m.read x = s.cks.read x) ∧
  (∀ (s : State) (a : Word) (b : Byte) (rest : List HostAction), s.sls.wf → s.inbox = .putSls a b :: rest →
    ∃ m : Memory, step s = .next { s with inbox := rest, sls := m } ∧ m.wf ∧ m.read a.toNat = b ∧
      ∀ x, x ≠ a.toNat → m.read x = s.sls.read x) ∧
  (∀ s : State, s.inbox = [] → step s = .next s)

/-- R231: what every register reads after the hardware reset, from any state, and that PO is empty, PIX unwritten, the
input spaces untouched (log 9); the same of the state after reset for every value of ROWMAX (log 1). -/
def Obligations.ResetGivesTheResetValues : Prop :=
  (∀ (s : State) (rest : List HostAction), s.inbox = .reset :: rest →
    ∃ t, step s = .next t ∧
      (∀ r : Reg, readReg r t =
        (match r with
          | .id => 0x504E4331#32
          | .rowmax => s.rowmax
          | _ => 0#32)) ∧
      t.ck.crcacc = 0xFFFFFFFF#32 ∧ t.po = [] ∧ (∀ idx, t.pix.read idx = none) ∧ t.cks = s.cks ∧ t.sls = s.sls) ∧
  (∀ p : Word,
    (∀ r : Reg, readReg r (State.resetWith p) =
      (match r with
        | .id => 0x504E4331#32
        | .rowmax => p
        | _ => 0#32)) ∧
    (State.resetWith p).ck.crcacc = 0xFFFFFFFF#32 ∧ (State.resetWith p).po = [] ∧
      ∀ idx, (State.resetWith p).pix.read idx = none)

/-! ## The global commands (40_global_commands.md) -/

/-- R100: NOP answers (OK, 0) and changes nothing, in every state. -/
def Obligations.NopAnswersAndChangesNothing : Prop :=
  ∀ s : State, exec .nop s = .next { s with resp := some ⟨.ok, 0#32⟩ }

/-- R101: RDR answers the register's value and changes nothing, in every phase: the two status registers assembled from
their fields, CK_CRC the complement of the accumulator, the others as they stand. Each register has the number of R22's
table. A number that is no register is refused with E_ILLCMD. -/
def Obligations.RdrAnswersTheRegister : Prop :=
  ∀ (s : State) (rn : Byte),
    (∀ r : Reg, r.num =
      (match r with
        | .id => 0x00#8
        | .faultlog => 0x01#8
        | .rowmax => 0x02#8
        | .ckStatus => 0x10#8
        | .ckErr => 0x11#8
        | .ckPos => 0x12#8
        | .ckLen => 0x13#8
        | .ckRemain => 0x14#8
        | .ckDeclen => 0x15#8
        | .ckType => 0x16#8
        | .ckCrc => 0x17#8
        | .ckData => 0x18#8
        | .ckCount => 0x19#8
        | .poPos => 0x1A#8
        | .pxStatus => 0x20#8
        | .pxErr => 0x21#8
        | .pxPos => 0x22#8
        | .pxLen => 0x23#8
        | .pxWidth => 0x24#8
        | .pxHeight => 0x25#8
        | .pxDepth => 0x26#8
        | .pxChans => 0x27#8
        | .pxIlace => 0x28#8
        | .pxPass => 0x29#8
        | .pxRow => 0x2A#8
        | .pxPw => 0x2B#8
        | .pxPh => 0x2C#8
        | .pxRb => 0x2D#8
        | .pxBpp => 0x2E#8
        | .pxQw => 0x2F#8
        | .pxQh => 0x30#8)) ∧
    (∀ r : Reg, r.num = rn → exec (.rdr rn) s = .next { s with resp := some ⟨.ok,
      (match r with
        | .id => 0x504E4331#32
        | .faultlog => s.faultlog
        | .rowmax => s.rowmax
        | .ckStatus =>
          (0#24) ++ BitVec.ofBool (s.ck.type.getLsbD 5) ++ (0#1) ++ BitVec.ofBool (s.ck.type.getLsbD 21) ++
            BitVec.ofBool (s.ck.type.getLsbD 29) ++ BitVec.ofBool s.ck.strnul ++ BitVec.ofBool s.ck.eos ++
            (match s.ck.phase with
              | .idle => 0#2
              | .payload => 1#2
              | .fault => 2#2)
        | .ckErr => s.ck.err
        | .ckPos => s.ck.pos
        | .ckLen => s.ck.len
        | .ckRemain => s.ck.remain
        | .ckDeclen => s.ck.declen
        | .ckType => s.ck.type
        | .ckCrc => s.ck.crcacc ^^^ 0xFFFFFFFF#32
        | .ckData => s.ck.data
        | .ckCount => s.ck.count
        | .poPos => s.ck.poPos
        | .pxStatus =>
          (0#30) ++ (match s.px.phase with
            | .idle => 0#2
            | .run => 1#2
            | .fault => 2#2
            | .done => 3#2)
        | .pxErr => s.px.err
        | .pxPos => s.px.pos
        | .pxLen => s.px.len
        | .pxWidth => s.px.width
        | .pxHeight => s.px.height
        | .pxDepth => s.px.depth
        | .pxChans => s.px.chans
        | .pxIlace => s.px.ilace
        | .pxPass => s.px.pass
        | .pxRow => s.px.row
        | .pxPw => s.px.pw
        | .pxPh => s.px.ph
        | .pxRb => s.px.rb
        | .pxBpp => s.px.bpp
        | .pxQw => s.px.qw
        | .pxQh => s.px.qh)⟩ }) ∧
    ((∀ r : Reg, r.num ≠ rn) → exec (.rdr rn) s = .next (refuse .eIllcmd s))

/-- R102: WRR stores the 32 bits as given where the table of R102 allows it, answers them, and changes nothing else; a
register that is not writable now is refused with E_ACCESS, a number that is no register with E_ILLCMD. -/
def Obligations.WrrStoresWhereThePhaseAllows : Prop :=
  ∀ (s : State) (imm : Word),
    (s.ck.phase = .idle → exec (.wrr 0x12#8 imm) s =
      .next { s with ck := { s.ck with pos := imm }, resp := some ⟨.ok, imm⟩ }) ∧
    (s.ck.phase ≠ .fault → exec (.wrr 0x13#8 imm) s =
      .next { s with ck := { s.ck with len := imm }, resp := some ⟨.ok, imm⟩ }) ∧
    (s.px.phase = .idle ∨ s.px.phase = .done →
      exec (.wrr 0x22#8 imm) s = .next { s with px := { s.px with pos := imm }, resp := some ⟨.ok, imm⟩ } ∧
      exec (.wrr 0x23#8 imm) s = .next { s with px := { s.px with len := imm }, resp := some ⟨.ok, imm⟩ } ∧
      exec (.wrr 0x24#8 imm) s = .next { s with px := { s.px with width := imm }, resp := some ⟨.ok, imm⟩ } ∧
      exec (.wrr 0x25#8 imm) s = .next { s with px := { s.px with height := imm }, resp := some ⟨.ok, imm⟩ } ∧
      exec (.wrr 0x26#8 imm) s = .next { s with px := { s.px with depth := imm }, resp := some ⟨.ok, imm⟩ } ∧
      exec (.wrr 0x27#8 imm) s = .next { s with px := { s.px with chans := imm }, resp := some ⟨.ok, imm⟩ } ∧
      exec (.wrr 0x28#8 imm) s = .next { s with px := { s.px with ilace := imm }, resp := some ⟨.ok, imm⟩ }) ∧
    (s.ck.phase ≠ .idle → exec (.wrr 0x12#8 imm) s = .next (refuse .eAccess s)) ∧
    (s.ck.phase = .fault → exec (.wrr 0x13#8 imm) s = .next (refuse .eAccess s)) ∧
    (s.px.phase = .run ∨ s.px.phase = .fault →
      ∀ rn : Byte, 0x22 ≤ rn.toNat → rn.toNat ≤ 0x28 → exec (.wrr rn imm) s = .next (refuse .eAccess s)) ∧
    (∀ r : Reg, r ∉ [.ckPos, .ckLen, .pxPos, .pxLen, .pxWidth, .pxHeight, .pxDepth, .pxChans, .pxIlace] →
      exec (.wrr r.num imm) s = .next (refuse .eAccess s)) ∧
    (∀ rn : Byte, (∀ r : Reg, r.num ≠ rn) → exec (.wrr rn imm) s = .next (refuse .eIllcmd s))

/-- A register write is seen by the register that was written and by no other: the frame of WRR through RDR's eyes. -/
def Obligations.WrrChangesNoOtherRegister : Prop :=
  ∀ (s t : State) (r : Reg) (imm : Word), exec (.wrr r.num imm) s = .next t →
    (∀ r' : Reg, r' ≠ r → r' ≠ .faultlog → readReg r' t = readReg r' s) ∧
    (t.resp = some ⟨.ok, imm⟩ → readReg r t = imm)

/-- R26 and R37: what each bit of the two status registers reads. -/
def Obligations.StatusRegisterBits : Prop :=
  ∀ (s : State) (n : Nat), n < 32 →
    ((readReg .ckStatus s).getLsbD n =
      (match n with
        | 0 => decide (s.ck.phase = .payload)
        | 1 => decide (s.ck.phase = .fault)
        | 2 => s.ck.eos
        | 3 => s.ck.strnul
        | 4 => s.ck.type.getLsbD 29
        | 5 => s.ck.type.getLsbD 21
        | 7 => s.ck.type.getLsbD 5
        | _ => false)) ∧
    ((readReg .pxStatus s).getLsbD n =
      (match n with
        | 0 => decide (s.px.phase = .run ∨ s.px.phase = .done)
        | 1 => decide (s.px.phase = .fault ∨ s.px.phase = .done)
        | _ => false))

/-! ## Unit CK (41_chunk_checker.md) -/

/-- R118: CK.RESET gives every CK register its reset value in every phase, empties PO, and touches nothing else. -/
def Obligations.CkResetRestoresTheUnit : Prop :=
  ∀ s : State, exec .ckReset s = .next { s with
    ck := { phase := .idle, eos := false, strnul := false, err := 0#32, pos := 0#32, len := 0#32, remain := 0#32,
            declen := 0#32, type := 0#32, crcacc := 0xFFFFFFFF#32, data := 0#32, count := 0#32, poPos := 0#32 }
    po := []
    resp := some ⟨.ok, 0#32⟩ }

/-- R119: CK.OPEN, every outcome in the order of its tests, and on success the whole next state. -/
def Obligations.CkOpenFollowsItsTests : Prop :=
  ∀ s : State,
    (s.ck.phase = .fault → exec .ckOpen s = .next { s with resp := some ⟨.faulted, s.ck.err⟩ }) ∧
    (s.ck.phase = .payload → exec .ckOpen s = .next (refuse .eSeq s)) ∧
    (s.ck.phase = .idle →
      (ckAvail s = 0 → exec .ckOpen s =
        .next { s with ck := { s.ck with eos := true }, resp := some ⟨.nochunk, 0#32⟩ }) ∧
      (0 < ckAvail s → ckAvail s < 4 → exec .ckOpen s = .next (raise .ck .eTrunc s)) ∧
      (4 ≤ ckAvail s → 2 ^ 31 ≤ beNat (s.cks.readN s.ck.pos.toNat 4) →
        exec .ckOpen s = .next (raise .ck .eLength s)) ∧
      (4 ≤ ckAvail s → ckAvail s < 8 → beNat (s.cks.readN s.ck.pos.toNat 4) < 2 ^ 31 →
        exec .ckOpen s = .next (raise .ck .eTrunc s)) ∧
      (8 ≤ ckAvail s → beNat (s.cks.readN s.ck.pos.toNat 4) < 2 ^ 31 →
        typeValid (s.cks.readN (s.ck.pos.toNat + 4) 4) = false → exec .ckOpen s = .next (raise .ck .eType s)) ∧
      (8 ≤ ckAvail s → beNat (s.cks.readN s.ck.pos.toNat 4) < 2 ^ 31 →
        typeValid (s.cks.readN (s.ck.pos.toNat + 4) 4) = true →
        exec .ckOpen s = .next { s with
          ck := { s.ck with
            crcacc := crcBytes 0xFFFFFFFF#32 (s.cks.readN (s.ck.pos.toNat + 4) 4)
            pos := BitVec.ofNat 32 (s.ck.pos.toNat + 8)
            remain := BitVec.ofNat 32 (beNat (s.cks.readN s.ck.pos.toNat 4))
            declen := BitVec.ofNat 32 (beNat (s.cks.readN s.ck.pos.toNat 4))
            type := BitVec.ofNat 32 (beNat (s.cks.readN (s.ck.pos.toNat + 4) 4))
            phase := .payload
            eos := false
            strnul := false }
          resp := some ⟨.ok, BitVec.ofNat 32 (beNat (s.cks.readN s.ck.pos.toNat 4))⟩ }))

/-- R120, R121, R122: the three integer reads, every outcome in the order of the tests of R116, and on success the whole
next state: the big-endian value in VALUE and CK_DATA, position, budget and accumulator advanced, nothing to PO. -/
def Obligations.CkIntegerReadsFollowTheirTests : Prop :=
  ∀ (s : State) (i : Instr) (n : Nat),
    (i = .ckRd8 ∧ n = 1) ∨ (i = .ckRd16 ∧ n = 2) ∨ (i = .ckRd32 ∧ n = 4) →
    (s.ck.phase = .fault → exec i s = .next { s with resp := some ⟨.faulted, s.ck.err⟩ }) ∧
    (s.ck.phase = .idle → exec i s = .next (refuse .eSeq s)) ∧
    (s.ck.phase = .payload →
      (s.ck.remain.toNat < n → exec i s = .next (raise .ck .eBudget s)) ∧
      (n ≤ s.ck.remain.toNat → ckAvail s < n → exec i s = .next (raise .ck .eTrunc s)) ∧
      (n ≤ s.ck.remain.toNat → n ≤ ckAvail s →
        exec i s = .next { s with
          ck := { s.ck with
            crcacc := (s.cks.readN s.ck.pos.toNat n).foldl crcUpdate s.ck.crcacc
            pos := BitVec.ofNat 32 (s.ck.pos.toNat + n)
            remain := BitVec.ofNat 32 (s.ck.remain.toNat - n)
            data := BitVec.ofNat 32 (beNat (s.cks.readN s.ck.pos.toNat n)) }
          resp := some ⟨.ok, BitVec.ofNat 32 (beNat (s.cks.readN s.ck.pos.toNat n))⟩ }))

/-- R123: CK.RDN, every outcome in the order of its tests, and on success the whole next state: the bytes appended to PO
unchanged and in order. -/
def Obligations.CkRdnForwardsTheBytes : Prop :=
  ∀ (s : State) (n : Word),
    (s.ck.phase = .fault → exec (.ckRdn n) s = .next { s with resp := some ⟨.faulted, s.ck.err⟩ }) ∧
    (s.ck.phase = .idle → exec (.ckRdn n) s = .next (refuse .eSeq s)) ∧
    (s.ck.phase = .payload →
      (s.ck.remain.toNat < n.toNat → exec (.ckRdn n) s = .next (raise .ck .eBudget s)) ∧
      (n.toNat ≤ s.ck.remain.toNat → ckAvail s < n.toNat → exec (.ckRdn n) s = .next (raise .ck .eTrunc s)) ∧
      (n.toNat ≤ s.ck.remain.toNat → n.toNat ≤ ckAvail s →
        exec (.ckRdn n) s = .next { s with
          ck := { s.ck with
            crcacc := (s.cks.readN s.ck.pos.toNat n.toNat).foldl crcUpdate s.ck.crcacc
            pos := s.ck.pos + n
            remain := s.ck.remain - n
            poPos := s.ck.poPos + n }
          po := s.po ++ s.cks.readN s.ck.pos.toNat n.toNat
          resp := some ⟨.ok, n⟩ }))

/-- R124: CK.RDALL, every outcome in the order of its tests, and on success the whole next state; it never raises
E_BUDGET. -/
def Obligations.CkRdallForwardsAllThatRemains : Prop :=
  ∀ s : State,
    (s.ck.phase = .fault → exec .ckRdall s = .next { s with resp := some ⟨.faulted, s.ck.err⟩ }) ∧
    (s.ck.phase = .idle → exec .ckRdall s = .next (refuse .eSeq s)) ∧
    (s.ck.phase = .payload →
      (ckAvail s < s.ck.remain.toNat → exec .ckRdall s = .next (raise .ck .eTrunc s)) ∧
      (s.ck.remain.toNat ≤ ckAvail s →
        exec .ckRdall s = .next { s with
          ck := { s.ck with
            crcacc := (s.cks.readN s.ck.pos.toNat s.ck.remain.toNat).foldl crcUpdate s.ck.crcacc
            pos := s.ck.pos + s.ck.remain
            remain := 0#32
            poPos := s.ck.poPos + s.ck.remain }
          po := s.po ++ s.cks.readN s.ck.pos.toNat s.ck.remain.toNat
          resp := some ⟨.ok, s.ck.remain⟩ }))

/-- R125: CK.RDSTR. With a first NUL at offset z inside budget and stream: z bytes forwarded, z+1 consumed, STRNUL 1. With
none: E_TRUNC if the stream ends before the budget, else the whole budget forwarded and STRNUL 0. -/
def Obligations.CkRdstrStopsAtNulOrBudget : Prop :=
  ∀ s : State,
    (s.ck.phase = .fault → exec .ckRdstr s = .next { s with resp := some ⟨.faulted, s.ck.err⟩ }) ∧
    (s.ck.phase = .idle → exec .ckRdstr s = .next (refuse .eSeq s)) ∧
    (s.ck.phase = .payload →
      (∀ z : Nat, z < s.ck.remain.toNat → z < ckAvail s → s.cks.read (s.ck.pos.toNat + z) = 0#8 →
        (∀ k, k < z → s.cks.read (s.ck.pos.toNat + k) ≠ 0#8) →
        exec .ckRdstr s = .next { s with
          ck := { s.ck with
            crcacc := (s.cks.readN s.ck.pos.toNat (z + 1)).foldl crcUpdate s.ck.crcacc
            pos := BitVec.ofNat 32 (s.ck.pos.toNat + (z + 1))
            remain := BitVec.ofNat 32 (s.ck.remain.toNat - (z + 1))
            poPos := s.ck.poPos + BitVec.ofNat 32 z
            strnul := true }
          po := s.po ++ s.cks.readN s.ck.pos.toNat z
          resp := some ⟨.ok, BitVec.ofNat 32 z⟩ }) ∧
      ((∀ k, k < s.ck.remain.toNat → k < ckAvail s → s.cks.read (s.ck.pos.toNat + k) ≠ 0#8) →
        (ckAvail s < s.ck.remain.toNat → exec .ckRdstr s = .next (raise .ck .eTrunc s)) ∧
        (s.ck.remain.toNat ≤ ckAvail s →
          exec .ckRdstr s = .next { s with
            ck := { s.ck with
              crcacc := (s.cks.readN s.ck.pos.toNat s.ck.remain.toNat).foldl crcUpdate s.ck.crcacc
              pos := s.ck.pos + s.ck.remain
              remain := 0#32
              poPos := s.ck.poPos + s.ck.remain
              strnul := false }
            po := s.po ++ s.cks.readN s.ck.pos.toNat s.ck.remain.toNat
            resp := some ⟨.ok, s.ck.remain⟩ })))

/-- R126: CK.FINISH, every outcome in the order of its tests, and on success the whole next state. -/
def Obligations.CkFinishComparesTheChecksum : Prop :=
  ∀ s : State,
    (s.ck.phase = .fault → exec .ckFinish s = .next { s with resp := some ⟨.faulted, s.ck.err⟩ }) ∧
    (s.ck.phase = .idle → exec .ckFinish s = .next (refuse .eSeq s)) ∧
    (s.ck.phase = .payload →
      (s.ck.remain ≠ 0#32 → exec .ckFinish s = .next (raise .ck .eBudget s)) ∧
      (s.ck.remain = 0#32 → ckAvail s < 4 → exec .ckFinish s = .next (raise .ck .eTrunc s)) ∧
      (s.ck.remain = 0#32 → 4 ≤ ckAvail s →
        BitVec.ofNat 32 (beNat (s.cks.readN s.ck.pos.toNat 4)) ≠ s.ck.crcacc ^^^ 0xFFFFFFFF#32 →
        exec .ckFinish s = .next (raise .ck .eCrc s)) ∧
      (s.ck.remain = 0#32 → 4 ≤ ckAvail s →
        BitVec.ofNat 32 (beNat (s.cks.readN s.ck.pos.toNat 4)) = s.ck.crcacc ^^^ 0xFFFFFFFF#32 →
        exec .ckFinish s = .next { s with
          ck := { s.ck with pos := s.ck.pos + 4#32, count := s.ck.count + 1#32, phase := .idle }
          resp := some ⟨.ok, s.ck.crcacc ^^^ 0xFFFFFFFF#32⟩ }))

/-- R113: which four bytes are a type code. The letter ranges are the spec's from general knowledge (G4, log 16). -/
def Obligations.TypeCodeValidity : Prop :=
  ∀ t0 t1 t2 t3 : Byte, typeValid [t0, t1, t2, t3] = true ↔
    (∀ t ∈ [t0, t1, t2, t3], (0x41 ≤ t.toNat ∧ t.toNat ≤ 0x5A) ∨ (0x61 ≤ t.toNat ∧ t.toNat ≤ 0x7A)) ∧
    t2.getLsbD 5 = false ∧ (t0.getLsbD 5 = true ∨ t3.getLsbD 5 = false)

/-- R65: the wide reads and the narrow reads agree. One CK.RD32 answers {first, second} of two CK.RD16, and one CK.RD16
answers {first, second} of two CK.RD8; both leave the same position, budget and accumulator. -/
def Obligations.WideReadsAgreeWithNarrowReads : Prop :=
  ∀ (s : State) (wide narrow : Instr) (n : Nat),
    (wide = .ckRd32 ∧ narrow = .ckRd16 ∧ n = 2) ∨ (wide = .ckRd16 ∧ narrow = .ckRd8 ∧ n = 1) →
    s.ck.phase = .payload → 2 * n ≤ s.ck.remain.toNat → 2 * n ≤ ckAvail s →
    ∃ t u v : State, ∃ x y : Word, exec narrow s = .next t ∧ exec narrow t = .next u ∧ exec wide s = .next v ∧
      t.resp = some ⟨.ok, x⟩ ∧ u.resp = some ⟨.ok, y⟩ ∧
      v.resp = some ⟨.ok, BitVec.ofNat 32 (x.toNat * 256 ^ n + y.toNat)⟩ ∧
      v.ck.pos = u.ck.pos ∧ v.ck.remain = u.ck.remain ∧ v.ck.crcacc = u.ck.crcacc ∧ v.po = u.po

/-- R112 with R117 and R123: how the payload is grouped into reads does not matter. After any read commands, of any kind
and in any order, the accumulator is that before them taken over the bytes between the two positions, and the budget has
lost their number; no read changes the chunk's type, its declared length or the stream. Two CK.RDN of m and n bytes leave
the whole state of one of m + n, but for the response. -/
def Obligations.GroupingOfReadsDoesNotMatter : Prop :=
  (∀ (reads : List Instr) (s t : State), (∀ i ∈ reads, isPayloadRead i = true) → execAll reads s = .next t →
    ∃ bytes : List Byte, bytes = s.cks.readN s.ck.pos.toNat bytes.length ∧
      t.ck.pos.toNat = s.ck.pos.toNat + bytes.length ∧
      t.ck.remain.toNat + bytes.length = s.ck.remain.toNat ∧
      t.ck.crcacc = bytes.foldl crcUpdate s.ck.crcacc ∧
      t.ck.type = s.ck.type ∧ t.ck.declen = s.ck.declen ∧ t.ck.len = s.ck.len ∧ t.cks = s.cks) ∧
  (∀ (s : State) (m n k : Word), s.ck.phase = .payload → m.toNat + n.toNat = k.toNat →
    k.toNat ≤ s.ck.remain.toNat → k.toNat ≤ ckAvail s →
    ∃ t u v : State, exec (.ckRdn m) s = .next t ∧ exec (.ckRdn n) t = .next u ∧ exec (.ckRdn k) s = .next v ∧
      u = { v with resp := some ⟨.ok, n⟩ })

/-- R112 as an invariant: while a chunk is open, the accumulator covers exactly its type bytes and the payload bytes read
so far; every command keeps this. -/
def Obligations.EveryCommandKeepsTheCrcCoverage : Prop :=
  ∀ (i : Instr) (s t : State), CkLegal s → CrcCovers s → exec i s = .next t → CrcCovers t

/-- No chunk is accepted with a wrong checksum: when CK.FINISH answers OK, the whole declared payload has been read and the
trailer is the CRC-32 of type and payload as they stand in CKS. -/
def Obligations.FinishAcceptsOnlyAMatchingChecksum : Prop :=
  ∀ (s t : State) (v : Word), CkLegal s → CrcCovers s → exec .ckFinish s = .next t → t.resp = some ⟨.ok, v⟩ →
    s.ck.remain = 0#32 ∧ v = BitVec.ofNat 32 (beNat (s.cks.readN s.ck.pos.toNat 4)) ∧
    v = crc32 (s.cks.readN (s.ck.pos.toNat - s.ck.declen.toNat - 4) (4 + s.ck.declen.toNat))

/-- A well-formed chunk at the unread end of the stream is read by CK.OPEN, CK.RDALL, CK.FINISH: all answer OK, the
payload is on PO, the chunk is counted and CK stands behind it (R128). -/
def Obligations.WellFormedChunkIsAccepted : Prop :=
  ∀ (s : State) (type payload : List Byte),
    s.ck.phase = .idle → typeValid type = true → payload.length < 2 ^ 31 →
    StreamBegins s (chunkBytes type payload (crc32 (type ++ payload))) →
    ∃ t u v : State, exec .ckOpen s = .next t ∧ exec .ckRdall t = .next u ∧ exec .ckFinish u = .next v ∧
      t.resp = some ⟨.ok, BitVec.ofNat 32 payload.length⟩ ∧ u.resp = some ⟨.ok, BitVec.ofNat 32 payload.length⟩ ∧
      v.resp = some ⟨.ok, crc32 (type ++ payload)⟩ ∧
      v.po = s.po ++ payload ∧ v.ck.phase = .idle ∧ v.ck.count = s.ck.count + 1#32 ∧
      v.ck.pos.toNat = s.ck.pos.toNat + 12 + payload.length ∧ v.faultlog = s.faultlog

/-- R127: a chunk that was well-formed but for one changed payload byte is never accepted. After CK.OPEN and CK.RDALL,
CK.FINISH answers E_CRC and CK is in phase FAULT. After CK.OPEN and any read commands at all, of any kind and in any order,
CK.FINISH leaves CK in phase FAULT with the chunk not counted, and answers E_CRC if they have read the whole payload. -/
def Obligations.ChangedPayloadByteIsRejected : Prop :=
  ∀ (s : State) (type before after : List Byte) (b b' : Byte),
    s.ck.phase = .idle → typeValid type = true → (before ++ b :: after).length < 2 ^ 31 → b ≠ b' →
    StreamBegins s (chunkBytes type (before ++ b' :: after) (crc32 (type ++ (before ++ b :: after)))) →
    ∃ t : State, exec .ckOpen s = .next t ∧
      (∃ u v : State, exec .ckRdall t = .next u ∧ exec .ckFinish u = .next v ∧
        v.resp = some ⟨.error .eCrc, 0#32⟩ ∧ v.ck.phase = .fault ∧ v.ck.err = 25#32 ∧ v.ck.count = s.ck.count) ∧
      (∀ (reads : List Instr) (u v : State), (∀ i ∈ reads, isPayloadRead i = true) → execAll reads t = .next u →
        exec .ckFinish u = .next v →
        v.ck.phase = .fault ∧ v.ck.count = s.ck.count ∧ (∀ x, v.resp ≠ some ⟨.ok, x⟩) ∧
        (u.ck.phase = .payload → u.ck.remain = 0#32 → v.resp = some ⟨.error .eCrc, 0#32⟩ ∧ v.ck.err = 25#32))

/-! ## Unit PX: the computations (files 42 to 44) -/

/-- R142 to R146: the filter types by number, and the predictors None, Sub, Up and Average, the sum not reduced
(the spec's from general knowledge: G6, log 16). -/
def Obligations.FilterTypesAndSimplePredictors : Prop :=
  (Filter.ofByte 0#8 = some .none ∧ Filter.ofByte 1#8 = some .sub ∧ Filter.ofByte 2#8 = some .up ∧
    Filter.ofByte 3#8 = some .average ∧ Filter.ofByte 4#8 = some .paeth) ∧
  (∀ x : Byte, 4 < x.toNat → Filter.ofByte x = none) ∧
  (∀ a b c : Byte, pred .none a b c = 0#8 ∧ pred .sub a b c = a ∧ pred .up a b c = b ∧
    (pred .average a b c).toNat = (a.toNat + b.toNat) / 2)

/-- R147: Paeth answers the one of a, b, c nearest to a + b - c in exact integers; a wins every tie it is in, and b a tie
with c. The exact integers are the spec's from general knowledge (G7, log 16). -/
def Obligations.PaethPicksTheNearest : Prop :=
  ∀ (a b c : Byte) (p : Int), p = (a.toNat : Int) + b.toNat - c.toNat →
    (|p - a.toNat| ≤ |p - b.toNat| → |p - a.toNat| ≤ |p - c.toNat| → pred .paeth a b c = a) ∧
    (|p - b.toNat| < |p - a.toNat| → |p - b.toNat| ≤ |p - c.toNat| → pred .paeth a b c = b) ∧
    (|p - c.toNat| < |p - a.toNat| → |p - c.toNat| < |p - b.toNat| → pred .paeth a b c = c)

/-- R150: the encoder subtracts the predictor modulo 256, the decoder adds it, and decoding undoes encoding, for every
type and every byte. -/
def Obligations.FilterPairing : Prop :=
  ∀ (f : Filter) (s d a b c : Byte),
    ((encodeFilter f s a b c).toNat : Int) = ((s.toNat : Int) - (pred f a b c).toNat) % 256 ∧
    (decodeFilter f d a b c).toNat = (d.toNat + (pred f a b c).toNat) % 256 ∧
    decodeFilter f (encodeFilter f s a b c) a b c = s

/-- R157: a pass dimension is the ceiling of (extent - off) / step, 0 where that is not positive: the least number of
steps that reach from the offset to the extent. -/
def Obligations.PassDimensionIsTheCeiling : Prop :=
  ∀ (w h p n : Nat),
    (n < (passDim w h (geomRow p)).1 ↔ (geomRow p).xOff + n * (geomRow p).xStep < w) ∧
    (n < (passDim w h (geomRow p)).2 ↔ (geomRow p).yOff + n * (geomRow p).yStep < h)

/-- R171 and R141: a row is the least number of whole bytes that hold its bits, and a pixel for the filter the whole bytes
of one pixel but at least one (the latter the spec's from general knowledge: G5, log 16). -/
def Obligations.RowLengthAndPixelBytes : Prop :=
  ∀ w ch d : Nat,
    w * ch * d ≤ 8 * rowBytes w ch d ∧ 8 * rowBytes w ch d < w * ch * d + 8 ∧
    (ch * d < 8 → bytesPerPixel ch d = 1) ∧ (8 ≤ ch * d → bytesPerPixel ch d = ch * d / 8)

/-- R158: which passes of an image with pixels are empty; pass 0 never is. -/
def Obligations.EmptyPasses : Prop :=
  ∀ w h : Nat, 1 ≤ w → 1 ≤ h →
    passNonEmpty w h (geomRow 0) = true ∧
    (passNonEmpty w h (geomRow 1) = false ↔ w ≤ 4) ∧
    (passNonEmpty w h (geomRow 2) = false ↔ h ≤ 4) ∧
    (passNonEmpty w h (geomRow 3) = false ↔ w ≤ 2) ∧
    (passNonEmpty w h (geomRow 4) = false ↔ h ≤ 2) ∧
    (passNonEmpty w h (geomRow 5) = false ↔ w ≤ 1) ∧
    (passNonEmpty w h (geomRow 6) = false ↔ h ≤ 1)

/-- R163: the seven passes partition the image: every pixel is column q of row r of pass p for exactly one (p, q, r). -/
def Obligations.PassesPartitionTheImage : Prop :=
  ∀ w h x y : Nat, x < w → y < h →
    ∃ p q r, (p ≤ 6 ∧ q < (passDim w h (geomRow p)).1 ∧ r < (passDim w h (geomRow p)).2 ∧
      x = (geomRow p).xOff + q * (geomRow p).xStep ∧ y = (geomRow p).yOff + r * (geomRow p).yStep) ∧
      ∀ p' q' r', p' ≤ 6 → q' < (passDim w h (geomRow p')).1 → r' < (passDim w h (geomRow p')).2 →
        x = (geomRow p').xOff + q' * (geomRow p').xStep → y = (geomRow p').yOff + r' * (geomRow p').yStep →
        p' = p ∧ q' = q ∧ r' = r

/-- R161: next_pass is the least later non-empty pass of the progressive scheme, none when there is none, and always none
in sequential mode. -/
def Obligations.NextPassIsTheLeastLaterOne : Prop :=
  ∀ w h p : Nat,
    nextPass 0#32 w h p = none ∧
    (∀ q, nextPass 1#32 w h p = some q ↔ p < q ∧ q ≤ 6 ∧ passNonEmpty w h (geomRow q) = true ∧
      ∀ r, p < r → r < q → passNonEmpty w h (geomRow r) = false) ∧
    (nextPass 1#32 w h p = none ↔ ∀ q, p < q → q ≤ 6 → passNonEmpty w h (geomRow q) = false)

/-- R172 to R174 and R177: sample j of a row is the d bits of the row, taken as one big-endian number, that stand j*d bits
from its most significant end; no sample exceeds its depth. Below depth 8 the bit order is the spec's from general
knowledge (G8, log 16). -/
def Obligations.SampleIsTheNextBitsOfTheRow : Prop :=
  ∀ (d j : Nat) (row : List Byte), depthLegal d = true →
    ((j + 1) * d ≤ 8 * row.length → sample d row j = beNat row / 2 ^ (8 * row.length - (j + 1) * d) % 2 ^ d) ∧
    sample d row j < 2 ^ d

/-- R176: lane k of a cell is channel k, zero-extended to 16 bits, and the lanes of absent channels are 0. -/
def Obligations.CellLanesAreTheChannels : Prop :=
  ∀ (ch d q k : Nat) (row : List Byte), chansLegal ch = true → depthLegal d = true → k < 4 →
    ((cell ch d row q).extractLsb' (16 * k) 16).toNat = if k < ch then sample d row (q * ch + k) else 0

/-- R175: the unused low bits of the last byte of a row are in no sample. Two rows that agree but for the low bits below
the last sample give the same cells (the spec's from general knowledge: G8, log 16). -/
def Obligations.PaddingBitsAreIgnored : Prop :=
  ∀ (d pw q : Nat) (init : List Byte) (x y : Byte), (d = 1 ∨ d = 2 ∨ d = 4) → q < pw →
    rowBytes pw 1 d = init.length + 1 →
    x.toNat / 2 ^ (8 * (init.length + 1) - pw * d) = y.toNat / 2 ^ (8 * (init.length + 1) - pw * d) →
    cell 1 d (init ++ [x]) q = cell 1 d (init ++ [y]) q

/-! ## Unit PX: the commands (files 43 and 45) -/

/-- R185: PX.RESET gives every PX register its reset value in every phase and touches nothing else but the line buffers,
which become unspecified: the statement says nothing of their bytes, nor of the count of free values (log 3, log 4). -/
def Obligations.PxResetRestoresTheUnit : Prop :=
  ∀ s : State, ∃ prev cur : List Byte, ∃ n : Nat, exec .pxReset s = .next { s with
    px := { phase := .idle, err := 0#32, pos := 0#32, len := 0#32, width := 0#32, height := 0#32, depth := 0#32,
            chans := 0#32, ilace := 0#32, pass := 0#32, row := 0#32, pw := 0#32, ph := 0#32, rb := 0#32, bpp := 0#32,
            qw := 0#32, qh := 0#32, prev := prev, cur := cur }
    resp := some ⟨.ok, 0#32⟩
    freeCount := n }

/-- R186: PX.START, every outcome in the order of its tests, and on success the whole next state: pass 0 with its
dimensions, PREV all zeros, every PIX cell unwritten, phase RUN, PX_POS and the configuration unchanged. That CUR stays as
it is, is read from the spec by inference (DEDUCED, log 8). -/
def Obligations.PxStartFollowsItsTests : Prop :=
  ∀ s : State,
    (s.px.phase = .fault → exec .pxStart s = .next { s with resp := some ⟨.faulted, s.px.err⟩ }) ∧
    (s.px.phase = .run → exec .pxStart s = .next (refuse .eSeq s)) ∧
    (s.px.phase = .idle ∨ s.px.phase = .done →
      (dimOk s.px.width = false ∨ dimOk s.px.height = false ∨
        s.px.depth.toNat ∉ [1, 2, 4, 8, 16] ∨ s.px.chans.toNat ∉ [1, 2, 3, 4] ∨
        (s.px.depth.toNat < 8 ∧ s.px.chans ≠ 1#32) →
        exec .pxStart s = .next (refuse .eRange s)) ∧
      (dimOk s.px.width = true → dimOk s.px.height = true →
        s.px.depth.toNat ∈ [1, 2, 4, 8, 16] → s.px.chans.toNat ∈ [1, 2, 3, 4] →
        ¬ (s.px.depth.toNat < 8 ∧ s.px.chans ≠ 1#32) →
        (1 < s.px.ilace.toNat → exec .pxStart s = .next (refuse .eUnsupported s)) ∧
        (s.px.ilace.toNat ≤ 1 →
          s.rowmax.toNat < (s.px.width.toNat * s.px.chans.toNat * s.px.depth.toNat + 7) / 8 →
          exec .pxStart s = .next (refuse .eRowmax s)) ∧
        (s.px.ilace.toNat ≤ 1 →
          (s.px.width.toNat * s.px.chans.toNat * s.px.depth.toNat + 7) / 8 ≤ s.rowmax.toNat →
          exec .pxStart s = .next { s with
            px := { s.px with
              phase := .run
              bpp := BitVec.ofNat 32 (max 1 (s.px.chans.toNat * s.px.depth.toNat / 8))
              pass := 0#32
              row := 0#32
              pw := BitVec.ofNat 32 (pxPassDim s 0).1
              ph := BitVec.ofNat 32 (pxPassDim s 0).2
              rb := BitVec.ofNat 32 (((pxPassDim s 0).1 * s.px.chans.toNat * s.px.depth.toNat + 7) / 8)
              prev := List.replicate s.rowmax.toNat 0#8 }
            pix := []
            resp := some ⟨.ok, 0#32⟩ })))

/-- R187 and R148: PX.ROW in a running unit when a whole scanline with a legal filter byte is there. There is a
reconstructed row whose every byte is the stored byte plus the predictor of its neighbours modulo 256; it is in CUR and, within the pass, in PREV; its
cells are at their pixels' indices in PIX and every other index reads as before; PX_POS is past the scanline; the next
row, the next non-empty pass with PREV zero, or DONE follows; nothing else changes. What CUR and PREV hold at RB and above is
read from the spec by inference (log 8). -/
def Obligations.PxRowDecodesOneScanline : Prop :=
  ∀ (s : State) (f : Filter), PxRunning s → s.px.phase = .run → 1 + s.px.rb.toNat ≤ pxAvail s →
    Filter.ofByte (s.sls.read s.px.pos.toNat) = some f →
    ∃ (row : List Byte) (t : State), exec .pxRow s = .next t ∧ row.length = s.px.rb.toNat ∧
      (∀ i, i < s.px.rb.toNat → row.getD i 0#8 = s.sls.read (s.px.pos.toNat + 1 + i) +
        pred f (if s.px.bpp.toNat ≤ i then row.getD (i - s.px.bpp.toNat) 0#8 else 0#8)
          (s.px.prev.getD i 0#8)
          (if s.px.bpp.toNat ≤ i then s.px.prev.getD (i - s.px.bpp.toNat) 0#8 else 0#8)) ∧
      (∀ q, q < s.px.pw.toNat →
        t.pix.read (pixIndex (geom s.px.ilace s.px.pass.toNat) s.px.width.toNat q s.px.row.toNat) =
          some (cell s.px.chans.toNat s.px.depth.toNat row q)) ∧
      (∀ idx, (∀ q, q < s.px.pw.toNat →
          idx ≠ pixIndex (geom s.px.ilace s.px.pass.toNat) s.px.width.toNat q s.px.row.toNat) →
        t.pix.read idx = s.pix.read idx) ∧
      (s.px.row + 1#32 ≠ s.px.ph → t.px = { s.px with
        pos := BitVec.ofNat 32 (s.px.pos.toNat + 1 + s.px.rb.toNat)
        row := s.px.row + 1#32
        prev := row ++ s.px.prev.drop s.px.rb.toNat
        cur := row ++ s.px.cur.drop s.px.rb.toNat }) ∧
      (s.px.row + 1#32 = s.px.ph →
        nextPass s.px.ilace s.px.width.toNat s.px.height.toNat s.px.pass.toNat = none → t.px = { s.px with
          phase := .done
          pos := BitVec.ofNat 32 (s.px.pos.toNat + 1 + s.px.rb.toNat)
          row := s.px.row + 1#32
          prev := row ++ s.px.prev.drop s.px.rb.toNat
          cur := row ++ s.px.cur.drop s.px.rb.toNat }) ∧
      (∀ p, s.px.row + 1#32 = s.px.ph →
        nextPass s.px.ilace s.px.width.toNat s.px.height.toNat s.px.pass.toNat = some p → t.px = { s.px with
          pos := BitVec.ofNat 32 (s.px.pos.toNat + 1 + s.px.rb.toNat)
          pass := BitVec.ofNat 32 p
          row := 0#32
          pw := BitVec.ofNat 32 (pxPassDim s p).1
          ph := BitVec.ofNat 32 (pxPassDim s p).2
          rb := BitVec.ofNat 32 (((pxPassDim s p).1 * s.px.chans.toNat * s.px.depth.toNat + 7) / 8)
          prev := List.replicate s.rowmax.toNat 0#8
          cur := row ++ s.px.cur.drop s.px.rb.toNat }) ∧
      t.resp = some ⟨.ok, 0#32⟩ ∧
      { t with px := s.px, pix := s.pix, resp := s.resp } = s

/-- R187: PX.ROW's other outcomes, in the order of its tests: a short stream before a bad filter byte, and neither touches
PIX, PREV or a position. -/
def Obligations.PxRowRefusesAndFaultsInOrder : Prop :=
  ∀ s : State,
    (s.px.phase = .fault → exec .pxRow s = .next { s with resp := some ⟨.faulted, s.px.err⟩ }) ∧
    (s.px.phase = .idle ∨ s.px.phase = .done → exec .pxRow s = .next (refuse .eSeq s)) ∧
    (s.px.phase = .run →
      (pxAvail s < 1 + s.px.rb.toNat → exec .pxRow s = .next (raise .px .eSltrunc s)) ∧
      (1 + s.px.rb.toNat ≤ pxAvail s → 4 < (s.sls.read s.px.pos.toNat).toNat →
        exec .pxRow s = .next (raise .px .eFilter s)))

/-- R188: PX.RUN is PX.ROW issued until the phase leaves RUN, and gives the response of the last one; elsewhere it is
refused, or answered FAULTED. -/
def Obligations.PxRunIsRepeatedPxRow : Prop :=
  ∀ s : State,
    (s.px.phase = .fault → exec .pxRun s = .next { s with resp := some ⟨.faulted, s.px.err⟩ }) ∧
    (s.px.phase = .idle ∨ s.px.phase = .done → exec .pxRun s = .next (refuse .eSeq s)) ∧
    (s.px.phase = .run → ∃ (k : Nat) (t : State), exec .pxRun s = .next t ∧ execRows (k + 1) s = .next t ∧
      t.px.phase ≠ .run ∧ ∀ j, j ≤ k → ∃ u, execRows j s = .next u ∧ u.px.phase = .run)

/-- R189: a run whose remaining scanlines are all there, each with a legal filter byte, completes: PX.RUN answers (OK, 0),
the phase is DONE, and PX_POS has advanced by exactly the bytes of the remaining scanlines of the remaining non-empty
passes. -/
def Obligations.PxRunCompletesAWholeImage : Prop :=
  ∀ s : State, Inv s → s.px.phase = .run → scanlineBytes (remainingScanlines s) ≤ pxAvail s →
    (∀ a ∈ filterByteAddresses s.px.pos.toNat (remainingScanlines s), (s.sls.read a).toNat ≤ 4) →
    ∃ t, exec .pxRun s = .next t ∧ t.resp = some ⟨.ok, 0#32⟩ ∧ t.px.phase = .done ∧
      t.px.pos.toNat = s.px.pos.toNat + scanlineBytes (remainingScanlines s) ∧ t.faultlog = s.faultlog

/-- What PX.RUN leaves as it was: all but unit PX, PIX, the fault log and the response; of PX the stream length and the
configuration; and every index of PIX that is no pixel of a row still to be decoded. -/
def Obligations.PxRunLeavesTheRestUnchanged : Prop :=
  ∀ s t : State, Inv s → s.px.phase = .run → exec .pxRun s = .next t →
    { t with px := s.px, pix := s.pix, resp := s.resp, faultlog := s.faultlog } = s ∧
    t.px.len = s.px.len ∧ t.px.width = s.px.width ∧ t.px.height = s.px.height ∧ t.px.depth = s.px.depth ∧
    t.px.chans = s.px.chans ∧ t.px.ilace = s.px.ilace ∧ t.px.bpp = s.px.bpp ∧ t.px.qw = s.px.qw ∧ t.px.qh = s.px.qh ∧
    ∀ idx, (∀ p q r, IsPassPixel s p q r → ¬ IsDecoded s p r →
        idx ≠ pixIndex (geom s.px.ilace p) s.px.width.toNat q r) →
      t.pix.read idx = s.pix.read idx

/-- R162: PX.GEOM, every outcome in the order of its tests, and on success the whole next state. -/
def Obligations.PxGeomAnswersThePassSize : Prop :=
  ∀ (s : State) (sel : Word),
    (7 < sel.toNat → exec (.pxGeom sel) s = .next (refuse .eIllcmd s)) ∧
    (sel.toNat ≤ 7 →
      (s.px.phase = .fault → exec (.pxGeom sel) s = .next { s with resp := some ⟨.faulted, s.px.err⟩ }) ∧
      (s.px.phase ≠ .fault →
        (dimOk s.px.width = false ∨ dimOk s.px.height = false →
          exec (.pxGeom sel) s = .next (refuse .eRange s)) ∧
        (dimOk s.px.width = true → dimOk s.px.height = true →
          ∀ g : Geom, (sel.toNat < 7 → g = geomRow sel.toNat) → (sel.toNat = 7 → g = ⟨0, 0, 1, 1⟩) →
          exec (.pxGeom sel) s = .next { s with
            px := { s.px with
              qw := BitVec.ofNat 32 (passDim s.px.width.toNat s.px.height.toNat g).1
              qh := BitVec.ofNat 32 (passDim s.px.width.toNat s.px.height.toNat g).2 }
            resp := some ⟨.ok, BitVec.ofNat 32 (passDim s.px.width.toNat s.px.height.toNat g).1⟩ })))

/-- R156: the pass table. -/
def Obligations.PassTable : Prop :=
  geomRow 0 = ⟨0, 0, 8, 8⟩ ∧ geomRow 1 = ⟨4, 0, 8, 8⟩ ∧ geomRow 2 = ⟨0, 4, 4, 8⟩ ∧ geomRow 3 = ⟨2, 0, 4, 4⟩ ∧
  geomRow 4 = ⟨0, 2, 2, 4⟩ ∧ geomRow 5 = ⟨1, 0, 2, 2⟩ ∧ geomRow 6 = ⟨0, 1, 1, 2⟩ ∧
  (∀ p, geom 0#32 p = ⟨0, 0, 1, 1⟩) ∧ (∀ p, geom 1#32 p = geomRow p)

/-! ## The whole machine -/

/-- R203 and R204: what an error changes. A refusal: the log bit and the response, nothing else. A fault: the log bit, its
unit's phase and error register, the response, nothing else. The table is R201's and R23's: every error with its code and
its bit of the fault log. The last clauses are R84's response word, with the codes of OK, NOCHUNK and FAULTED. -/
def Obligations.ErrorsChangeLogUnitAndResponse : Prop :=
  (∀ (s : State) (e : ErrCode) (v : Word), ∃ (code : Byte) (bit : Word),
    (code, bit) =
      (match e with
        | .eIllcmd => (16#8, 0x0001#32)
        | .eAccess => (17#8, 0x0002#32)
        | .eSeq => (18#8, 0x0004#32)
        | .eRange => (19#8, 0x0008#32)
        | .eUnsupported => (20#8, 0x0010#32)
        | .eRowmax => (21#8, 0x0020#32)
        | .eTrunc => (22#8, 0x0040#32)
        | .eLength => (23#8, 0x0080#32)
        | .eType => (24#8, 0x0100#32)
        | .eCrc => (25#8, 0x0200#32)
        | .eBudget => (26#8, 0x0400#32)
        | .eFilter => (27#8, 0x0800#32)
        | .eSltrunc => (28#8, 0x1000#32)) ∧
    refuse e s = { s with
      faultlog := s.faultlog ||| bit
      resp := some ⟨.error e, 0#32⟩ } ∧
    raise .ck e s = { s with
      faultlog := s.faultlog ||| bit
      ck := { s.ck with phase := .fault, err := code.setWidth 32 }
      resp := some ⟨.error e, 0#32⟩ } ∧
    raise .px e s = { s with
      faultlog := s.faultlog ||| bit
      px := { s.px with phase := .fault, err := code.setWidth 32 }
      resp := some ⟨.error e, 0#32⟩ } ∧
    e.code = code ∧
    Response.word ⟨.error e, v⟩ = (0#24) ++ code ++ v) ∧
  (∀ v : Word,
    Response.word ⟨.ok, v⟩ = (0#24) ++ (0#8) ++ v ∧
    Response.word ⟨.nochunk, v⟩ = (0#24) ++ (1#8) ++ v ∧
    Response.word ⟨.faulted, v⟩ = (0#24) ++ (2#8) ++ v)

/-- R205: a faulted unit answers (FAULTED, U_ERR) to every legal command of its own but its reset, and nothing changes, not
even the fault log; a write to any of its registers is refused with E_ACCESS. -/
def Obligations.FaultedUnitDoesNothing : Prop :=
  ∀ s : State,
    (s.ck.phase = .fault ∨ s.px.phase = .fault →
      exec .nop s = .next { s with resp := some ⟨.ok, 0#32⟩ } ∧
      ∀ r : Reg, exec (.rdr r.num) s = .next { s with resp := some ⟨.ok, readReg r s⟩ }) ∧
    (s.ck.phase = .fault →
      (∀ i : Instr, workOf i = some .ck → exec i s = .next { s with resp := some ⟨.faulted, s.ck.err⟩ }) ∧
      (∀ (rn : Byte) (imm : Word), 0x10 ≤ rn.toNat → rn.toNat ≤ 0x1A →
        exec (.wrr rn imm) s = .next (refuse .eAccess s))) ∧
    (s.px.phase = .fault →
      (∀ i : Instr, workOf i = some .px → i.wf = true →
        exec i s = .next { s with resp := some ⟨.faulted, s.px.err⟩ }) ∧
      (∀ (rn : Byte) (imm : Word), 0x20 ≤ rn.toNat → rn.toNat ≤ 0x30 →
        exec (.wrr rn imm) s = .next (refuse .eAccess s)))

/-- R206: only its RESET takes a unit out of phase FAULT, and nothing but the hardware reset otherwise; until then its error
register keeps the first fault's code. -/
def Obligations.OnlyResetLeavesFault : Prop :=
  ∀ (s t : State), step s = .next t → (∀ rest, s.inbox ≠ .reset :: rest) →
    (s.ck.phase = .fault → (∀ w rest, s.inbox = .command w :: rest → decode w ≠ .command .ckReset) →
      t.ck = s.ck ∧ t.po = s.po) ∧
    (s.px.phase = .fault → (∀ w rest, s.inbox = .command w :: rest → decode w ≠ .command .pxReset) →
      t.px = s.px ∧ t.pix = s.pix)

/-- R23: the fault log after a command is the log before it with exactly the bit of the error the command answered, if it
answered one; no command clears a bit. -/
def Obligations.FaultLogRecordsEveryError : Prop :=
  ∀ (i : Instr) (s t : State), exec i s = .next t →
    ∃ r : Response, t.resp = some r ∧
      t.faultlog = (match r.code with
        | .error e => s.faultlog ||| 1#32 <<< (e.code.toNat - 16)
        | _ => s.faultlog)

/-- R209 and R84: a command that answers an error has done nothing but record it, in VALUE 0, whichever command it is;
PX.RUN alone keeps the rows before the failing one: those rows lead to a running state, and its next PX.ROW is the one that
faults. -/
def Obligations.ErrorsChangeNothingElse : Prop :=
  ∀ (i : Instr) (s t : State) (e : ErrCode) (v : Word), exec i s = .next t → t.resp = some ⟨.error e, v⟩ →
    v = 0#32 ∧ (t = refuse e s ∨ t = raise .ck e s ∨ t = raise .px e s ∨
      (i = .pxRun ∧ ∃ (k : Nat) (u : State), execRows k s = .next u ∧ u.px.phase = .run ∧
        exec .pxRow u = .next t ∧ t = raise .px e u))

/-- R2: the units share nothing but the port and the fault log. A CK command leaves unit PX and its spaces as they are, a
PX command unit CK and its spaces; no command writes an input space, the parameter, or the host's further actions. -/
def Obligations.UnitsShareNothing : Prop :=
  ∀ (i : Instr) (s t : State), exec i s = .next t →
    t.cks = s.cks ∧ t.sls = s.sls ∧ t.rowmax = s.rowmax ∧ t.inbox = s.inbox ∧
    (workOf i = some .ck ∨ i = .ckReset →
      t.px = s.px ∧ t.pix = s.pix ∧ t.freeCount = s.freeCount) ∧
    (workOf i = some .px ∨ i = .pxReset → t.ck = s.ck ∧ t.po = s.po)

/-- R209 and R214: what a command does in one unit does not depend on the other. Two states that agree on unit CK, CKS and
PO give the same CK result and response. -/
def Obligations.CkSeesOnlyItsOwnUnit : Prop :=
  ∀ (i : Instr) (s s' t t' : State), workOf i = some .ck → s.ck = s'.ck → s.cks = s'.cks → s.po = s'.po →
    exec i s = .next t → exec i s' = .next t' → t.ck = t'.ck ∧ t.po = t'.po ∧ t.resp = t'.resp

/-- R64 and I5: a read of a cell no PX.ROW has written since PX.START is a fault of the reader; after a PX.START that
answered OK that is every cell. -/
def Obligations.UnwrittenPixelIsAFaultOfTheReader : Prop :=
  ∀ (s t : State) (idx : Nat),
    (s.pix.read idx = none → readPix s idx = .error (.pixUnwritten idx)) ∧
    (∀ c, s.pix.read idx = some c → readPix s idx = .ok c) ∧
    (exec .pxStart s = .next t → t.resp = some ⟨.ok, 0#32⟩ →
      readPix t idx = .error (.pixUnwritten idx))

/-- Every step answers a next state: no word and no data ends a run. -/
def Obligations.EveryStepAnswers : Prop :=
  ∀ s : State, ∃ t, step s = .next t

/-- The state after reset is a legal state, for every legal value of ROWMAX (log 1). -/
def Obligations.ResetIsLegal : Prop :=
  Inv State.reset ∧ ∀ p : Word, p ≠ 0#32 → Inv (State.resetWith p)

/-- Every step keeps a legal state legal: the spaces canonical, PO_POS the count of PO, the reserved bits of the fault log
0, the error registers and phases in step with the log, the budget within the declared length, the pass registers those
of a non-empty pass of an accepted configuration. -/
def Obligations.EveryStepKeepsTheStateLegal : Prop :=
  ∀ s t : State, Inv s → step s = .next t → Inv t

/-- While PX runs, PIX holds exactly the pixels of the rows decoded so far; every command keeps this, and no other cell is
ever written. -/
def Obligations.EveryCommandKeepsThePixelProgress : Prop :=
  ∀ (i : Instr) (s t : State), Inv s → PixProgress s → exec i s = .next t → PixProgress t

/-- R163 and R64: when a command completes the image, every index 0 .. W*H-1 of PIX is written and no other is. -/
def Obligations.DoneMeansEveryPixelIsWritten : Prop :=
  ∀ (i : Instr) (s t : State), Inv s → PixProgress s → s.px.phase = .run → exec i s = .next t → t.px.phase = .done →
    ∀ idx, (t.pix.read idx).isSome = true ↔ idx < s.px.width.toNat * s.px.height.toNat
end

