-- ==== Sys2Proof/Laws/State.lean ====
section
/-! SUPPORT. One lemma for each field of State and each named update, so that no proof unfolds a record update. -/

namespace Sys2Proof.Machine

variable (s : State)

/-! ### respond (R15) -/

@[simp] theorem respond_faultlog (c : RespCode) (v : Word) : (respond c v s).faultlog = s.faultlog := rfl
@[simp] theorem respond_rowmax (c : RespCode) (v : Word) : (respond c v s).rowmax = s.rowmax := rfl
@[simp] theorem respond_ck (c : RespCode) (v : Word) : (respond c v s).ck = s.ck := rfl
@[simp] theorem respond_px (c : RespCode) (v : Word) : (respond c v s).px = s.px := rfl
@[simp] theorem respond_cks (c : RespCode) (v : Word) : (respond c v s).cks = s.cks := rfl
@[simp] theorem respond_sls (c : RespCode) (v : Word) : (respond c v s).sls = s.sls := rfl
@[simp] theorem respond_po (c : RespCode) (v : Word) : (respond c v s).po = s.po := rfl
@[simp] theorem respond_pix (c : RespCode) (v : Word) : (respond c v s).pix = s.pix := rfl
@[simp] theorem respond_resp (c : RespCode) (v : Word) : (respond c v s).resp = some ⟨c, v⟩ := rfl
@[simp] theorem respond_inbox (c : RespCode) (v : Word) : (respond c v s).inbox = s.inbox := rfl
@[simp] theorem respond_freeCount (c : RespCode) (v : Word) : (respond c v s).freeCount = s.freeCount := rfl

/-! ### logError (R23) -/

@[simp] theorem logError_faultlog (e : ErrCode) : (logError e s).faultlog = setLogBit s.faultlog e := rfl
@[simp] theorem logError_rowmax (e : ErrCode) : (logError e s).rowmax = s.rowmax := rfl
@[simp] theorem logError_ck (e : ErrCode) : (logError e s).ck = s.ck := rfl
@[simp] theorem logError_px (e : ErrCode) : (logError e s).px = s.px := rfl
@[simp] theorem logError_cks (e : ErrCode) : (logError e s).cks = s.cks := rfl
@[simp] theorem logError_sls (e : ErrCode) : (logError e s).sls = s.sls := rfl
@[simp] theorem logError_po (e : ErrCode) : (logError e s).po = s.po := rfl
@[simp] theorem logError_pix (e : ErrCode) : (logError e s).pix = s.pix := rfl
@[simp] theorem logError_resp (e : ErrCode) : (logError e s).resp = s.resp := rfl
@[simp] theorem logError_inbox (e : ErrCode) : (logError e s).inbox = s.inbox := rfl
@[simp] theorem logError_freeCount (e : ErrCode) : (logError e s).freeCount = s.freeCount := rfl

/-! ### refuse (R203) -/

@[simp] theorem refuse_faultlog (e : ErrCode) : (refuse e s).faultlog = setLogBit s.faultlog e := rfl
@[simp] theorem refuse_rowmax (e : ErrCode) : (refuse e s).rowmax = s.rowmax := rfl
@[simp] theorem refuse_ck (e : ErrCode) : (refuse e s).ck = s.ck := rfl
@[simp] theorem refuse_px (e : ErrCode) : (refuse e s).px = s.px := rfl
@[simp] theorem refuse_cks (e : ErrCode) : (refuse e s).cks = s.cks := rfl
@[simp] theorem refuse_sls (e : ErrCode) : (refuse e s).sls = s.sls := rfl
@[simp] theorem refuse_po (e : ErrCode) : (refuse e s).po = s.po := rfl
@[simp] theorem refuse_pix (e : ErrCode) : (refuse e s).pix = s.pix := rfl
@[simp] theorem refuse_resp (e : ErrCode) : (refuse e s).resp = some ⟨.error e, 0#32⟩ := rfl
@[simp] theorem refuse_inbox (e : ErrCode) : (refuse e s).inbox = s.inbox := rfl
@[simp] theorem refuse_freeCount (e : ErrCode) : (refuse e s).freeCount = s.freeCount := rfl

/-! ### raise .ck (R204) -/

@[simp] theorem raise_ck_faultlog (e : ErrCode) : (raise .ck e s).faultlog = setLogBit s.faultlog e := rfl
@[simp] theorem raise_ck_rowmax (e : ErrCode) : (raise .ck e s).rowmax = s.rowmax := rfl
@[simp] theorem raise_ck_ck (e : ErrCode) : (raise .ck e s).ck = { s.ck with phase := .fault, err := e.word } := rfl
@[simp] theorem raise_ck_px (e : ErrCode) : (raise .ck e s).px = s.px := rfl
@[simp] theorem raise_ck_cks (e : ErrCode) : (raise .ck e s).cks = s.cks := rfl
@[simp] theorem raise_ck_sls (e : ErrCode) : (raise .ck e s).sls = s.sls := rfl
@[simp] theorem raise_ck_po (e : ErrCode) : (raise .ck e s).po = s.po := rfl
@[simp] theorem raise_ck_pix (e : ErrCode) : (raise .ck e s).pix = s.pix := rfl
@[simp] theorem raise_ck_resp (e : ErrCode) : (raise .ck e s).resp = some ⟨.error e, 0#32⟩ := rfl
@[simp] theorem raise_ck_inbox (e : ErrCode) : (raise .ck e s).inbox = s.inbox := rfl
@[simp] theorem raise_ck_freeCount (e : ErrCode) : (raise .ck e s).freeCount = s.freeCount := rfl

/-! ### raise .px (R204) -/

@[simp] theorem raise_px_faultlog (e : ErrCode) : (raise .px e s).faultlog = setLogBit s.faultlog e := rfl
@[simp] theorem raise_px_rowmax (e : ErrCode) : (raise .px e s).rowmax = s.rowmax := rfl
@[simp] theorem raise_px_ck (e : ErrCode) : (raise .px e s).ck = s.ck := rfl
@[simp] theorem raise_px_px (e : ErrCode) : (raise .px e s).px = { s.px with phase := .fault, err := e.word } := rfl
@[simp] theorem raise_px_cks (e : ErrCode) : (raise .px e s).cks = s.cks := rfl
@[simp] theorem raise_px_sls (e : ErrCode) : (raise .px e s).sls = s.sls := rfl
@[simp] theorem raise_px_po (e : ErrCode) : (raise .px e s).po = s.po := rfl
@[simp] theorem raise_px_pix (e : ErrCode) : (raise .px e s).pix = s.pix := rfl
@[simp] theorem raise_px_resp (e : ErrCode) : (raise .px e s).resp = some ⟨.error e, 0#32⟩ := rfl
@[simp] theorem raise_px_inbox (e : ErrCode) : (raise .px e s).inbox = s.inbox := rfl
@[simp] theorem raise_px_freeCount (e : ErrCode) : (raise .px e s).freeCount = s.freeCount := rfl

/-! ### answerFaulted .ck (R205) -/

@[simp] theorem answerFaulted_ck_faultlog : (answerFaulted .ck s).faultlog = s.faultlog := rfl
@[simp] theorem answerFaulted_ck_rowmax : (answerFaulted .ck s).rowmax = s.rowmax := rfl
@[simp] theorem answerFaulted_ck_ck : (answerFaulted .ck s).ck = s.ck := rfl
@[simp] theorem answerFaulted_ck_px : (answerFaulted .ck s).px = s.px := rfl
@[simp] theorem answerFaulted_ck_cks : (answerFaulted .ck s).cks = s.cks := rfl
@[simp] theorem answerFaulted_ck_sls : (answerFaulted .ck s).sls = s.sls := rfl
@[simp] theorem answerFaulted_ck_po : (answerFaulted .ck s).po = s.po := rfl
@[simp] theorem answerFaulted_ck_pix : (answerFaulted .ck s).pix = s.pix := rfl
@[simp] theorem answerFaulted_ck_resp : (answerFaulted .ck s).resp = some ⟨.faulted, s.ck.err⟩ := rfl
@[simp] theorem answerFaulted_ck_inbox : (answerFaulted .ck s).inbox = s.inbox := rfl
@[simp] theorem answerFaulted_ck_freeCount : (answerFaulted .ck s).freeCount = s.freeCount := rfl

/-! ### answerFaulted .px (R205) -/

@[simp] theorem answerFaulted_px_faultlog : (answerFaulted .px s).faultlog = s.faultlog := rfl
@[simp] theorem answerFaulted_px_rowmax : (answerFaulted .px s).rowmax = s.rowmax := rfl
@[simp] theorem answerFaulted_px_ck : (answerFaulted .px s).ck = s.ck := rfl
@[simp] theorem answerFaulted_px_px : (answerFaulted .px s).px = s.px := rfl
@[simp] theorem answerFaulted_px_cks : (answerFaulted .px s).cks = s.cks := rfl
@[simp] theorem answerFaulted_px_sls : (answerFaulted .px s).sls = s.sls := rfl
@[simp] theorem answerFaulted_px_po : (answerFaulted .px s).po = s.po := rfl
@[simp] theorem answerFaulted_px_pix : (answerFaulted .px s).pix = s.pix := rfl
@[simp] theorem answerFaulted_px_resp : (answerFaulted .px s).resp = some ⟨.faulted, s.px.err⟩ := rfl
@[simp] theorem answerFaulted_px_inbox : (answerFaulted .px s).inbox = s.inbox := rfl
@[simp] theorem answerFaulted_px_freeCount : (answerFaulted .px s).freeCount = s.freeCount := rfl

/-! ### poAppend (R63) -/

@[simp] theorem poAppend_faultlog (bs : List Byte) : (poAppend bs s).faultlog = s.faultlog := rfl
@[simp] theorem poAppend_rowmax (bs : List Byte) : (poAppend bs s).rowmax = s.rowmax := rfl
@[simp] theorem poAppend_ck (bs : List Byte) :
    (poAppend bs s).ck =
      { s.ck with poPos := s.ck.poPos + BitVec.ofNat 32 bs.length } := rfl
@[simp] theorem poAppend_px (bs : List Byte) : (poAppend bs s).px = s.px := rfl
@[simp] theorem poAppend_cks (bs : List Byte) : (poAppend bs s).cks = s.cks := rfl
@[simp] theorem poAppend_sls (bs : List Byte) : (poAppend bs s).sls = s.sls := rfl
@[simp] theorem poAppend_po (bs : List Byte) : (poAppend bs s).po = s.po ++ bs := rfl
@[simp] theorem poAppend_pix (bs : List Byte) : (poAppend bs s).pix = s.pix := rfl
@[simp] theorem poAppend_resp (bs : List Byte) : (poAppend bs s).resp = s.resp := rfl
@[simp] theorem poAppend_inbox (bs : List Byte) : (poAppend bs s).inbox = s.inbox := rfl
@[simp] theorem poAppend_freeCount (bs : List Byte) : (poAppend bs s).freeCount = s.freeCount := rfl

/-! ### resetCk (R118) -/

@[simp] theorem resetCk_faultlog : (resetCk s).faultlog = s.faultlog := rfl
@[simp] theorem resetCk_rowmax : (resetCk s).rowmax = s.rowmax := rfl
@[simp] theorem resetCk_ck : (resetCk s).ck = CkUnit.reset := rfl
@[simp] theorem resetCk_px : (resetCk s).px = s.px := rfl
@[simp] theorem resetCk_cks : (resetCk s).cks = s.cks := rfl
@[simp] theorem resetCk_sls : (resetCk s).sls = s.sls := rfl
@[simp] theorem resetCk_po : (resetCk s).po = [] := rfl
@[simp] theorem resetCk_pix : (resetCk s).pix = s.pix := rfl
@[simp] theorem resetCk_resp : (resetCk s).resp = s.resp := rfl
@[simp] theorem resetCk_inbox : (resetCk s).inbox = s.inbox := rfl
@[simp] theorem resetCk_freeCount : (resetCk s).freeCount = s.freeCount := rfl

/-! ### resetPx (R185) -/

@[simp] theorem resetPx_faultlog : (resetPx s).faultlog = s.faultlog := rfl
@[simp] theorem resetPx_rowmax : (resetPx s).rowmax = s.rowmax := rfl
@[simp] theorem resetPx_ck : (resetPx s).ck = s.ck := rfl
@[simp] theorem resetPx_px :
    (resetPx s).px =
      PxUnit.resetWith (freeLine s.rowmax s.freeCount) (freeLine s.rowmax (s.freeCount + s.rowmax.toNat)) := rfl
@[simp] theorem resetPx_cks : (resetPx s).cks = s.cks := rfl
@[simp] theorem resetPx_sls : (resetPx s).sls = s.sls := rfl
@[simp] theorem resetPx_po : (resetPx s).po = s.po := rfl
@[simp] theorem resetPx_pix : (resetPx s).pix = s.pix := rfl
@[simp] theorem resetPx_resp : (resetPx s).resp = s.resp := rfl
@[simp] theorem resetPx_inbox : (resetPx s).inbox = s.inbox := rfl
@[simp] theorem resetPx_freeCount : (resetPx s).freeCount = s.freeCount + 2 * s.rowmax.toNat := rfl

/-! ### takeAction (log 6) -/

@[simp] theorem takeAction_faultlog (r : List HostAction) : (takeAction r s).faultlog = s.faultlog := rfl
@[simp] theorem takeAction_rowmax (r : List HostAction) : (takeAction r s).rowmax = s.rowmax := rfl
@[simp] theorem takeAction_ck (r : List HostAction) : (takeAction r s).ck = s.ck := rfl
@[simp] theorem takeAction_px (r : List HostAction) : (takeAction r s).px = s.px := rfl
@[simp] theorem takeAction_cks (r : List HostAction) : (takeAction r s).cks = s.cks := rfl
@[simp] theorem takeAction_sls (r : List HostAction) : (takeAction r s).sls = s.sls := rfl
@[simp] theorem takeAction_po (r : List HostAction) : (takeAction r s).po = s.po := rfl
@[simp] theorem takeAction_pix (r : List HostAction) : (takeAction r s).pix = s.pix := rfl
@[simp] theorem takeAction_resp (r : List HostAction) : (takeAction r s).resp = s.resp := rfl
@[simp] theorem takeAction_inbox (r : List HostAction) : (takeAction r s).inbox = r := rfl
@[simp] theorem takeAction_freeCount (r : List HostAction) : (takeAction r s).freeCount = s.freeCount := rfl

/-! ### presentWord (log 6) -/

@[simp] theorem presentWord_faultlog (w : CmdWord) : (presentWord w s).faultlog = s.faultlog := rfl
@[simp] theorem presentWord_rowmax (w : CmdWord) : (presentWord w s).rowmax = s.rowmax := rfl
@[simp] theorem presentWord_ck (w : CmdWord) : (presentWord w s).ck = s.ck := rfl
@[simp] theorem presentWord_px (w : CmdWord) : (presentWord w s).px = s.px := rfl
@[simp] theorem presentWord_cks (w : CmdWord) : (presentWord w s).cks = s.cks := rfl
@[simp] theorem presentWord_sls (w : CmdWord) : (presentWord w s).sls = s.sls := rfl
@[simp] theorem presentWord_po (w : CmdWord) : (presentWord w s).po = s.po := rfl
@[simp] theorem presentWord_pix (w : CmdWord) : (presentWord w s).pix = s.pix := rfl
@[simp] theorem presentWord_resp (w : CmdWord) : (presentWord w s).resp = s.resp := rfl
@[simp] theorem presentWord_inbox (w : CmdWord) : (presentWord w s).inbox = .command w :: s.inbox := rfl
@[simp] theorem presentWord_freeCount (w : CmdWord) : (presentWord w s).freeCount = s.freeCount := rfl

/-! ### hostPutCks (R240) -/

@[simp] theorem hostPutCks_faultlog (a : Word) (b : Byte) : (hostPutCks a b s).faultlog = s.faultlog := rfl
@[simp] theorem hostPutCks_rowmax (a : Word) (b : Byte) : (hostPutCks a b s).rowmax = s.rowmax := rfl
@[simp] theorem hostPutCks_ck (a : Word) (b : Byte) : (hostPutCks a b s).ck = s.ck := rfl
@[simp] theorem hostPutCks_px (a : Word) (b : Byte) : (hostPutCks a b s).px = s.px := rfl
@[simp] theorem hostPutCks_cks (a : Word) (b : Byte) : (hostPutCks a b s).cks = s.cks.write a.toNat b := rfl
@[simp] theorem hostPutCks_sls (a : Word) (b : Byte) : (hostPutCks a b s).sls = s.sls := rfl
@[simp] theorem hostPutCks_po (a : Word) (b : Byte) : (hostPutCks a b s).po = s.po := rfl
@[simp] theorem hostPutCks_pix (a : Word) (b : Byte) : (hostPutCks a b s).pix = s.pix := rfl
@[simp] theorem hostPutCks_resp (a : Word) (b : Byte) : (hostPutCks a b s).resp = s.resp := rfl
@[simp] theorem hostPutCks_inbox (a : Word) (b : Byte) : (hostPutCks a b s).inbox = s.inbox := rfl
@[simp] theorem hostPutCks_freeCount (a : Word) (b : Byte) : (hostPutCks a b s).freeCount = s.freeCount := rfl

/-! ### hostPutSls (R240) -/

@[simp] theorem hostPutSls_faultlog (a : Word) (b : Byte) : (hostPutSls a b s).faultlog = s.faultlog := rfl
@[simp] theorem hostPutSls_rowmax (a : Word) (b : Byte) : (hostPutSls a b s).rowmax = s.rowmax := rfl
@[simp] theorem hostPutSls_ck (a : Word) (b : Byte) : (hostPutSls a b s).ck = s.ck := rfl
@[simp] theorem hostPutSls_px (a : Word) (b : Byte) : (hostPutSls a b s).px = s.px := rfl
@[simp] theorem hostPutSls_cks (a : Word) (b : Byte) : (hostPutSls a b s).cks = s.cks := rfl
@[simp] theorem hostPutSls_sls (a : Word) (b : Byte) : (hostPutSls a b s).sls = s.sls.write a.toNat b := rfl
@[simp] theorem hostPutSls_po (a : Word) (b : Byte) : (hostPutSls a b s).po = s.po := rfl
@[simp] theorem hostPutSls_pix (a : Word) (b : Byte) : (hostPutSls a b s).pix = s.pix := rfl
@[simp] theorem hostPutSls_resp (a : Word) (b : Byte) : (hostPutSls a b s).resp = s.resp := rfl
@[simp] theorem hostPutSls_inbox (a : Word) (b : Byte) : (hostPutSls a b s).inbox = s.inbox := rfl
@[simp] theorem hostPutSls_freeCount (a : Word) (b : Byte) : (hostPutSls a b s).freeCount = s.freeCount := rfl

/-! ### ckConsume (R117) -/

@[simp] theorem ckConsume_faultlog (n : Nat) : (ckConsume n s).faultlog = s.faultlog := rfl
@[simp] theorem ckConsume_rowmax (n : Nat) : (ckConsume n s).rowmax = s.rowmax := rfl
@[simp] theorem ckConsume_ck (n : Nat) :
    (ckConsume n s).ck =
      { s.ck with crcacc := crcBytes s.ck.crcacc (ckPayload n s), pos := s.ck.pos + BitVec.ofNat 32 n, remain := s.ck.remain - BitVec.ofNat 32 n } := rfl
@[simp] theorem ckConsume_px (n : Nat) : (ckConsume n s).px = s.px := rfl
@[simp] theorem ckConsume_cks (n : Nat) : (ckConsume n s).cks = s.cks := rfl
@[simp] theorem ckConsume_sls (n : Nat) : (ckConsume n s).sls = s.sls := rfl
@[simp] theorem ckConsume_po (n : Nat) : (ckConsume n s).po = s.po := rfl
@[simp] theorem ckConsume_pix (n : Nat) : (ckConsume n s).pix = s.pix := rfl
@[simp] theorem ckConsume_resp (n : Nat) : (ckConsume n s).resp = s.resp := rfl
@[simp] theorem ckConsume_inbox (n : Nat) : (ckConsume n s).inbox = s.inbox := rfl
@[simp] theorem ckConsume_freeCount (n : Nat) : (ckConsume n s).freeCount = s.freeCount := rfl

/-! ### setStrnul (R125) -/

@[simp] theorem setStrnul_faultlog (b : Bool) : (setStrnul b s).faultlog = s.faultlog := rfl
@[simp] theorem setStrnul_rowmax (b : Bool) : (setStrnul b s).rowmax = s.rowmax := rfl
@[simp] theorem setStrnul_ck (b : Bool) : (setStrnul b s).ck = { s.ck with strnul := b } := rfl
@[simp] theorem setStrnul_px (b : Bool) : (setStrnul b s).px = s.px := rfl
@[simp] theorem setStrnul_cks (b : Bool) : (setStrnul b s).cks = s.cks := rfl
@[simp] theorem setStrnul_sls (b : Bool) : (setStrnul b s).sls = s.sls := rfl
@[simp] theorem setStrnul_po (b : Bool) : (setStrnul b s).po = s.po := rfl
@[simp] theorem setStrnul_pix (b : Bool) : (setStrnul b s).pix = s.pix := rfl
@[simp] theorem setStrnul_resp (b : Bool) : (setStrnul b s).resp = s.resp := rfl
@[simp] theorem setStrnul_inbox (b : Bool) : (setStrnul b s).inbox = s.inbox := rfl
@[simp] theorem setStrnul_freeCount (b : Bool) : (setStrnul b s).freeCount = s.freeCount := rfl

/-! ### unfilterRow (R148) -/

@[simp] theorem unfilterRow_faultlog (f : Filter) (x : List Byte) : (unfilterRow f x s).faultlog = s.faultlog := rfl
@[simp] theorem unfilterRow_rowmax (f : Filter) (x : List Byte) : (unfilterRow f x s).rowmax = s.rowmax := rfl
@[simp] theorem unfilterRow_ck (f : Filter) (x : List Byte) : (unfilterRow f x s).ck = s.ck := rfl
@[simp] theorem unfilterRow_px (f : Filter) (x : List Byte) :
    (unfilterRow f x s).px =
      { s.px with cur := overlay (unfilter f s.px.bpp.toNat s.px.prev x) s.px.cur } := rfl
@[simp] theorem unfilterRow_cks (f : Filter) (x : List Byte) : (unfilterRow f x s).cks = s.cks := rfl
@[simp] theorem unfilterRow_sls (f : Filter) (x : List Byte) : (unfilterRow f x s).sls = s.sls := rfl
@[simp] theorem unfilterRow_po (f : Filter) (x : List Byte) : (unfilterRow f x s).po = s.po := rfl
@[simp] theorem unfilterRow_pix (f : Filter) (x : List Byte) : (unfilterRow f x s).pix = s.pix := rfl
@[simp] theorem unfilterRow_resp (f : Filter) (x : List Byte) : (unfilterRow f x s).resp = s.resp := rfl
@[simp] theorem unfilterRow_inbox (f : Filter) (x : List Byte) : (unfilterRow f x s).inbox = s.inbox := rfl
@[simp] theorem unfilterRow_freeCount (f : Filter) (x : List Byte) :
    (unfilterRow f x s).freeCount =
      s.freeCount := rfl

/-! ### keepRow (R187) -/

@[simp] theorem keepRow_faultlog : (keepRow s).faultlog = s.faultlog := rfl
@[simp] theorem keepRow_rowmax : (keepRow s).rowmax = s.rowmax := rfl
@[simp] theorem keepRow_ck : (keepRow s).ck = s.ck := rfl
@[simp] theorem keepRow_px :
    (keepRow s).px =
      { s.px with prev := overlay (s.px.cur.take s.px.rb.toNat) s.px.prev } := rfl
@[simp] theorem keepRow_cks : (keepRow s).cks = s.cks := rfl
@[simp] theorem keepRow_sls : (keepRow s).sls = s.sls := rfl
@[simp] theorem keepRow_po : (keepRow s).po = s.po := rfl
@[simp] theorem keepRow_pix : (keepRow s).pix = s.pix := rfl
@[simp] theorem keepRow_resp : (keepRow s).resp = s.resp := rfl
@[simp] theorem keepRow_inbox : (keepRow s).inbox = s.inbox := rfl
@[simp] theorem keepRow_freeCount : (keepRow s).freeCount = s.freeCount := rfl

/-! ### unpackRow (R179) -/

@[simp] theorem unpackRow_faultlog : (unpackRow s).faultlog = s.faultlog := rfl
@[simp] theorem unpackRow_rowmax : (unpackRow s).rowmax = s.rowmax := rfl
@[simp] theorem unpackRow_ck : (unpackRow s).ck = s.ck := rfl
@[simp] theorem unpackRow_px : (unpackRow s).px = s.px := rfl
@[simp] theorem unpackRow_cks : (unpackRow s).cks = s.cks := rfl
@[simp] theorem unpackRow_sls : (unpackRow s).sls = s.sls := rfl
@[simp] theorem unpackRow_po : (unpackRow s).po = s.po := rfl
@[simp] theorem unpackRow_pix : (unpackRow s).pix = writeCells (pxIndex s) (pxCell s) 0 s.px.pw.toNat s.pix := rfl
@[simp] theorem unpackRow_resp : (unpackRow s).resp = s.resp := rfl
@[simp] theorem unpackRow_inbox : (unpackRow s).inbox = s.inbox := rfl
@[simp] theorem unpackRow_freeCount : (unpackRow s).freeCount = s.freeCount := rfl

/-! ### advanceRow (R187) -/

@[simp] theorem advanceRow_faultlog : (advanceRow s).faultlog = s.faultlog := rfl
@[simp] theorem advanceRow_rowmax : (advanceRow s).rowmax = s.rowmax := rfl
@[simp] theorem advanceRow_ck : (advanceRow s).ck = s.ck := rfl
@[simp] theorem advanceRow_px :
    (advanceRow s).px =
      { s.px with pos := s.px.pos + (1#32 + s.px.rb), row := s.px.row + 1#32 } := rfl
@[simp] theorem advanceRow_cks : (advanceRow s).cks = s.cks := rfl
@[simp] theorem advanceRow_sls : (advanceRow s).sls = s.sls := rfl
@[simp] theorem advanceRow_po : (advanceRow s).po = s.po := rfl
@[simp] theorem advanceRow_pix : (advanceRow s).pix = s.pix := rfl
@[simp] theorem advanceRow_resp : (advanceRow s).resp = s.resp := rfl
@[simp] theorem advanceRow_inbox : (advanceRow s).inbox = s.inbox := rfl
@[simp] theorem advanceRow_freeCount : (advanceRow s).freeCount = s.freeCount := rfl

/-! ### setPass (R191) -/

@[simp] theorem setPass_faultlog (p : Nat) : (setPass p s).faultlog = s.faultlog := rfl
@[simp] theorem setPass_rowmax (p : Nat) : (setPass p s).rowmax = s.rowmax := rfl
@[simp] theorem setPass_ck (p : Nat) : (setPass p s).ck = s.ck := rfl
@[simp] theorem setPass_px (p : Nat) :
    (setPass p s).px =
      { s.px with pass := BitVec.ofNat 32 p, row := 0#32, pw := BitVec.ofNat 32 (pxPassDim s p).1, ph := BitVec.ofNat 32 (pxPassDim s p).2, rb := BitVec.ofNat 32 (rowBytes (pxPassDim s p).1 s.px.chans.toNat s.px.depth.toNat), prev := zeroLine s.rowmax } := rfl
@[simp] theorem setPass_cks (p : Nat) : (setPass p s).cks = s.cks := rfl
@[simp] theorem setPass_sls (p : Nat) : (setPass p s).sls = s.sls := rfl
@[simp] theorem setPass_po (p : Nat) : (setPass p s).po = s.po := rfl
@[simp] theorem setPass_pix (p : Nat) : (setPass p s).pix = s.pix := rfl
@[simp] theorem setPass_resp (p : Nat) : (setPass p s).resp = s.resp := rfl
@[simp] theorem setPass_inbox (p : Nat) : (setPass p s).inbox = s.inbox := rfl
@[simp] theorem setPass_freeCount (p : Nat) : (setPass p s).freeCount = s.freeCount := rfl

/-! ### Updates that split on their argument -/

@[simp] theorem writeReg_faultlog (r : Reg) (v : Word) : (writeReg r v s).faultlog = s.faultlog := by cases r <;> rfl
@[simp] theorem writeReg_rowmax (r : Reg) (v : Word) : (writeReg r v s).rowmax = s.rowmax := by cases r <;> rfl
@[simp] theorem writeReg_cks (r : Reg) (v : Word) : (writeReg r v s).cks = s.cks := by cases r <;> rfl
@[simp] theorem writeReg_sls (r : Reg) (v : Word) : (writeReg r v s).sls = s.sls := by cases r <;> rfl
@[simp] theorem writeReg_po (r : Reg) (v : Word) : (writeReg r v s).po = s.po := by cases r <;> rfl
@[simp] theorem writeReg_pix (r : Reg) (v : Word) : (writeReg r v s).pix = s.pix := by cases r <;> rfl
@[simp] theorem writeReg_resp (r : Reg) (v : Word) : (writeReg r v s).resp = s.resp := by cases r <;> rfl
@[simp] theorem writeReg_inbox (r : Reg) (v : Word) : (writeReg r v s).inbox = s.inbox := by cases r <;> rfl
@[simp] theorem writeReg_freeCount (r : Reg) (v : Word) : (writeReg r v s).freeCount = s.freeCount := by cases r <;> rfl

@[simp] theorem endPass_faultlog : (endPass s).faultlog = s.faultlog := by unfold endPass; (repeat' split) <;> rfl
@[simp] theorem endPass_rowmax : (endPass s).rowmax = s.rowmax := by unfold endPass; (repeat' split) <;> rfl
@[simp] theorem endPass_ck : (endPass s).ck = s.ck := by unfold endPass; (repeat' split) <;> rfl
@[simp] theorem endPass_cks : (endPass s).cks = s.cks := by unfold endPass; (repeat' split) <;> rfl
@[simp] theorem endPass_sls : (endPass s).sls = s.sls := by unfold endPass; (repeat' split) <;> rfl
@[simp] theorem endPass_po : (endPass s).po = s.po := by unfold endPass; (repeat' split) <;> rfl
@[simp] theorem endPass_pix : (endPass s).pix = s.pix := by unfold endPass; (repeat' split) <;> rfl
@[simp] theorem endPass_resp : (endPass s).resp = s.resp := by unfold endPass; (repeat' split) <;> rfl
@[simp] theorem endPass_inbox : (endPass s).inbox = s.inbox := by unfold endPass; (repeat' split) <;> rfl
@[simp] theorem endPass_freeCount : (endPass s).freeCount = s.freeCount := by unfold endPass; (repeat' split) <;> rfl

@[simp] theorem decodeRow_faultlog (f : Filter) : (decodeRow f s).faultlog = s.faultlog := by simp [decodeRow]
@[simp] theorem decodeRow_rowmax (f : Filter) : (decodeRow f s).rowmax = s.rowmax := by simp [decodeRow]
@[simp] theorem decodeRow_ck (f : Filter) : (decodeRow f s).ck = s.ck := by simp [decodeRow]
@[simp] theorem decodeRow_cks (f : Filter) : (decodeRow f s).cks = s.cks := by simp [decodeRow]
@[simp] theorem decodeRow_sls (f : Filter) : (decodeRow f s).sls = s.sls := by simp [decodeRow]
@[simp] theorem decodeRow_po (f : Filter) : (decodeRow f s).po = s.po := by simp [decodeRow]
@[simp] theorem decodeRow_resp (f : Filter) : (decodeRow f s).resp = s.resp := by simp [decodeRow]
@[simp] theorem decodeRow_inbox (f : Filter) : (decodeRow f s).inbox = s.inbox := by simp [decodeRow]
@[simp] theorem decodeRow_freeCount (f : Filter) : (decodeRow f s).freeCount = s.freeCount := by simp [decodeRow]

end Sys2Proof.Machine
end

