-- ==== Sys2Proof/Laws/Commands.lean ====
section
/-! SUPPORT. The order of tests, said once: what a CK command, a PX command and the preamble of the sized reads answer, and
that every command, and every sequence of commands, answers a next state. -/

namespace Sys2Proof.Machine

variable {s : State} {body : State → State}

/-! ## Steps 2 and 3 of R90 -/

theorem ckCommand_fault {p : CkPhase} (h : s.ck.phase = .fault) : ckCommand p body s = answerFaulted .ck s := by
  simp [ckCommand, h]

theorem ckCommand_wrongPhase {p : CkPhase} (h : s.ck.phase ≠ .fault) (hp : s.ck.phase ≠ p) :
    ckCommand p body s = refuse .eSeq s := by
  simp [ckCommand, h, hp]

theorem ckCommand_runs {p : CkPhase} (h : s.ck.phase ≠ .fault) (hp : s.ck.phase = p) :
    ckCommand p body s = body s := by
  subst hp
  simp [ckCommand, h]

/-- All a CK command can do. -/
theorem ckCommand_cases (p : CkPhase) (body : State → State) (s : State) :
    (s.ck.phase = .fault ∧ ckCommand p body s = answerFaulted .ck s) ∨
    (s.ck.phase ≠ .fault ∧ s.ck.phase ≠ p ∧ ckCommand p body s = refuse .eSeq s) ∨
    (s.ck.phase ≠ .fault ∧ s.ck.phase = p ∧ ckCommand p body s = body s) := by
  by_cases h : s.ck.phase = .fault
  · exact .inl ⟨h, ckCommand_fault h⟩
  · by_cases hp : s.ck.phase = p
    · exact .inr (.inr ⟨h, hp, ckCommand_runs h hp⟩)
    · exact .inr (.inl ⟨h, hp, ckCommand_wrongPhase h hp⟩)

theorem pxCommand_fault {l : List PxPhase} (h : s.px.phase = .fault) :
    pxCommand l body s = answerFaulted .px s := by
  simp [pxCommand, h]

theorem pxCommand_wrongPhase {l : List PxPhase} (h : s.px.phase ≠ .fault) (hp : s.px.phase ∉ l) :
    pxCommand l body s = refuse .eSeq s := by
  simp [pxCommand, h, hp]

theorem pxCommand_runs {l : List PxPhase} (h : s.px.phase ≠ .fault) (hp : s.px.phase ∈ l) :
    pxCommand l body s = body s := by
  simp [pxCommand, h, hp]

/-- All a PX command can do. -/
theorem pxCommand_cases (l : List PxPhase) (body : State → State) (s : State) :
    (s.px.phase = .fault ∧ pxCommand l body s = answerFaulted .px s) ∨
    (s.px.phase ≠ .fault ∧ s.px.phase ∉ l ∧ pxCommand l body s = refuse .eSeq s) ∨
    (s.px.phase ≠ .fault ∧ s.px.phase ∈ l ∧ pxCommand l body s = body s) := by
  by_cases h : s.px.phase = .fault
  · exact .inl ⟨h, pxCommand_fault h⟩
  · by_cases hp : s.px.phase ∈ l
    · exact .inr (.inr ⟨h, hp, pxCommand_runs h hp⟩)
    · exact .inr (.inl ⟨h, hp, pxCommand_wrongPhase h hp⟩)

/-! ## The preamble of the sized reads (R116) -/

theorem ckPre_budget {n : Nat} (h : s.ck.remain.toNat < n) : ckPre n body s = raise .ck .eBudget s := by
  simp [ckPre, h]

theorem ckPre_trunc {n : Nat} (h : n ≤ s.ck.remain.toNat) (ha : ckAvail s < n) :
    ckPre n body s = raise .ck .eTrunc s := by
  simp [ckPre, Nat.not_lt.mpr h, ha]

theorem ckPre_runs {n : Nat} (h : n ≤ s.ck.remain.toNat) (ha : n ≤ ckAvail s) : ckPre n body s = body s := by
  simp [ckPre, Nat.not_lt.mpr h, Nat.not_lt.mpr ha]

/-- All the preamble can do. -/
theorem ckPre_cases (n : Nat) (body : State → State) (s : State) :
    (s.ck.remain.toNat < n ∧ ckPre n body s = raise .ck .eBudget s) ∨
    (n ≤ s.ck.remain.toNat ∧ ckAvail s < n ∧ ckPre n body s = raise .ck .eTrunc s) ∨
    (n ≤ s.ck.remain.toNat ∧ n ≤ ckAvail s ∧ ckPre n body s = body s) := by
  by_cases h : s.ck.remain.toNat < n
  · exact .inl ⟨h, ckPre_budget h⟩
  · have h := Nat.not_lt.mp h
    by_cases ha : ckAvail s < n
    · exact .inr (.inl ⟨h, ha, ckPre_trunc h ha⟩)
    · exact .inr (.inr ⟨h, Nat.not_lt.mp ha, ckPre_runs h (Nat.not_lt.mp ha)⟩)

/-! ## Stream positions (R75) -/

/-- Within the available bytes the position does not wrap. -/
theorem ckPos_add {n : Nat} (h : n ≤ ckAvail s) (hn : 0 < n ∨ s.ck.pos.toNat + n < 2 ^ 32) :
    (s.ck.pos + BitVec.ofNat 32 n).toNat = s.ck.pos.toNat + n := by
  have h1 := s.ck.len.isLt
  unfold ckAvail at h
  simp only [BitVec.toNat_add, BitVec.toNat_ofNat]
  omega

theorem pxPos_add {n : Nat} (h : n ≤ pxAvail s) (hn : 0 < n) :
    (s.px.pos + BitVec.ofNat 32 n).toNat = s.px.pos.toNat + n := by
  have h1 := s.px.len.isLt
  unfold pxAvail at h
  simp only [BitVec.toNat_add, BitVec.toNat_ofNat]
  omega

/-! ## Every command answers -/

/-- The state a command answers. -/
theorem exec_next (i : Instr) (s : State) : ∃ t, exec i s = .next t := by
  cases i <;> simp only [exec, execNop, execRdr, execWrr, execCkReset, execCkOpen, execCkRd8, execCkRd16, execCkRd32,
    execCkRdn, execCkRdall, execCkRdstr, execCkFinish, execPxReset, execPxStart, execPxRow, execPxRun, execPxGeom] <;>
    first
    | exact ⟨_, rfl⟩
    | (split <;> exact ⟨_, rfl⟩)

/-! ## Commands one after the other (R70) -/

@[simp] theorem execAll_nil (s : State) : execAll [] s = .next s := rfl

theorem execAll_cons {i : Instr} {rest : List Instr} {s t : State} (h : exec i s = .next t) :
    execAll (i :: rest) s = execAll rest t := by simp only [execAll, h]

/-- The first command and then the others. -/
theorem execAll_cons_inv {i : Instr} {rest : List Instr} {s u : State} (h : execAll (i :: rest) s = .next u) :
    ∃ t, exec i s = .next t ∧ execAll rest t = .next u := by
  obtain ⟨t, ht⟩ := exec_next i s
  exact ⟨t, ht, execAll_cons ht ▸ h⟩

theorem execAll_next (l : List Instr) (s : State) : ∃ t, execAll l s = .next t := by
  induction l generalizing s with
  | nil => exact ⟨s, rfl⟩
  | cons i rest ih =>
    obtain ⟨t, ht⟩ := exec_next i s
    exact execAll_cons ht ▸ ih t

@[simp] theorem execRows_zero (s : State) : execRows 0 s = .next s := rfl

theorem execRows_succ {n : Nat} {s t : State} (h : exec .pxRow s = .next t) : execRows (n + 1) s = execRows n t :=
  execAll_cons h

end Sys2Proof.Machine
end

