-- ==== Sys2Proof/Laws/Memory.lean ====
section
/-! SUPPORT. The sparse lists behind CKS, SLS and PIX: a read after a write, the canonical form, equal contents are equal
data; the byte sequences the commands read. -/

namespace Sys2Proof.Machine

variable {α : Type}

/-! ## Keyed lists -/

theorem Assoc.lookup_insert_same (k : Nat) (v : α) (l : List (Nat × α)) :
    Assoc.lookup k (Assoc.insert k v l) = some v := by
  induction l with
  | nil => simp [Assoc.insert, Assoc.lookup]
  | cons c l ih =>
    obtain ⟨k', v'⟩ := c
    unfold Assoc.insert
    split
    · simp [Assoc.lookup]
    · split
      · simp [Assoc.lookup]
      · simp [Assoc.lookup, *]

theorem Assoc.lookup_insert_other {k j : Nat} (h : j ≠ k) (v : α) (l : List (Nat × α)) :
    Assoc.lookup j (Assoc.insert k v l) = Assoc.lookup j l := by
  induction l with
  | nil => simp [Assoc.insert, Assoc.lookup, h]
  | cons c l ih =>
    obtain ⟨k', v'⟩ := c
    unfold Assoc.insert
    split
    · simp [Assoc.lookup, h]
    · split
      · subst_vars; simp [Assoc.lookup, h]
      · simp [Assoc.lookup, ih]

theorem Assoc.lookup_erase_other {k j : Nat} (h : j ≠ k) (l : List (Nat × α)) :
    Assoc.lookup j (Assoc.erase k l) = Assoc.lookup j l := by
  induction l with
  | nil => rfl
  | cons c l ih =>
    obtain ⟨k', v'⟩ := c
    unfold Assoc.erase
    split
    · subst_vars; simp [Assoc.lookup, h]
    · simp [Assoc.lookup, ih]

/-- Every key of a rising list is above the head's. -/
theorem Assoc.lookup_none_of_lt {k : Nat} {l : List (Nat × α)} (h : ∀ c ∈ l, k < c.1) :
    Assoc.lookup k l = none := by
  induction l with
  | nil => rfl
  | cons c l ih =>
    have hk : k ≠ c.1 := Nat.ne_of_lt (h c (by simp))
    simp [Assoc.lookup, hk, ih fun d hd => h d (by simp [hd])]

theorem Assoc.lookup_erase_same {l : List (Nat × α)} (k : Nat) (h : Assoc.Rising l) :
    Assoc.lookup k (Assoc.erase k l) = none := by
  induction l with
  | nil => rfl
  | cons c l ih =>
    obtain ⟨hc, hl⟩ := List.pairwise_cons.mp h
    unfold Assoc.erase
    split
    · subst_vars; exact Assoc.lookup_none_of_lt hc
    · simp [Assoc.lookup, *]

theorem Assoc.mem_insert {k : Nat} {v : α} {l : List (Nat × α)} {c : Nat × α}
    (h : c ∈ Assoc.insert k v l) : c = (k, v) ∨ c ∈ l := by
  induction l with
  | nil => simpa [Assoc.insert] using h
  | cons d l ih =>
    unfold Assoc.insert at h
    split at h
    · simpa using h
    · split at h
      · rcases List.mem_cons.mp h with h | h <;> simp [h]
      · rcases List.mem_cons.mp h with h | h
        · simp [h]
        · rcases ih h with h | h <;> simp [h]

theorem Assoc.mem_erase {k : Nat} {l : List (Nat × α)} {c : Nat × α} (h : c ∈ Assoc.erase k l) : c ∈ l := by
  induction l with
  | nil => exact h
  | cons d l ih =>
    unfold Assoc.erase at h
    split at h
    · simp [h]
    · rcases List.mem_cons.mp h with h | h
      · simp [h]
      · simp [ih h]

theorem Assoc.rising_insert (k : Nat) (v : α) {l : List (Nat × α)} (h : Assoc.Rising l) :
    Assoc.Rising (Assoc.insert k v l) := by
  induction l with
  | nil => simp [Assoc.insert, Assoc.Rising]
  | cons c l ih =>
    obtain ⟨hc, hl⟩ := List.pairwise_cons.mp h
    unfold Assoc.insert
    split
    · rename_i hk
      refine List.pairwise_cons.mpr ⟨fun d hd => ?_, h⟩
      rcases List.mem_cons.mp hd with rfl | hd
      · exact hk
      · exact Nat.lt_trans hk (hc d hd)
    · split
      · subst_vars; exact List.pairwise_cons.mpr ⟨hc, hl⟩
      · refine List.pairwise_cons.mpr ⟨fun d hd => ?_, ih hl⟩
        rcases Assoc.mem_insert hd with rfl | hd
        · simp only; omega
        · exact hc d hd

theorem Assoc.rising_erase (k : Nat) {l : List (Nat × α)} (h : Assoc.Rising l) :
    Assoc.Rising (Assoc.erase k l) := by
  induction l with
  | nil => exact h
  | cons c l ih =>
    obtain ⟨hc, hl⟩ := List.pairwise_cons.mp h
    unfold Assoc.erase
    split
    · exact hl
    · exact List.pairwise_cons.mpr ⟨fun d hd => hc d (Assoc.mem_erase hd), ih hl⟩

theorem Assoc.lookup_mem {k : Nat} {v : α} {l : List (Nat × α)} (h : Assoc.lookup k l = some v) : (k, v) ∈ l := by
  induction l with
  | nil => simp [Assoc.lookup] at h
  | cons c l ih =>
    obtain ⟨k', v'⟩ := c
    simp only [Assoc.lookup] at h
    split at h
    · simp_all
    · simp [ih h]

theorem Assoc.lookup_of_mem {k : Nat} {v : α} {l : List (Nat × α)} (hl : Assoc.Rising l) (h : (k, v) ∈ l) :
    Assoc.lookup k l = some v := by
  induction l with
  | nil => simp at h
  | cons c l ih =>
    obtain ⟨hc, hl⟩ := List.pairwise_cons.mp hl
    rcases List.mem_cons.mp h with rfl | h
    · simp [Assoc.lookup]
    · have hk : k ≠ c.1 := Nat.ne_of_gt (hc _ h)
      simpa [Assoc.lookup, hk] using ih hl h

/-- Two rising lists with the same contents are the same list. -/
theorem Assoc.eq_of_lookup {l m : List (Nat × α)} (hl : Assoc.Rising l) (hm : Assoc.Rising m)
    (h : ∀ k, Assoc.lookup k l = Assoc.lookup k m) : l = m := by
  induction l generalizing m with
  | nil =>
    cases m with
    | nil => rfl
    | cons d m => simpa [Assoc.lookup] using h d.1
  | cons c l ih =>
    cases m with
    | nil => simpa [Assoc.lookup] using (h c.1).symm
    | cons d m =>
      obtain ⟨hc, hl⟩ := List.pairwise_cons.mp hl
      obtain ⟨hd, hm⟩ := List.pairwise_cons.mp hm
      have key : c.1 = d.1 := by
        by_contra hne
        rcases Nat.lt_or_gt_of_ne hne with hlt | hlt
        · have hn : Assoc.lookup c.1 m = none :=
            Assoc.lookup_none_of_lt fun e he => Nat.lt_trans hlt (hd e he)
          simpa [Assoc.lookup, hne, hn] using h c.1
        · have hn : Assoc.lookup d.1 l = none :=
            Assoc.lookup_none_of_lt fun e he => Nat.lt_trans hlt (hc e he)
          simpa [Assoc.lookup, Ne.symm hne, hn] using h d.1
      have val : c.2 = d.2 := by simpa [Assoc.lookup, key] using h c.1
      have tail : l = m := by
        refine ih hl hm fun k => ?_
        by_cases hk : k = c.1
        · subst hk
          rw [Assoc.lookup_none_of_lt hc, Assoc.lookup_none_of_lt (key ▸ hd)]
        · simpa [Assoc.lookup, hk, key ▸ hk] using h k
      rw [tail, Prod.ext key val]

/-! ## CKS and SLS -/

theorem Memory.write_wf {m : Memory} (h : m.wf) {addr : Nat} (ha : addr < 2 ^ 32) (b : Byte) :
    (m.write addr b).wf := by
  unfold Memory.write
  split
  · exact ⟨Assoc.rising_erase addr h.1, fun c hc => h.2 c (Assoc.mem_erase hc)⟩
  · refine ⟨Assoc.rising_insert addr b h.1, fun c hc => ?_⟩
    rcases Assoc.mem_insert hc with rfl | hc
    · exact ⟨‹_›, ha⟩
    · exact h.2 c hc

theorem Memory.read_write_same {m : Memory} (h : m.wf) (addr : Nat) (b : Byte) :
    (m.write addr b).read addr = b := by
  unfold Memory.write Memory.read
  split
  · simp [Assoc.lookup_erase_same addr h.1, *]
  · simp [Assoc.lookup_insert_same]

theorem Memory.read_write_other {m : Memory} {addr a : Nat} (h : a ≠ addr) (b : Byte) :
    (m.write addr b).read a = m.read a := by
  unfold Memory.write Memory.read
  split
  · rw [Assoc.lookup_erase_other h]
  · rw [Assoc.lookup_insert_other h]

/-- Equal contents are equal data. -/
theorem Memory.eq_of_read {m m' : Memory} (h : m.wf) (h' : m'.wf) (hr : ∀ a, m.read a = m'.read a) : m = m' := by
  have listed : ∀ {n : Memory}, n.wf → ∀ a, Assoc.lookup a n = if n.read a = unlistedByte then none else some (n.read a) := by
    intro n hn a
    unfold Memory.read
    cases hl : Assoc.lookup a n with
    | none => simp
    | some b => simp [(hn.2 _ (Assoc.lookup_mem hl)).1]
  exact Assoc.eq_of_lookup h.1 h'.1 fun a => by rw [listed h, listed h', hr]

@[simp] theorem Memory.length_readN (m : Memory) (addr n : Nat) : (m.readN addr n).length = n := by
  induction n generalizing addr with
  | zero => rfl
  | succ n ih => simp [Memory.readN, ih]

theorem Memory.getElem_readN (m : Memory) (addr n i : Nat) (h : i < (m.readN addr n).length) :
    (m.readN addr n)[i] = m.read (addr + i) := by
  induction n generalizing addr i with
  | zero => simp at h
  | succ n ih =>
    cases i with
    | zero => rfl
    | succ i =>
      simp only [Memory.readN, List.getElem_cons_succ]
      rw [ih]
      congr 1; omega

theorem Memory.readN_add (m : Memory) (addr n k : Nat) :
    m.readN addr (n + k) = m.readN addr n ++ m.readN (addr + n) k := by
  induction n generalizing addr with
  | zero => simp [Memory.readN]
  | succ n ih =>
    rw [Nat.succ_add]
    simp only [Memory.readN, List.cons_append, ih]
    congr 3; omega

theorem Memory.readN_congr {m m' : Memory} {addr n : Nat}
    (h : ∀ a, addr ≤ a → a < addr + n → m.read a = m'.read a) : m.readN addr n = m'.readN addr n := by
  induction n generalizing addr with
  | zero => rfl
  | succ n ih =>
    simp only [Memory.readN]
    rw [h addr (Nat.le_refl _) (by omega), ih fun a h1 h2 => h a (by omega) (by omega)]

/-! ## PIX -/

theorem PixGrid.rising_write {g : PixGrid} (h : Assoc.Rising g) (idx : Nat) (c : PixCell) :
    Assoc.Rising (g.write idx c) := Assoc.rising_insert idx c h

@[simp] theorem PixGrid.read_write_same (g : PixGrid) (idx : Nat) (c : PixCell) :
    (g.write idx c).read idx = some c := Assoc.lookup_insert_same idx c g

theorem PixGrid.read_write_other (g : PixGrid) {idx j : Nat} (h : j ≠ idx) (c : PixCell) :
    (g.write idx c).read j = g.read j := Assoc.lookup_insert_other h c g

/-! ## Big-endian values -/

theorem beNat_append (bs : List Byte) (b : Byte) : beNat (bs ++ [b]) = beNat bs * 256 + b.toNat := by
  simp [beNat, List.foldl_append]

theorem beNat_lt (bs : List Byte) : beNat bs < 256 ^ bs.length := by
  induction bs using List.reverseRecOn with
  | nil => simp [beNat]
  | append_singleton bs b ih =>
    rw [beNat_append, List.length_append, List.length_singleton, Nat.pow_succ]
    have := b.isLt
    omega

/-- At most four bytes are held exactly by a register. -/
theorem beWord_toNat {bs : List Byte} (h : bs.length ≤ 4) : (beWord bs).toNat = beNat bs := by
  have h1 := beNat_lt bs
  have h2 : 256 ^ bs.length ≤ 256 ^ 4 := Nat.pow_le_pow_right (by decide) h
  simp only [beWord, BitVec.toNat_ofNat]
  exact Nat.mod_eq_of_lt (by omega)

end Sys2Proof.Machine
end

