-- ==== Sys2Proof/Laws/Chunk.lean ====
section
/-! SUPPORT. The string read and the length test of unit CK (R119, R125), and all that a payload read can do (R116, R117,
R120 to R125). -/

namespace Sys2Proof.Machine

/-! ## The first NUL (R125) -/

/-- A first NUL lies within the bytes. -/
theorem firstNul_lt {l : List Byte} {z : Nat} (h : firstNul l = some z) : z < l.length := by
  induction l generalizing z with
  | nil => simp [firstNul] at h
  | cons b l ih =>
    simp only [firstNul] at h
    split at h
    · cases h
      simp
    · simp only [Option.map_eq_some_iff] at h
      obtain ⟨a, ha, rfl⟩ := h
      have := ih ha
      simp only [List.length_cons]
      omega

/-- The first NUL is the first byte that is 0. -/
theorem firstNul_some {l : List Byte} {z : Nat} (h : z < l.length) (h0 : l[z] = 0#8)
    (hk : ∀ k (hk : k < z), l[k]'(by omega) ≠ 0#8) : firstNul l = some z := by
  induction l generalizing z with
  | nil => simp at h
  | cons b l ih =>
    cases z with
    | zero => simp at h0; simp [firstNul, h0]
    | succ z =>
      have hb := hk 0 (by omega)
      simp at hb
      simp only [firstNul, hb, if_false]
      rw [ih (by simpa using h) (by simpa using h0) fun k h => by simpa using hk (k + 1) (by omega)]
      rfl

/-- No byte is 0. -/
theorem firstNul_none {l : List Byte} (hk : ∀ k (hk : k < l.length), l[k] ≠ 0#8) : firstNul l = none := by
  induction l with
  | nil => rfl
  | cons b l ih =>
    have hb := hk 0 (by simp)
    simp at hb
    simp only [firstNul, hb, if_false]
    rw [ih fun k h => hk (k + 1) (by simpa using h)]
    rfl

/-! ## Bit 31 of a length (R115, R119) -/

theorem beWord_top {bs : List Byte} (h : bs.length ≤ 4) : (beWord bs).getLsbD 31 = decide (2 ^ 31 ≤ beNat bs) := by
  have h1 := beWord_toNat h
  have h2 := beNat_lt bs
  have : 256 ^ bs.length ≤ 256 ^ 4 := Nat.pow_le_pow_right (by decide) h
  rw [BitVec.getLsbD, h1, Nat.testBit, Nat.shiftRight_eq_div_pow]
  simp only [Nat.one_and_eq_mod_two]
  have : beNat bs / 2 ^ 31 ≤ 1 := by omega
  rw [Bool.eq_iff_iff]
  simp
  omega

/-! ## All a payload read can do (R116, R117, R120 to R125) -/

/-- From s to t, n payload bytes have been consumed, and nothing else that the checksum rests on has changed. -/
structure Consumed (s t : State) (n : Nat) : Prop where
  budget : n ≤ s.ck.remain.toNat
  available : n ≤ ckAvail s
  crcacc : t.ck.crcacc = crcBytes s.ck.crcacc (ckPayload n s)
  pos : t.ck.pos = s.ck.pos + BitVec.ofNat 32 n
  remain : t.ck.remain = s.ck.remain - BitVec.ofNat 32 n
  type : t.ck.type = s.ck.type
  declen : t.ck.declen = s.ck.declen
  len : t.ck.len = s.ck.len
  count : t.ck.count = s.ck.count
  cks : t.cks = s.cks
  phase : t.ck.phase = s.ck.phase ∨ t.ck.phase = .fault

variable {s t : State}

/-- An answer that leaves unit CK as it is, but for its phase and error register, consumes nothing. -/
theorem consumed_none (h : { t.ck with phase := s.ck.phase, err := s.ck.err } = s.ck) (hc : t.cks = s.cks)
    (hp : t.ck.phase = s.ck.phase ∨ t.ck.phase = .fault) : Consumed s t 0 := by
  have field {α : Type} (f : CkUnit → α) := congrArg f h
  exact ⟨Nat.zero_le _, Nat.zero_le _, field CkUnit.crcacc, (field CkUnit.pos).trans (by simp),
    (field CkUnit.remain).trans (by simp), field CkUnit.type, field CkUnit.declen, field CkUnit.len, field CkUnit.count,
    hc, hp⟩

theorem consumed_answerFaulted (s : State) : Consumed s (answerFaulted .ck s) 0 := consumed_none rfl rfl (.inl rfl)

theorem consumed_refuse (e : ErrCode) (s : State) : Consumed s (refuse e s) 0 := consumed_none rfl rfl (.inl rfl)

theorem consumed_raise (e : ErrCode) (s : State) : Consumed s (raise .ck e s) 0 := consumed_none rfl rfl (.inr rfl)

theorem consumed_forward {n : Nat} (k : Nat) (h : n ≤ s.ck.remain.toNat) (ha : n ≤ ckAvail s) :
    Consumed s (ckForward n k s) n := ⟨h, ha, rfl, rfl, rfl, rfl, rfl, rfl, rfl, rfl, .inl rfl⟩

theorem consumed_readInt {n : Nat} (h : n ≤ s.ck.remain.toNat) (ha : n ≤ ckAvail s) :
    Consumed s (ckReadInt n s) n := ⟨h, ha, rfl, rfl, rfl, rfl, rfl, rfl, rfl, rfl, .inl rfl⟩

/-- STRNUL is no part of what the checksum rests on. -/
theorem consumed_setStrnul {n : Nat} (b : Bool) (h : Consumed s t n) : Consumed s (setStrnul b t) n :=
  ⟨h.budget, h.available, h.crcacc, h.pos, h.remain, h.type, h.declen, h.len, h.count, h.cks, h.phase⟩

theorem consumed_ckPre {n : Nat} {body : State → State}
    (h : n ≤ s.ck.remain.toNat → n ≤ ckAvail s → Consumed s (body s) n) : ∃ k, Consumed s (ckPre n body s) k := by
  rcases ckPre_cases n body s with ⟨_, e⟩ | ⟨_, _, e⟩ | ⟨hb, ha, e⟩ <;> rw [e]
  · exact ⟨_, consumed_raise _ s⟩
  · exact ⟨_, consumed_raise _ s⟩
  · exact ⟨n, h hb ha⟩

theorem consumed_ckCommand {p : CkPhase} {body : State → State} (h : ∃ k, Consumed s (body s) k) :
    ∃ k, Consumed s (ckCommand p body s) k := by
  rcases ckCommand_cases p body s with ⟨_, e⟩ | ⟨_, _, e⟩ | ⟨_, _, e⟩ <;> rw [e]
  · exact ⟨_, consumed_answerFaulted s⟩
  · exact ⟨_, consumed_refuse _ s⟩
  · exact h

theorem consumed_rdallBody (s : State) : ∃ k, Consumed s (ckRdallBody s) k := by
  unfold ckRdallBody
  split
  · exact ⟨_, consumed_raise _ s⟩
  · exact ⟨_, consumed_forward _ le_rfl (by omega)⟩

theorem consumed_rdstrBody (s : State) : ∃ k, Consumed s (ckRdstrBody s) k := by
  unfold ckRdstrBody
  split
  · rename_i z hz
    have := firstNul_lt hz
    simp only [ckPayload, Memory.length_readN] at this
    exact ⟨z + 1, consumed_setStrnul _ (consumed_forward _ (by omega) (by omega))⟩
  · split
    · exact ⟨_, consumed_raise _ s⟩
    · exact ⟨_, consumed_setStrnul _ (consumed_forward _ le_rfl (by omega))⟩

/-- Whatever a payload read answers, it has consumed some number of payload bytes, 0 where it answers an error. -/
theorem payloadRead_consumes {i : Instr} (hi : isPayloadRead i = true) (h : exec i s = .next t) :
    ∃ n, Consumed s t n := by
  have next_inj {u v : State} (h : (Host.Outcome.next u : Host.Outcome State Fault Refusal) = .next v) : u = v :=
    Host.Outcome.next.inj h
  cases i <;> simp only [isPayloadRead, reduceCtorEq] at hi <;> rw [← next_inj h]
  case ckRd8 => exact consumed_ckCommand (consumed_ckPre consumed_readInt)
  case ckRd16 => exact consumed_ckCommand (consumed_ckPre consumed_readInt)
  case ckRd32 => exact consumed_ckCommand (consumed_ckPre consumed_readInt)
  case ckRdn => exact consumed_ckCommand (consumed_ckPre (consumed_forward _))
  case ckRdall => exact consumed_ckCommand (consumed_rdallBody s)
  case ckRdstr => exact consumed_ckCommand (consumed_rdstrBody s)

end Sys2Proof.Machine
end

