-- ==== Sys2Proof/Laws/Crc.lean ====
section
/-! SUPPORT. The CRC-32 of R111 tells any two byte sequences apart that differ in one byte (R127), and a chunk's bytes are
read back from the stream (R110). -/

namespace Sys2Proof.Machine

/-! ## One step loses nothing -/

theorem crcStep_top (c : Word) : (crcStep c).getLsbD 31 = c.getLsbD 0 := by
  unfold crcStep
  split <;> simp_all [crcPoly]

theorem crcStep_injective {c c' : Word} (h : crcStep c = crcStep c') : c = c' := by
  have h0 : c.getLsbD 0 = c'.getLsbD 0 := by rw [← crcStep_top, h, crcStep_top]
  have hs : c >>> 1 = c' >>> 1 := by
    unfold crcStep at h
    rw [h0] at h
    split at h
    · exact BitVec.xor_left_inj crcPoly |>.mp h
    · exact h
  apply BitVec.eq_of_getLsbD_eq
  intro i hi
  rcases i with _ | i
  · exact h0
  · have := congrArg (·.getLsbD i) hs
    simpa [BitVec.getLsbD_ushiftRight, Nat.add_comm] using this

theorem crcSteps_injective (n : Nat) {c c' : Word} (h : crcSteps n c = crcSteps n c') : c = c' := by
  induction n generalizing c c' with
  | zero => exact h
  | succ n ih => exact crcStep_injective (ih h)

/-- For one byte, different accumulators give different accumulators. -/
theorem crcUpdate_injective {a a' : Word} (b : Byte) (h : crcUpdate a b = crcUpdate a' b) : a = a' :=
  BitVec.xor_left_inj _ |>.mp (crcSteps_injective 8 h)

/-- For one accumulator, different bytes give different accumulators. -/
theorem crcUpdate_injective_byte (a : Word) {b b' : Byte} (h : crcUpdate a b = crcUpdate a b') : b = b' := by
  have := BitVec.xor_right_inj _ |>.mp (crcSteps_injective 8 h)
  apply BitVec.eq_of_toNat_eq
  have := congrArg BitVec.toNat this
  simp only [BitVec.toNat_setWidth] at this
  omega

theorem crcBytes_injective {a a' : Word} (bytes : List Byte) (h : crcBytes a bytes = crcBytes a' bytes) : a = a' := by
  induction bytes generalizing a a' with
  | nil => exact h
  | cons b bytes ih => exact crcUpdate_injective b (ih h)

@[simp] theorem crcBytes_append (a : Word) (x y : List Byte) : crcBytes a (x ++ y) = crcBytes (crcBytes a x) y := by
  simp [crcBytes]

theorem crcFinal_injective {a a' : Word} (h : crcFinal a = crcFinal a') : a = a' := BitVec.xor_left_inj _ |>.mp h

/-- One changed byte changes the CRC (R127). -/
theorem crc32_changed_byte (before after : List Byte) {b b' : Byte} (h : b ≠ b') :
    crc32 (before ++ b :: after) ≠ crc32 (before ++ b' :: after) := by
  intro he
  have h1 := crcFinal_injective he
  rw [crcBytes_append, crcBytes_append] at h1
  exact h (crcUpdate_injective_byte _ (crcBytes_injective after h1))

/-! ## The bytes of a word and of a chunk -/

@[simp] theorem length_wordBytes (w : Word) : (wordBytes w).length = 4 := rfl

theorem beNat_wordBytes (w : Word) : beNat (wordBytes w) = w.toNat := by
  have := w.isLt
  simp only [beNat, wordBytes, List.foldl_cons, List.foldl_nil, BitVec.extractLsb'_toNat, Nat.shiftRight_eq_div_pow]
  omega

@[simp] theorem beWord_wordBytes (w : Word) : beWord (wordBytes w) = w := by
  apply BitVec.eq_of_toNat_eq
  rw [beWord_toNat (by simp), beNat_wordBytes]

theorem length_chunkBytes {type payload : List Byte} (h : type.length = 4) (crc : Word) :
    (chunkBytes type payload crc).length = 12 + payload.length := by
  simp [chunkBytes, h]; omega

/-- A type code has four bytes (R113). -/
theorem length_of_typeValid {type : List Byte} (h : typeValid type = true) : type.length = 4 := by
  match type, h with
  | [_, _, _, _], _ => rfl

/-- A chunk at a stream position is its four parts at theirs. -/
theorem readN_chunk {m : Memory} {p : Nat} {type payload : List Byte} {crc : Word} (ht : type.length = 4)
    (h : m.readN p (chunkBytes type payload crc).length = chunkBytes type payload crc) :
    m.readN p 4 = wordBytes (BitVec.ofNat 32 payload.length) ∧ m.readN (p + 4) 4 = type ∧
      m.readN (p + 8) payload.length = payload ∧ m.readN (p + 8 + payload.length) 4 = wordBytes crc := by
  rw [length_chunkBytes ht, show 12 + payload.length = 4 + 4 + payload.length + 4 by omega, Memory.readN_add,
    Memory.readN_add, Memory.readN_add] at h
  unfold chunkBytes at h
  obtain ⟨h, h4⟩ := List.append_inj h (by simp [ht])
  obtain ⟨h, h3⟩ := List.append_inj h (by simp [ht])
  obtain ⟨h1, h2⟩ := List.append_inj h (by simp)
  exact ⟨h1, h2, h3, by rw [← h4, show p + 8 + payload.length = p + (4 + 4 + payload.length) by omega]⟩

end Sys2Proof.Machine
end

