-- ==== Sys2Proof/Laws/Decode.lean ====
section
/-! SUPPORT. The command word's fields, register numbers and opcodes, read back from what the encoder writes. -/

namespace Sys2Proof

/-! ## Fields of a packed word -/

theorem toNat_packWord (opc rn : Byte) (imm : Word) :
    (packWord opc rn imm).toNat = opc.toNat * 2 ^ 56 + rn.toNat * 2 ^ 48 + imm.toNat := by
  have h1 := opc.isLt; have h2 := rn.isLt; have h3 := imm.isLt
  have e : (packWord opc rn imm).toNat = ((opc ++ rn ++ (0#16)) ++ imm).toNat := rfl
  rw [e]
  simp only [BitVec.toNat_append, BitVec.toNat_ofNat, Nat.zero_mod, Nat.or_zero]
  rw [← Nat.shiftLeft_add_eq_or_of_lt h3, ← Nat.shiftLeft_add_eq_or_of_lt h2]
  simp only [Nat.shiftLeft_eq]
  omega

@[simp] theorem opcField_packWord (opc rn : Byte) (imm : Word) : opcField (packWord opc rn imm) = opc := by
  have h2 := rn.isLt; have h3 := imm.isLt; have h1 := opc.isLt
  apply BitVec.eq_of_toNat_eq
  simp only [opcField, BitVec.extractLsb'_toNat, toNat_packWord, Nat.shiftRight_eq_div_pow]
  omega

@[simp] theorem rnField_packWord (opc rn : Byte) (imm : Word) : rnField (packWord opc rn imm) = rn := by
  have h2 := rn.isLt; have h3 := imm.isLt; have h1 := opc.isLt
  apply BitVec.eq_of_toNat_eq
  simp only [rnField, BitVec.extractLsb'_toNat, toNat_packWord, Nat.shiftRight_eq_div_pow]
  omega

@[simp] theorem zeroField_packWord (opc rn : Byte) (imm : Word) : zeroField (packWord opc rn imm) = 0#16 := by
  have h2 := rn.isLt; have h3 := imm.isLt; have h1 := opc.isLt
  apply BitVec.eq_of_toNat_eq
  simp only [zeroField, BitVec.extractLsb'_toNat, toNat_packWord, Nat.shiftRight_eq_div_pow, BitVec.toNat_ofNat]
  omega

@[simp] theorem immField_packWord (opc rn : Byte) (imm : Word) : immField (packWord opc rn imm) = imm := by
  have h2 := rn.isLt; have h3 := imm.isLt; have h1 := opc.isLt
  apply BitVec.eq_of_toNat_eq
  simp only [immField, BitVec.extractLsb'_toNat, toNat_packWord, Nat.shiftRight_eq_div_pow]
  omega

/-- A word whose ZERO field is 0 is the word of its other fields. -/
theorem packWord_fields {w : CmdWord} (h : zeroField w = 0#16) :
    packWord (opcField w) (rnField w) (immField w) = w := by
  have hz : (zeroField w).toNat = 0 := by rw [h]; rfl
  have hw := w.isLt
  apply BitVec.eq_of_toNat_eq
  rw [toNat_packWord]
  simp only [opcField, rnField, immField, zeroField, BitVec.extractLsb'_toNat, Nat.shiftRight_eq_div_pow] at hz ⊢
  omega

/-! ## Register numbers and opcodes -/

@[simp] theorem Reg.ofNum_num (r : Reg) : Reg.ofNum r.num = some r := by cases r <;> rfl

theorem Reg.num_of_ofNum {rn : Byte} {r : Reg} (h : Reg.ofNum rn = some r) : r.num = rn := by
  revert r
  revert rn
  decide +kernel

/-- The decoder's register table covers the ranges of R22. -/
theorem Reg.ofNum_isSome (rn : Byte) : (Reg.ofNum rn).isSome = regDefined rn := by
  revert rn
  decide +kernel

theorem Reg.ofNum_isNone (rn : Byte) : (Reg.ofNum rn).isNone = !regDefined rn := by
  rw [← Reg.ofNum_isSome]
  cases Reg.ofNum rn <;> rfl

@[simp] theorem Opcode.ofByte_byte (op : Opcode) : Opcode.ofByte op.byte = some op := by cases op <;> rfl

theorem Opcode.byte_of_ofByte {b : Byte} {op : Opcode} (h : Opcode.ofByte b = some op) : op.byte = b := by
  revert op
  revert b
  decide +kernel

/-- What the decoder makes of a packed word: its operand checks alone. -/
theorem decode_packWord (op : Opcode) (rn : Byte) (imm : Word) :
    decode (packWord op.byte rn imm) = assemble op rn imm := by
  simp [decode]

/-- When a word is a command: its ZERO field is 0, its opcode is one, and the operand checks pass. -/
theorem decode_command {w : CmdWord} {i : Instr} (h : decode w = .command i) :
    zeroField w = 0#16 ∧ ∃ op, Opcode.ofByte (opcField w) = some op ∧ assemble op (rnField w) (immField w) = .command i := by
  unfold decode at h
  split at h
  · cases h
  · split at h
    · cases h
    · exact ⟨not_not.mp ‹_›, _, ‹_›, h⟩

end Sys2Proof
end

