-- ==== Sys2Proof/Laws/PerInstr.lean ====
section
/-! SUPPORT. The family FixedBits: the encoder sets exactly the bits R83's table fixes for the command. -/

namespace Sys2Proof.Laws.FixedBits

/-- The encoded command meets its row's mask and match (R83). -/
def Statement (i : Instr) : Prop := encode i &&& i.mask = i.matchBits

/-- The mask of RDR. -/
theorem packWord_mask_rn (opc rn : Byte) :
    packWord opc rn 0#32 &&& 0xFF00FFFFFFFFFFFF#64 = packWord opc 0#8 0#32 := by
  unfold packWord
  apply BitVec.eq_of_getLsbD_eq
  intro i hi
  simp only [BitVec.getLsbD_and, BitVec.getLsbD_append]
  interval_cases i <;> simp

/-- The mask of WRR. -/
theorem packWord_mask_rn_imm (opc rn : Byte) (imm : Word) :
    packWord opc rn imm &&& 0xFF00FFFF00000000#64 = packWord opc 0#8 0#32 := by
  unfold packWord
  apply BitVec.eq_of_getLsbD_eq
  intro i hi
  simp only [BitVec.getLsbD_and, BitVec.getLsbD_append]
  interval_cases i <;> simp

/-- The mask of CK.RDN and PX.GEOM. -/
theorem packWord_mask_imm (opc : Byte) (imm : Word) :
    packWord opc 0#8 imm &&& 0xFFFFFFFF00000000#64 = packWord opc 0#8 0#32 := by
  unfold packWord
  apply BitVec.eq_of_getLsbD_eq
  intro i hi
  simp only [BitVec.getLsbD_and, BitVec.getLsbD_append]
  interval_cases i <;> simp

theorem nop : Statement .nop := rfl
theorem rdr (rn : Byte) : Statement (.rdr rn) := (packWord_mask_rn _ rn).trans rfl
theorem wrr (rn : Byte) (imm : Word) : Statement (.wrr rn imm) := (packWord_mask_rn_imm _ rn imm).trans rfl
theorem ckReset : Statement .ckReset := rfl
theorem ckOpen : Statement .ckOpen := rfl
theorem ckRd8 : Statement .ckRd8 := rfl
theorem ckRd16 : Statement .ckRd16 := rfl
theorem ckRd32 : Statement .ckRd32 := rfl
theorem ckRdn (n : Word) : Statement (.ckRdn n) := (packWord_mask_imm _ n).trans rfl
theorem ckRdall : Statement .ckRdall := rfl
theorem ckRdstr : Statement .ckRdstr := rfl
theorem ckFinish : Statement .ckFinish := rfl
theorem pxReset : Statement .pxReset := rfl
theorem pxStart : Statement .pxStart := rfl
theorem pxRow : Statement .pxRow := rfl
theorem pxRun : Statement .pxRun := rfl
theorem pxGeom (sel : Word) : Statement (.pxGeom sel) := (packWord_mask_imm _ sel).trans rfl

end Sys2Proof.Laws.FixedBits
end

