-- ==== Sys2Proof/Laws/Unpack.lean ====
section
/-! SUPPORT. What the loops of unit PX do: the reconstruction loop (R148), the placement loop (R179), the row loop
(R188). -/

namespace Sys2Proof.Machine

/-! ## The reconstruction loop -/

@[simp] theorem length_unfilterFrom (f : Filter) (bpp : Nat) (above : List Byte) (i : Nat) (left x : List Byte) :
    (unfilterFrom f bpp above i left x).length = x.length := by
  induction x generalizing i left with
  | nil => rfl
  | cons b x ih => simp [unfilterFrom, ih]

@[simp] theorem length_unfilter (f : Filter) (bpp : Nat) (above x : List Byte) :
    (unfilter f bpp above x).length = x.length := length_unfilterFrom f bpp above 0 [] x

/-- The loop from byte i on, with the i bytes already reconstructed given in reverse: byte i + n of the row. -/
theorem getD_unfilterFrom (f : Filter) {bpp : Nat} (hb : 1 ≤ bpp) (above left x : List Byte) (n : Nat)
    (hn : n < x.length) :
    let row := left.reverse ++ unfilterFrom f bpp above left.length left x
    row.getD (left.length + n) 0#8 = x.getD n 0#8 +
      pred f (if bpp ≤ left.length + n then row.getD (left.length + n - bpp) 0#8 else 0#8)
        (above.getD (left.length + n) 0#8)
        (if bpp ≤ left.length + n then above.getD (left.length + n - bpp) 0#8 else 0#8) := by
  induction x generalizing left n with
  | nil => simp at hn
  | cons b x ih =>
    intro row
    cases n with
    | zero =>
      have hrow : row.getD left.length 0#8 =
          decodeFilter f b (if bpp ≤ left.length then left.getD (bpp - 1) 0#8 else 0#8) (above.getD left.length 0#8)
            (if bpp ≤ left.length then above.getD (left.length - bpp) 0#8 else 0#8) := by
        simp [row, unfilterFrom]
      have hleft : (if bpp ≤ left.length then left.getD (bpp - 1) 0#8 else 0#8) =
          (if bpp ≤ left.length then row.getD (left.length - bpp) 0#8 else 0#8) := by
        split
        · rename_i hle
          have : left.length - bpp < left.reverse.length := by simp; omega
          rw [show row = left.reverse ++ unfilterFrom f bpp above left.length left (b :: x) from rfl,
            List.getD_append _ _ _ _ this, List.getD_eq_getElem _ _ this, List.getElem_reverse,
            List.getD_eq_getElem _ _ (by omega)]
          congr 1; omega
        · rfl
      simp only [Nat.add_zero, List.getD_cons_zero]
      rw [hrow, hleft]
      rfl
    | succ n =>
      let v := decodeFilter f b (if bpp ≤ left.length then left.getD (bpp - 1) 0#8 else 0#8)
        (above.getD left.length 0#8) (if bpp ≤ left.length then above.getD (left.length - bpp) 0#8 else 0#8)
      have hrow : row = (v :: left).reverse ++ unfilterFrom f bpp above (v :: left).length (v :: left) x := by
        simp [row, unfilterFrom, v]
      have := ih (v :: left) n (by simpa using hn)
      simp only [← hrow] at this
      simpa [Nat.add_comm, Nat.add_left_comm, Nat.add_assoc] using this

/-- R148 with the neighbours of R140: each reconstructed byte is the stored byte plus the predictor of its neighbours. -/
theorem getD_unfilter (f : Filter) {bpp : Nat} (hb : 1 ≤ bpp) (above x : List Byte) (i : Nat) (hi : i < x.length) :
    (unfilter f bpp above x).getD i 0#8 = x.getD i 0#8 +
      pred f (if bpp ≤ i then (unfilter f bpp above x).getD (i - bpp) 0#8 else 0#8) (above.getD i 0#8)
        (if bpp ≤ i then above.getD (i - bpp) 0#8 else 0#8) := by
  simpa [unfilter] using getD_unfilterFrom f hb above [] x i hi

/-- A row laid over the start of a line buffer is read back. -/
theorem take_overlay {row : List Byte} (old : List Byte) {n : Nat} (h : row.length = n) :
    (overlay row old).take n = row := by
  subst h
  simp [overlay]

/-- The line buffer keeps its length when the row fits. -/
theorem length_overlay {row old : List Byte} (h : row.length ≤ old.length) : (overlay row old).length = old.length := by
  simp [overlay]; omega

/-! ## The placement loop -/

theorem rising_writeCells (idx : Nat → Nat) (val : Nat → PixCell) (q n : Nat) {g : PixGrid} (h : Assoc.Rising g) :
    Assoc.Rising (writeCells idx val q n g) := by
  induction n generalizing q g with
  | zero => exact h
  | succ n ih => exact ih (q + 1) (PixGrid.rising_write h _ _)

/-- An index no column is placed at reads as before. -/
theorem read_writeCells_other (idx : Nat → Nat) (val : Nat → PixCell) (q n : Nat) (g : PixGrid) {j : Nat}
    (h : ∀ k, q ≤ k → k < q + n → j ≠ idx k) : (writeCells idx val q n g).read j = g.read j := by
  induction n generalizing q g with
  | zero => rfl
  | succ n ih =>
    rw [writeCells, ih (q + 1) _ fun k h1 h2 => h k (by omega) (by omega)]
    exact PixGrid.read_write_other g (h q (Nat.le_refl _) (by omega)) _

/-- Where different columns have different indices, each is read back. -/
theorem read_writeCells_same (idx : Nat → Nat) (val : Nat → PixCell) (q n : Nat) (g : PixGrid)
    (inj : ∀ a b, idx a = idx b → a = b) {k : Nat} (h1 : q ≤ k) (h2 : k < q + n) :
    (writeCells idx val q n g).read (idx k) = some (val k) := by
  induction n generalizing q g with
  | zero => omega
  | succ n ih =>
    by_cases hk : k = q
    · subst hk
      rw [writeCells, read_writeCells_other _ _ _ _ _ fun j hj _ he => by have := inj _ _ he; omega]
      exact PixGrid.read_write_same g _ _
    · exact ih (q + 1) _ (by omega) (by omega)

theorem geom_xStep_pos (ilace : Word) (p : Nat) : 0 < (geom ilace p).xStep := by
  unfold geom geomRow geomSequential
  (repeat' split) <;> decide

theorem geom_yStep_pos (ilace : Word) (p : Nat) : 0 < (geom ilace p).yStep := by
  unfold geom geomRow geomSequential
  (repeat' split) <;> decide

theorem pixIndex_inj {g : Geom} (hg : 0 < g.xStep) (w r a b : Nat) (h : pixIndex g w a r = pixIndex g w b r) :
    a = b := by
  unfold pixIndex at h
  exact Nat.eq_of_mul_eq_mul_right hg (by omega)

/-! ## One row -/

/-- The state after the row's bytes, cells and position, before the pass is looked at. -/
abbrev afterRow (f : Filter) (s : State) : State :=
  advanceRow (keepRow (unpackRow (unfilterRow f (scanline s) s)))

/-- The row the scanline decodes to (R148). -/
abbrev decodedRow (f : Filter) (s : State) : List Byte := unfilter f s.px.bpp.toNat s.px.prev (scanline s)

@[simp] theorem length_scanline (s : State) : (scanline s).length = s.px.rb.toNat := by simp [scanline]

/-- A byte of the scanline, behind its filter byte. -/
theorem getD_scanline {s : State} {i : Nat} (h : i < s.px.rb.toNat) :
    (scanline s).getD i 0#8 = s.sls.read (s.px.pos.toNat + 1 + i) := by
  rw [List.getD_eq_getElem _ _ (by simpa using h)]
  exact Memory.getElem_readN _ _ _ _ _

theorem unfilterRow_cur (f : Filter) (s : State) :
    (unfilterRow f (scanline s) s).px.cur = decodedRow f s ++ s.px.cur.drop s.px.rb.toNat := by
  simp [unfilterRow, overlay]

/-- What the row leaves in unit PX. -/
theorem afterRow_px (f : Filter) (s : State) : (afterRow f s).px = { s.px with
    pos := s.px.pos + (1#32 + s.px.rb)
    row := s.px.row + 1#32
    prev := decodedRow f s ++ s.px.prev.drop s.px.rb.toNat
    cur := decodedRow f s ++ s.px.cur.drop s.px.rb.toNat } := by
  have hp : (keepRow (unpackRow (unfilterRow f (scanline s) s))).px.prev =
      decodedRow f s ++ s.px.prev.drop s.px.rb.toNat := by
    change overlay ((unfilterRow f (scanline s) s).px.cur.take s.px.rb.toNat) s.px.prev = _
    have hl : (decodedRow f s).length = s.px.rb.toNat := by simp
    rw [unfilterRow_cur, List.take_append_of_le_length (by simp), List.take_of_length_le (by simp), overlay, hl]
  rw [← hp, ← unfilterRow_cur]
  rfl

/-- The row changes nothing but unit PX and its cells. -/
theorem afterRow_frame (f : Filter) (s : State) : { afterRow f s with px := s.px, pix := s.pix } = s := rfl

theorem afterRow_pix (f : Filter) (s : State) : (afterRow f s).pix =
    writeCells (pxIndex s) (cell s.px.chans.toNat s.px.depth.toNat (decodedRow f s ++ s.px.cur.drop s.px.rb.toNat)) 0
      s.px.pw.toNat s.pix := by
  rw [← unfilterRow_cur]
  rfl

/-- All that the end of a row can do. -/
theorem endPass_cases (s : State) :
    (s.px.row ≠ s.px.ph ∧ endPass s = s) ∨
    (s.px.row = s.px.ph ∧ nextPass s.px.ilace s.px.width.toNat s.px.height.toNat s.px.pass.toNat = none ∧
      endPass s = { s with px := { s.px with phase := .done } }) ∨
    (s.px.row = s.px.ph ∧ ∃ n, nextPass s.px.ilace s.px.width.toNat s.px.height.toNat s.px.pass.toNat = some n ∧
      endPass s = setPass n s) := by
  unfold endPass
  by_cases h : s.px.row = s.px.ph
  · rw [if_pos h]
    split
    · exact .inr (.inl ⟨h, ‹_›, rfl⟩)
    · exact .inr (.inr ⟨h, _, ‹_›, rfl⟩)
  · exact .inl ⟨h, if_neg h⟩

theorem endPass_frame (s : State) : { endPass s with px := s.px } = s := by
  rcases endPass_cases s with ⟨_, e⟩ | ⟨_, _, e⟩ | ⟨_, n, _, e⟩
  · rw [e]
  · rw [e]
  · rw [e]; rfl

/-! ## Samples within the row -/

/-- A sample that ends within the row does not look behind it. -/
theorem sample_append {d j : Nat} {row : List Byte} (hd : depthLegal d = true) (h : (j + 1) * d ≤ 8 * row.length)
    (rest : List Byte) : sample d (row ++ rest) j = sample d row j := by
  have e : ∀ k, k < row.length → (row ++ rest).getD k 0#8 = row.getD k 0#8 := fun k hk => List.getD_append _ _ _ _ hk
  simp [depthLegal] at hd
  rcases hd with (((rfl | rfl) | rfl) | rfl) | rfl
  · exact congrArg (fun b : Byte => b.toNat >>> _ % 2 ^ 1) (e (j * 1 / 8) (by omega))
  · exact congrArg (fun b : Byte => b.toNat >>> _ % 2 ^ 2) (e (j * 2 / 8) (by omega))
  · exact congrArg (fun b : Byte => b.toNat >>> _ % 2 ^ 4) (e (j * 4 / 8) (by omega))
  · exact congrArg (fun b : Byte => b.toNat) (e j (by omega))
  · exact congrArg₂ (fun a b : Byte => a.toNat * 256 + b.toNat) (e (2 * j) (by omega)) (e (2 * j + 1) (by omega))

theorem cellSum_append {ch d q w n : Nat} {row : List Byte} (hd : depthLegal d = true) (hn : n ≤ ch) (hq : q < w)
    (h : w * ch * d ≤ 8 * row.length) (rest : List Byte) :
    cellSum ch d (row ++ rest) q n = cellSum ch d row q n := by
  induction n with
  | zero => rfl
  | succ n ih =>
    have h1 : q * ch + n + 1 ≤ w * ch := calc
      q * ch + n + 1 ≤ (q + 1) * ch := by rw [Nat.succ_mul]; omega
      _ ≤ w * ch := Nat.mul_le_mul_right _ hq
    have h2 : (q * ch + n + 1) * d ≤ 8 * row.length := Nat.le_trans (Nat.mul_le_mul_right d h1) h
    rw [cellSum, cellSum, ih (by omega), sample_append hd h2]

/-- The cell of a column of the row does not look behind the row (R171, R176). -/
theorem cell_append {ch d q w : Nat} {row : List Byte} (hd : depthLegal d = true) (hq : q < w)
    (h : row.length = rowBytes w ch d) (rest : List Byte) : cell ch d (row ++ rest) q = cell ch d row q := by
  have : w * ch * d ≤ 8 * row.length := by rw [h]; unfold rowBytes; omega
  rw [cell, cell, cellSum_append hd (Nat.le_refl _) hq this]

/-! ## The row loop -/

/-- What one row does: a short stream, a bad filter byte, or the row. -/
theorem pxRowBody_cases (s : State) :
    (pxAvail s < 1 + s.px.rb.toNat ∧ pxRowBody s = raise .px .eSltrunc s) ∨
    (1 + s.px.rb.toNat ≤ pxAvail s ∧ Filter.ofByte (s.sls.read s.px.pos.toNat) = none ∧
      pxRowBody s = raise .px .eFilter s) ∨
    (1 + s.px.rb.toNat ≤ pxAvail s ∧ ∃ f, Filter.ofByte (s.sls.read s.px.pos.toNat) = some f ∧
      pxRowBody s = respond .ok 0#32 (decodeRow f s)) := by
  unfold pxRowBody
  by_cases h : pxAvail s < 1 + s.px.rb.toNat
  · exact .inl ⟨h, by simp [h]⟩
  · cases hf : Filter.ofByte (s.sls.read s.px.pos.toNat) with
    | none => exact .inr (.inl ⟨by omega, rfl, by simp [h]⟩)
    | some f => exact .inr (.inr ⟨by omega, f, rfl, by simp [h]⟩)

end Sys2Proof.Machine
end

