-- ==== Sys2Proof/Laws/Pixel.lean ====
section
/-! SUPPORT. What PX.START has checked, and that a row which goes on consumes the stream (R186, R188, log 12). -/

namespace Sys2Proof.Machine

/-- A configuration PX.START accepts has passed all its tests. -/
theorem startError_none {s : State} (h : startError s = none) :
    dimLegal s.px.width.toNat = true ∧ dimLegal s.px.height.toNat = true ∧ depthLegal s.px.depth.toNat = true ∧
    chansLegal s.px.chans.toNat = true ∧ formatLegal s.px.depth.toNat s.px.chans.toNat = true ∧
    s.px.ilace.toNat ≤ 1 ∧ rowBytes s.px.width.toNat s.px.chans.toNat s.px.depth.toNat ≤ s.rowmax.toNat := by
  unfold startError at h
  split_ifs at h with h1 h2 h3 h4 h5 h6
  simp at h1 h2 h3 h4
  exact ⟨h1.1, h1.2, h2, h3, h4, by omega, by omega⟩

theorem bytesPerPixel_pos (chans depth : Nat) : 1 ≤ bytesPerPixel chans depth := by
  unfold bytesPerPixel; omega

theorem rowBytes_mono {a b : Nat} (chans depth : Nat) (h : a ≤ b) : rowBytes a chans depth ≤ rowBytes b chans depth := by
  unfold rowBytes
  have := Nat.mul_le_mul_right depth (Nat.mul_le_mul_right chans h)
  omega

/-- PX.ROW in phase RUN is its body. -/
theorem execPxRow_runs {s : State} (h : s.px.phase = .run) : execPxRow s = .next (pxRowBody s) := by
  rw [execPxRow, pxCommand_runs (by simp [h]) (by simp [h])]

theorem execPxRun_runs {s : State} (h : s.px.phase = .run) : execPxRun s = .next (pxRunBody s) := by
  rw [execPxRun, pxCommand_runs (by simp [h]) (by simp [h])]

/-- Where the stream stands after a decoded row. -/
theorem decodeRow_pos (f : Filter) (s : State) :
    (decodeRow f s).px.pos = s.px.pos + (1#32 + s.px.rb) ∧ (decodeRow f s).px.len = s.px.len := by
  change (endPass (afterRow f s)).px.pos = _ ∧ (endPass (afterRow f s)).px.len = _
  rcases endPass_cases (afterRow f s) with ⟨_, e⟩ | ⟨_, _, e⟩ | ⟨_, n, _, e⟩ <;> rw [e] <;> simp [setPass]

/-- A row after which PX still runs was decoded, and took its filter byte and its row from the stream: so a run of
px_avail + 1 rows leaves phase RUN. -/
theorem pxRowBody_goes_on {s : State} (h : (pxRowBody s).px.phase = .run) :
    1 + s.px.rb.toNat ≤ pxAvail s ∧ pxAvail (pxRowBody s) + (1 + s.px.rb.toNat) = pxAvail s ∧
    ∃ f, Filter.ofByte (s.sls.read s.px.pos.toNat) = some f ∧ pxRowBody s = respond .ok 0#32 (decodeRow f s) := by
  rcases pxRowBody_cases s with ⟨_, e⟩ | ⟨_, _, e⟩ | ⟨ha, f, hf, e⟩
  · rw [e] at h; simp at h
  · rw [e] at h; simp at h
  · refine ⟨ha, ?_, f, hf, e⟩
    have h1 := s.px.len.isLt
    have h2 := s.px.rb.isLt
    rw [e]
    unfold pxAvail at *
    simp only [respond_px, decodeRow_pos, BitVec.toNat_add, BitVec.toNat_ofNat]
    omega

end Sys2Proof.Machine
end

