-- ==== Sys2Proof/Tests/Slice0.lean ====
section
/-! SUPPORT. Tests. Expected values are those of spec/95_test_vectors.md and spec/96_programs.md, or worked out by hand from
the rule named; each test is one step. The witnesses at the end show states and operands that meet the hypotheses of each
obligation that has some, clause by clause. -/

namespace Sys2Proof.Tests

open Sys2Proof.Machine

set_option Elab.async false

/-! ## Small states -/

/-- An input space that holds these bytes from address 0 on. -/
def bytesAt (bs : List Nat) : Memory :=
  ((List.range bs.length).zip (bs.map (BitVec.ofNat 8))).filter (fun c => c.2 ≠ unlistedByte)

/-- After reset, with ROWMAX = 16. -/
def fresh : State := State.resetWith 16#32

/-- CK in phase IDLE at the start of this stream. -/
def ckIdle (bs : List Nat) : State :=
  { fresh with cks := bytesAt bs, ck := { CkUnit.reset with len := BitVec.ofNat 32 bs.length } }

/-- CK with the chunk at address 0 of this stream open, read up to address `pos`. -/
def ckOpened (bs : List Nat) (pos remain : Nat) : State :=
  { ckIdle bs with ck := { (ckIdle bs).ck with
      phase := .payload
      pos := BitVec.ofNat 32 pos
      remain := BitVec.ofNat 32 remain
      declen := BitVec.ofNat 32 (remain + (pos - 8))
      type := beWord ((bytesAt bs).readN 4 4)
      crcacc := crcBytes crcInit ((bytesAt bs).readN 4 (pos - 4)) } }

/-- CK in phase FAULT after E_CRC. -/
def ckFaulted : State :=
  { fresh with faultlog := 0x200#32, ck := { CkUnit.reset with phase := .fault, err := 25#32 } }

/-- PX in phase IDLE with this stream and configuration. -/
def pxIdle (bs : List Nat) (w h depth chans ilace : Nat) : State :=
  { fresh with
    sls := bytesAt bs
    px := { fresh.px with
      len := BitVec.ofNat 32 bs.length
      width := BitVec.ofNat 32 w
      height := BitVec.ofNat 32 h
      depth := BitVec.ofNat 32 depth
      chans := BitVec.ofNat 32 chans
      ilace := BitVec.ofNat 32 ilace } }

/-- PX running at depth 8, one channel, at this row of this pass, with the previous row's bytes. -/
def pxRunning (bs : List Nat) (w h ilace pass row pos : Nat) (prev : List Nat) : State :=
  let s := pxIdle bs w h 8 1 ilace
  { s with px := { s.px with
      phase := .run
      pos := BitVec.ofNat 32 pos
      bpp := 1#32
      pass := BitVec.ofNat 32 pass
      row := BitVec.ofNat 32 row
      pw := BitVec.ofNat 32 (pxPassDim s pass).1
      ph := BitVec.ofNat 32 (pxPassDim s pass).2
      rb := BitVec.ofNat 32 (pxPassDim s pass).1
      prev := prev.map (BitVec.ofNat 8) ++ List.replicate (16 - prev.length) 0#8 } }

/-- PX in phase FAULT after E_FILTER. -/
def pxFaulted : State :=
  { fresh with faultlog := 0x800#32, px := { fresh.px with phase := .fault, err := 27#32 } }

/-- The state a step answers. -/
def after : Host.Outcome State Fault Refusal → State
  | .next s => s
  | .fault _ => fresh
  | .refused _ => fresh

/-- CODE and VALUE of the response a step answers. -/
def answer (o : Host.Outcome State Fault Refusal) : Option (Byte × Word) :=
  match (after o).resp with
  | some r => some (r.code.byte, r.value)
  | none => none

/-- What register r reads after a step. -/
def reads (r : Reg) (o : Host.Outcome State Fault Refusal) : Word := readReg r (after o)

/-- The IEND chunk (95_test_vectors.md section 2.2). -/
def iend : List Nat := [0, 0, 0, 0, 0x49, 0x45, 0x4E, 0x44, 0xAE, 0x42, 0x60, 0x82]

/-- The tEXt chunk with payload abc (section 2.3). -/
def text : List Nat := [0, 0, 0, 3, 0x74, 0x45, 0x58, 0x74, 0x61, 0x62, 0x63, 0xFC, 0x85, 0x9B, 0x88]

/-- The tEXt chunk of program P2 (96_programs.md). -/
def title : List Nat :=
  [0, 0, 0, 8, 0x74, 0x45, 0x58, 0x74, 0x54, 0x69, 0x74, 0x6C, 0x65, 0, 0x48, 0x69, 0xFF, 0x0F, 0xA7, 0x7D]

/-! ## Well-formed terms: each check refuses an ill-formed term (R85) -/

theorem smoke_rdr_of_no_register : Instr.wf (.rdr 0x03#8) = false := by decide
theorem smoke_wrr_of_no_register : Instr.wf (.wrr 0x31#8 5#32) = false := by decide
theorem smoke_geom_of_no_selector : Instr.wf (.pxGeom 8#32) = false := by decide
theorem smoke_rdr_of_last_register : Instr.wf (.rdr 0x30#8) = true := by decide

/-! ## Decoding: the words of 30_encoding.md R83 and R87, 95_test_vectors.md section 2.5, 96_programs.md -/

theorem test_decode_nop : decode 0x0000000000000000#64 = .command .nop := by decide
theorem test_decode_rdr : decode 0x0116000000000000#64 = .command (.rdr 0x16#8) := by decide
theorem test_decode_wrr : decode 0x0213000000000025#64 = .command (.wrr 0x13#8 37#32) := by decide
theorem test_decode_ckReset : decode 0x1000000000000000#64 = .command .ckReset := by decide
theorem test_decode_ckOpen : decode 0x1100000000000000#64 = .command .ckOpen := by decide
theorem test_decode_ckRd8 : decode 0x1200000000000000#64 = .command .ckRd8 := by decide
theorem test_decode_ckRd16 : decode 0x1300000000000000#64 = .command .ckRd16 := by decide
theorem test_decode_ckRd32 : decode 0x1400000000000000#64 = .command .ckRd32 := by decide
theorem test_decode_ckRdn : decode 0x1500000000000004#64 = .command (.ckRdn 4#32) := by decide
theorem test_decode_ckRdall : decode 0x1600000000000000#64 = .command .ckRdall := by decide
theorem test_decode_ckRdstr : decode 0x1700000000000000#64 = .command .ckRdstr := by decide
theorem test_decode_ckFinish : decode 0x1800000000000000#64 = .command .ckFinish := by decide
theorem test_decode_pxReset : decode 0x2000000000000000#64 = .command .pxReset := by decide
theorem test_decode_pxStart : decode 0x2100000000000000#64 = .command .pxStart := by decide
theorem test_decode_pxRow : decode 0x2200000000000000#64 = .command .pxRow := by decide
theorem test_decode_pxRun : decode 0x2300000000000000#64 = .command .pxRun := by decide
theorem test_decode_pxGeom : decode 0x2400000000000007#64 = .command (.pxGeom 7#32) := by decide

/-- The illegal words of section 2.5, each for its clause of R85. -/
theorem test_decode_illegal :
    decode 0x0000000000000001#64 = .illegal .unusedImmSet ∧ decode 0x0001000000000000#64 = .illegal .unusedRnSet ∧
    decode 0x0300000000000000#64 = .illegal .unknownOpcode ∧ decode 0xFF00000000000000#64 = .illegal .unknownOpcode ∧
    decode 0x1100000100000000#64 = .illegal .zeroFieldSet ∧ decode 0x1101000000000000#64 = .illegal .unusedRnSet ∧
    decode 0x0103000000000000#64 = .illegal .undefinedRegister ∧
    decode 0x0203000000000005#64 = .illegal .undefinedRegister ∧
    decode 0x0100000000000001#64 = .illegal .unusedImmSet ∧
    decode 0x2400000000000008#64 = .illegal .passSelectorAbove7 := by decide

/-- R88: CK.SETBUF writes the length first. -/
theorem test_pseudo_setbuf :
    (Pseudo.ckSetbuf 4#32 9#32).expand.map encode = [0x0213000000000009#64, 0x0212000000000004#64] := by decide

/-! ## Global commands -/

/-- R100. -/
theorem test_nop : answer (exec .nop ckFaulted) = some (0#8, 0#32) := by decide

/-- Section 2.5: RDR ID. -/
theorem test_rdr_id : answer (exec (.rdr 0x00#8) fresh) = some (0#8, 0x504E4331#32) := by decide

/-- Section 2.2: CK_STATUS of the open IEND chunk, through a step. -/
theorem test_rdr_status : answer (step ((ckOpened iend 8 0).withFetchWord 64 0x0110000000000000)) = some (0#8, 1#32) := by
  decide +kernel

/-- Section 2.5: CK_LEN is writable in phase PAYLOAD. -/
theorem test_wrr_len : answer (exec (.wrr 0x13#8 12#32) (ckOpened iend 8 0)) = some (0#8, 12#32) := by decide +kernel

/-- Section 2.5: CK_POS is not. -/
theorem test_wrr_pos : answer (exec (.wrr 0x12#8 0#32) (ckOpened iend 8 0)) = some (17#8, 0#32) := by decide +kernel

/-! ## Unit CK -/

/-- R118, out of phase FAULT; the log keeps its bit (R23). -/
theorem test_ckReset : let o := exec .ckReset { ckFaulted with po := [1#8] }
    answer o = some (0#8, 0#32) ∧ reads .ckStatus o = 0#32 ∧ reads .ckErr o = 0#32 ∧ reads .ckCrc o = 0#32 ∧
      (after o).po = [] ∧ reads .faultlog o = 0x200#32 := by decide

/-- Section 2.2, last line. -/
theorem test_ckOpen : let o := exec .ckOpen (ckIdle iend)
    answer o = some (0#8, 0#32) ∧ reads .ckStatus o = 1#32 ∧ reads .ckPos o = 8#32 ∧ reads .ckRemain o = 0#32 ∧
      reads .ckType o = 0x49454E44#32 ∧ reads .ckCrc o = 0xAE426082#32 := by decide +kernel

/-- Section 2.2: the length is judged before the type is looked for. -/
theorem test_ckOpen_length : let o := exec .ckOpen (ckIdle [0x80, 0, 0, 0, 0x49])
    answer o = some (23#8, 0#32) ∧ reads .faultlog o = 0x80#32 ∧ reads .ckPos o = 0#32 := by decide +kernel

/-- Section 2.3, more: budget 0. -/
theorem test_ckRd8_budget : let o := exec .ckRd8 (ckOpened iend 8 0)
    answer o = some (26#8, 0#32) ∧ reads .faultlog o = 0x400#32 ∧ reads .ckPos o = 8#32 := by decide +kernel

/-- R120: the last of the three payload bytes abc. -/
theorem test_ckRd8 : let o := exec .ckRd8 (ckOpened text 10 1)
    answer o = some (0#8, 0x63#32) ∧ reads .ckData o = 0x63#32 ∧ reads .ckRemain o = 0#32 ∧
      reads .ckCrc o = 0xFC859B88#32 := by decide +kernel

/-- Section 2.3: the first read of the second line. -/
theorem test_ckRd16 : let o := exec .ckRd16 (ckOpened text 8 3)
    answer o = some (0#8, 0x6162#32) ∧ reads .ckPos o = 0xA#32 ∧ reads .ckRemain o = 1#32 ∧
      reads .ckData o = 0x6162#32 ∧ reads .ckCrc o = 0x3379841E#32 ∧ (after o).po = [] := by decide +kernel

/-- Program P1, command 6. -/
theorem test_ckRd32 :
    let o := exec .ckRd32 (ckOpened [0, 0, 0, 0xD, 0x49, 0x48, 0x44, 0x52, 0, 0, 0, 8, 0, 0, 0, 5] 8 13)
    answer o = some (0#8, 8#32) ∧ reads .ckPos o = 0xC#32 ∧ reads .ckRemain o = 9#32 ∧
      reads .ckCrc o = 0xFCD56152#32 ∧ reads .ckData o = 8#32 := by decide +kernel

/-- Section 2.3, first line: nothing is consumed. -/
theorem test_ckRd32_budget : let o := exec .ckRd32 (ckOpened text 8 3)
    answer o = some (26#8, 0#32) ∧ reads .ckStatus o = 0x92#32 ∧ reads .ckErr o = 26#32 ∧ reads .ckPos o = 8#32 ∧
      reads .ckCrc o = 0x9642C585#32 := by decide +kernel

/-- Section 2.3: CK.RDN 5 of the title chunk. -/
theorem test_ckRdn : let o := exec (.ckRdn 5#32) (ckOpened title 8 8)
    answer o = some (0#8, 5#32) ∧ reads .ckPos o = 13#32 ∧ reads .ckRemain o = 3#32 ∧
      reads .ckCrc o = 0x8667028B#32 ∧ (after o).po = [0x54#8, 0x69#8, 0x74#8, 0x6C#8, 0x65#8] := by decide +kernel

/-- Section 2.3: budget before truncation, the stream cut to 12 bytes. -/
theorem test_ckRdn_order :
    answer (exec (.ckRdn 9#32) (ckOpened (title.take 12) 8 8)) = some (26#8, 0#32) ∧
    answer (exec (.ckRdn 8#32) (ckOpened (title.take 12) 8 8)) = some (22#8, 0#32) := by decide +kernel

/-- Section 2.1: the CRC of type and whole payload. -/
theorem test_ckRdall : let o := exec .ckRdall (ckOpened title 8 8)
    answer o = some (0#8, 8#32) ∧ reads .ckCrc o = 0xFF0FA77D#32 ∧ reads .poPos o = 8#32 := by decide +kernel

/-- Section 2.6: the stream cut to 12 bytes. -/
theorem test_ckRdall_trunc : let o := exec .ckRdall (ckOpened (title.take 12) 8 8)
    answer o = some (22#8, 0#32) ∧ reads .ckPos o = 8#32 ∧ reads .ckRemain o = 8#32 := by decide +kernel

/-- Program P2, commands 4 and 5. -/
theorem test_ckRdstr : let o := exec .ckRdstr (ckOpened title 8 8)
    answer o = some (0#8, 5#32) ∧ reads .ckPos o = 14#32 ∧ reads .ckRemain o = 2#32 ∧ reads .ckStatus o = 0x99#32 ∧
      (after o).po = [0x54#8, 0x69#8, 0x74#8, 0x6C#8, 0x65#8] := by decide +kernel

/-- Section 2.4, first line: no NUL, the string ends at the budget. -/
theorem test_ckRdstr_budget : let o := exec .ckRdstr (ckOpened text 8 3)
    answer o = some (0#8, 3#32) ∧ reads .ckStatus o = 0x91#32 ∧ reads .ckRemain o = 0#32 := by decide +kernel

/-- Program P2, command 9. -/
theorem test_ckFinish : let o := exec .ckFinish (ckOpened title 16 0)
    answer o = some (0#8, 0xFF0FA77D#32) ∧ reads .ckPos o = 0x14#32 ∧ reads .ckCount o = 1#32 ∧
      reads .ckStatus o = 0x90#32 := by decide +kernel

/-- Section 2.6: declared length 0. -/
theorem test_ckFinish_crc : let o := exec .ckFinish (ckOpened title 8 0)
    answer o = some (25#8, 0#32) ∧ reads .ckErr o = 25#32 ∧ reads .ckPos o = 8#32 ∧ reads .ckCount o = 0#32 := by
  decide +kernel

/-- Section 2.1: the check value of the CRC-32. -/
theorem test_crc32 : crc32 [0x31#8, 0x32#8, 0x33#8, 0x34#8, 0x35#8, 0x36#8, 0x37#8, 0x38#8, 0x39#8] = 0xCBF43926#32 := by
  decide +kernel

/-! ## Unit PX -/

/-- R185, out of phase FAULT. -/
theorem test_pxReset : let o := exec .pxReset pxFaulted
    answer o = some (0#8, 0#32) ∧ reads .pxStatus o = 0#32 ∧ reads .pxErr o = 0#32 ∧ reads .faultlog o = 0x800#32 := by
  decide +kernel

/-- R186 for the 3x2 image of section 3.4: pass 0 is 1x1. -/
theorem test_pxStart : let o := exec .pxStart (pxIdle [] 3 2 8 1 1)
    answer o = some (0#8, 0#32) ∧ reads .pxStatus o = 1#32 ∧ reads .pxPw o = 1#32 ∧ reads .pxPh o = 1#32 ∧
      reads .pxRb o = 1#32 ∧ reads .pxBpp o = 1#32 := by decide +kernel

/-- Section 3.6: depth 4 with two channels, ILACE 2, range before ILACE, and a row one byte too long (ROWMAX is 16). -/
theorem test_pxStart_refused :
    answer (exec .pxStart (pxIdle [] 1 1 4 2 0)) = some (19#8, 0#32) ∧
    answer (exec .pxStart (pxIdle [] 1 1 8 1 2)) = some (20#8, 0#32) ∧
    answer (exec .pxStart (pxIdle [] 0 1 8 1 2)) = some (19#8, 0#32) ∧
    answer (exec .pxStart (pxIdle [] 129 1 1 1 0)) = some (21#8, 0#32) := by decide +kernel

/-- Section 3.2, row 3: Average, with the discriminating byte 1. -/
theorem test_pxRow_average :
    let o := exec .pxRow (pxRunning [3, 0x64, 0xC8, 0x32, 0x19, 0x00, 0xFF, 0x80, 0x40] 8 5 0 0 3 0
      [0x06, 0xFC, 0x08, 0xFE, 0x0A, 0x00, 0x0C, 0x02])
    answer o = some (0#8, 0#32) ∧ reads .pxRow o = 4#32 ∧ reads .pxPos o = 9#32 ∧
      (after o).pix = [(24, 0x67#64), (25, 0x79#64), (26, 0x72#64), (27, 0xD1#64), (28, 0x6D#64), (29, 0x35#64),
        (30, 0xA0#64), (31, 0x91#64)] := by decide +kernel

/-- Section 3.2, row 4: Paeth, the last row. -/
theorem test_pxRow_paeth :
    let o := exec .pxRow (pxRunning [4, 0x03, 0x07, 0xFA, 0x01, 0x00, 0x09, 0xC8, 0x11] 8 5 0 0 4 0
      [0x67, 0x79, 0x72, 0xD1, 0x6D, 0x35, 0xA0, 0x91])
    reads .pxStatus o = 3#32 ∧
      (after o).pix = [(32, 0x6A#64), (33, 0x80#64), (34, 0x73#64), (35, 0xD2#64), (36, 0x6D#64), (37, 0x3E#64),
        (38, 0x68#64), (39, 0x79#64)] := by decide +kernel

/-- Section 3.4: the interlaced 3x2 image, from pass 0 on. -/
theorem test_pxRun : let o := exec .pxRun (pxRunning [0, 0xA0, 0, 0xA2, 0, 0xA1, 0, 0xA3, 0xA4, 0xA5] 3 2 1 0 0 0 [])
    answer o = some (0#8, 0#32) ∧ reads .pxStatus o = 3#32 ∧ reads .pxPos o = 10#32 ∧ reads .pxPass o = 6#32 ∧
      (after o).pix = [(0, 0xA0#64), (1, 0xA1#64), (2, 0xA2#64), (3, 0xA3#64), (4, 0xA4#64), (5, 0xA5#64)] := by
  decide +kernel

/-- Section 3.6: the rows before a short one stay. -/
theorem test_pxRun_short : let o := exec .pxRun (pxRunning [0, 1, 2, 0, 3] 2 2 0 0 0 0 [])
    answer o = some (28#8, 0#32) ∧ reads .pxErr o = 28#32 ∧ reads .pxPos o = 3#32 ∧ reads .pxRow o = 1#32 ∧
      (after o).pix = [(0, 1#64), (1, 2#64)] := by decide +kernel

/-- Section 1.2: pass 6 of a 7x11 image is (7, 5). -/
theorem test_pxGeom : let o := exec (.pxGeom 6#32) (pxIdle [] 7 11 8 1 0)
    answer o = some (0#8, 7#32) ∧ reads .pxQw o = 7#32 ∧ reads .pxQh o = 5#32 := by decide +kernel

/-- R162: selector 7 is the whole image; the phase is not looked at unless it is FAULT. -/
theorem test_pxGeom_whole : let o := exec (.pxGeom 7#32) (pxRunning [0, 7] 7 11 1 0 0 0 [])
    answer o = some (0#8, 7#32) ∧ reads .pxQh o = 11#32 := by decide +kernel

/-- Section 3.1: the discriminating Paeth and Average rows. -/
theorem test_predictors :
    pred .paeth 200#8 100#8 20#8 = 200#8 ∧ pred .paeth 10#8 20#8 200#8 = 10#8 ∧ pred .paeth 12#8 6#8 10#8 = 6#8 ∧
    pred .paeth 50#8 60#8 55#8 = 55#8 ∧ pred .average 103#8 252#8 0#8 = 177#8 := by decide +kernel

/-- Section 3.5: depths 1, 2 and 4, and the lanes of two channels at depth 16. -/
theorem test_cells :
    (List.range 10).map (cell 1 1 [0xB3#8, 0x40#8]) = [1#64, 0#64, 1#64, 1#64, 0#64, 0#64, 1#64, 1#64, 0#64, 1#64] ∧
    (List.range 5).map (cell 1 2 [0x1B#8, 0xC0#8]) = [0#64, 1#64, 2#64, 3#64, 3#64] ∧
    (List.range 3).map (cell 1 4 [0xF1#8, 0x01#8]) = [15#64, 1#64, 0#64] ∧
    cell 2 16 [0x12#8, 0x34#8, 0xFF#8, 0xFF#8] 0 = 0x00000000FFFF1234#64 ∧
    cell 4 16 [0x00#8, 0x01#8, 0x80#8, 0x00#8, 0xFF#8, 0xFF#8, 0x12#8, 0x34#8] 0 = 0x1234FFFF80000001#64 := by
  decide +kernel

/-! ## Witnesses: what meets the hypotheses of each obligation -/

/-- This state with the host about to do this. -/
def withAction (a : HostAction) (s : State) : State := { s with inbox := a :: s.inbox }

theorem witness_DecodeOfEncodeIsTheCommand :
    Instr.wf (.rdr 0x30#8) = true ∧ Instr.wf (.wrr 0x1A#8 0xFFFFFFFF#32) = true ∧ Instr.wf (.pxGeom 7#32) = true ∧
    Instr.wf (.ckRdn 0xFFFFFFFF#32) = true ∧ Instr.wf .pxRun = true := by decide

theorem witness_EncodeOfDecodeIsTheWord : decode 0x02300000FFFFFFFF#64 = .command (.wrr 0x30#8 0xFFFFFFFF#32) := by decide

theorem witness_MatchAndMaskSelectTheCommand :
    0x0117000000000000#64 &&& (Instr.rdr 0#8).mask = (Instr.rdr 0#8).matchBits ∧
    0x0117000000000000#64 &&& (Instr.rdr 5#8).mask = (Instr.rdr 5#8).matchBits := by decide

theorem witness_IllegalWordsAreRefused :
    (withAction (.command 0x0300000000000000#64) fresh).inbox = .command 0x0300000000000000#64 :: [] ∧
    ∃ why, decode 0x0300000000000000#64 = .illegal why := ⟨rfl, .unknownOpcode, by decide⟩

theorem witness_StepRunsThePresentedCommand :
    (withAction (.command 0x1100000000000000#64) fresh).inbox = .command 0x1100000000000000#64 :: [] ∧
    decode 0x1100000000000000#64 = .command .ckOpen := by decide

theorem witness_StepPerformsTheHostsActions :
    (fresh.cks.wf ∧ (withAction (.putCks 0xFFFFFFFF#32 7#8) fresh).inbox = .putCks 0xFFFFFFFF#32 7#8 :: []) ∧
    (fresh.sls.wf ∧ (withAction (.putSls 0#32 0#8) fresh).inbox = .putSls 0#32 0#8 :: []) ∧ fresh.inbox = [] := by decide

theorem witness_ResetGivesTheResetValues : (withAction .reset ckFaulted).inbox = .reset :: [] := by decide

theorem witness_RdrAnswersTheRegister :
    Reg.pxQh.num = 0x30#8 ∧ ∀ r : Reg, r.num ≠ 0x03#8 := ⟨rfl, fun r => by cases r <;> decide⟩

/-- The phases of each clause; no phase falls under two clauses of one register that differ. -/
theorem witness_WrrStoresWhereThePhaseAllows :
    fresh.ck.phase = .idle ∧ (ckOpened iend 8 0).ck.phase ≠ .fault ∧ (ckOpened iend 8 0).ck.phase ≠ .idle ∧
    ckFaulted.ck.phase = .fault ∧ fresh.px.phase = .idle ∧ (pxRunning [] 1 1 0 0 0 0 []).px.phase = .run ∧
    Reg.pxPass ∉ [Reg.ckPos, .ckLen, .pxPos, .pxLen, .pxWidth, .pxHeight, .pxDepth, .pxChans, .pxIlace] := by
  decide +kernel

theorem witness_WrrStoresWhereThePhaseAllows_noRegister : ∀ r : Reg, r.num ≠ 0x1B#8 := fun r => by cases r <;> decide

theorem witness_WrrChangesNoOtherRegister :
    (∃ t, exec (.wrr Reg.ckLen.num 5#32) fresh = .next t) ∧
    (after (exec (.wrr Reg.ckLen.num 5#32) fresh)).resp = some ⟨.ok, 5#32⟩ := ⟨⟨_, rfl⟩, by decide⟩

/-- CK.OPEN: one state for each clause, the available bytes at the edges 0, 3, 4, 7, 8 and the length at 2^31. -/
theorem witness_CkOpenFollowsItsTests :
    ckFaulted.ck.phase = .fault ∧ (ckOpened iend 8 0).ck.phase = .payload ∧
    ((ckIdle []).ck.phase = .idle ∧ ckAvail (ckIdle []) = 0) ∧
    (0 < ckAvail (ckIdle [0, 0, 0]) ∧ ckAvail (ckIdle [0, 0, 0]) < 4) ∧
    (4 ≤ ckAvail (ckIdle [0x80, 0, 0, 0]) ∧ 2 ^ 31 ≤ beNat ((ckIdle [0x80, 0, 0, 0]).cks.readN 0 4)) ∧
    (ckAvail (ckIdle [0x7F, 0xFF, 0xFF, 0xFF, 1, 2, 3]) < 8 ∧
      beNat ((ckIdle [0x7F, 0xFF, 0xFF, 0xFF, 1, 2, 3]).cks.readN 0 4) < 2 ^ 31) ∧
    (8 ≤ ckAvail (ckIdle [0, 0, 0, 0, 0x61, 0x62, 0x63, 0x64]) ∧
      typeValid ((ckIdle [0, 0, 0, 0, 0x61, 0x62, 0x63, 0x64]).cks.readN 4 4) = false) ∧
    (8 ≤ ckAvail (ckIdle iend) ∧ beNat ((ckIdle iend).cks.readN 0 4) < 2 ^ 31 ∧
      typeValid ((ckIdle iend).cks.readN 4 4) = true) := by decide +kernel

/-- The integer reads at the edges: budget one short, stream one short, both just enough. -/
theorem witness_CkIntegerReadsFollowTheirTests :
    (ckOpened text 8 3).ck.phase = .payload ∧ (ckOpened text 8 3).ck.remain.toNat < 4 ∧
    (4 ≤ (ckOpened (title.take 11) 8 8).ck.remain.toNat ∧ ckAvail (ckOpened (title.take 11) 8 8) < 4) ∧
    (4 ≤ (ckOpened (title.take 12) 12 4).ck.remain.toNat ∧ ckAvail (ckOpened (title.take 12) 8 8) = 4) ∧
    (2 ≤ (ckOpened text 9 2).ck.remain.toNat ∧ 2 ≤ ckAvail (ckOpened text 9 2)) ∧
    (1 ≤ (ckOpened text 10 1).ck.remain.toNat ∧ 1 ≤ ckAvail (ckOpened text 10 1)) := by decide +kernel

theorem witness_CkRdnForwardsTheBytes :
    (ckOpened text 8 3).ck.phase = .payload ∧ (ckOpened text 8 3).ck.remain.toNat < (4#32).toNat ∧
    ((8#32).toNat ≤ (ckOpened (title.take 12) 8 8).ck.remain.toNat ∧
      ckAvail (ckOpened (title.take 12) 8 8) < (8#32).toNat) ∧
    ((3#32).toNat ≤ (ckOpened text 8 3).ck.remain.toNat ∧ (3#32).toNat ≤ ckAvail (ckOpened text 8 3)) := by
  decide +kernel

theorem witness_CkRdallForwardsAllThatRemains :
    (ckAvail (ckOpened (title.take 15) 8 8) < (ckOpened (title.take 15) 8 8).ck.remain.toNat) ∧
    ((ckOpened (title.take 16) 8 8).ck.remain.toNat ≤ ckAvail (ckOpened (title.take 16) 8 8)) := by decide +kernel

/-- CK.RDSTR: a NUL at offset 5; none with the stream ending first; none with the budget ending first. -/
theorem witness_CkRdstrStopsAtNulOrBudget :
    (5 < (ckOpened title 8 8).ck.remain.toNat ∧ 5 < ckAvail (ckOpened title 8 8) ∧
      (ckOpened title 8 8).cks.read 13 = 0#8 ∧ ∀ k, k < 5 → (ckOpened title 8 8).cks.read (8 + k) ≠ 0#8) ∧
    (ckAvail (ckOpened (title.take 13) 8 8) < 8 ∧ ∀ k, k < 5 → (ckOpened (title.take 13) 8 8).cks.read (8 + k) ≠ 0#8) ∧
    (3 ≤ ckAvail (ckOpened text 8 3) ∧ ∀ k, k < 3 → (ckOpened text 8 3).cks.read (8 + k) ≠ 0#8) := by decide +kernel

theorem witness_CkFinishComparesTheChecksum :
    (ckOpened text 8 3).ck.remain ≠ 0#32 ∧
    ((ckOpened (text.take 14) 11 0).ck.remain = 0#32 ∧ ckAvail (ckOpened (text.take 14) 11 0) < 4) ∧
    (4 ≤ ckAvail (ckOpened title 8 0) ∧
      BitVec.ofNat 32 (beNat ((ckOpened title 8 0).cks.readN 8 4)) ≠ (ckOpened title 8 0).ck.crcacc ^^^ 0xFFFFFFFF#32) ∧
    (4 ≤ ckAvail (ckOpened text 11 0) ∧
      BitVec.ofNat 32 (beNat ((ckOpened text 11 0).cks.readN 11 4)) = (ckOpened text 11 0).ck.crcacc ^^^ 0xFFFFFFFF#32) := by
  decide +kernel

theorem witness_WideReadsAgreeWithNarrowReads :
    (ckOpened (title.take 12) 8 8).ck.phase = .payload ∧ 2 * 2 ≤ (ckOpened (title.take 12) 8 8).ck.remain.toNat ∧
    2 * 2 ≤ ckAvail (ckOpened (title.take 12) 8 8) ∧
    2 * 1 ≤ (ckOpened text 9 2).ck.remain.toNat ∧ 2 * 1 ≤ ckAvail (ckOpened text 9 2) := by decide +kernel

theorem witness_GroupingOfReadsDoesNotMatter :
    (ckOpened text 8 3).ck.phase = .payload ∧ (1#32).toNat + (2#32).toNat = (3#32).toNat ∧
    (3#32).toNat ≤ (ckOpened text 8 3).ck.remain.toNat ∧ (3#32).toNat ≤ ckAvail (ckOpened text 8 3) := by decide +kernel

/-- Reads of three kinds. -/
theorem witness_GroupingOfReadsDoesNotMatter_mixed :
    (∀ i ∈ [Instr.ckRd8, .ckRdn 1#32, .ckRdstr], isPayloadRead i = true) ∧
    ∃ t, execAll [.ckRd8, .ckRdn 1#32, .ckRdstr] (ckOpened text 8 3) = .next t := ⟨by decide, _, rfl⟩

/-- The whole payload of the tEXt chunk read, the trailer still to come. -/
theorem ckLegal_text : CkLegal (ckOpened text 11 0) where
  fault := by decide +kernel
  noFault := by decide +kernel
  budget := by decide +kernel
  length := by decide +kernel
  type := .inr ⟨[0x74#8, 0x45#8, 0x58#8, 0x74#8], by decide +kernel, by decide +kernel⟩

theorem crcCovers_text : CrcCovers (ckOpened text 11 0) where
  inside := by decide +kernel
  crc := by decide +kernel
  type := by decide +kernel

theorem witness_EveryCommandKeepsTheCrcCoverage :
    CkLegal (ckOpened text 11 0) ∧ CrcCovers (ckOpened text 11 0) ∧ (ckOpened text 11 0).ck.phase = .payload ∧
    ∃ t, exec .ckRdall (ckOpened text 11 0) = .next t := ⟨ckLegal_text, crcCovers_text, by decide, _, rfl⟩

theorem witness_FinishAcceptsOnlyAMatchingChecksum :
    CkLegal (ckOpened text 11 0) ∧ CrcCovers (ckOpened text 11 0) ∧
    (∃ t, exec .ckFinish (ckOpened text 11 0) = .next t) ∧
    (after (exec .ckFinish (ckOpened text 11 0))).resp = some ⟨.ok, 0xFC859B88#32⟩ :=
  ⟨ckLegal_text, crcCovers_text, ⟨_, rfl⟩, by decide +kernel⟩

theorem witness_WellFormedChunkIsAccepted :
    (ckIdle text).ck.phase = .idle ∧ typeValid [0x74#8, 0x45#8, 0x58#8, 0x74#8] = true ∧
    StreamBegins (ckIdle text) (chunkBytes [0x74#8, 0x45#8, 0x58#8, 0x74#8] [0x61#8, 0x62#8, 0x63#8]
      (crc32 ([0x74#8, 0x45#8, 0x58#8, 0x74#8] ++ [0x61#8, 0x62#8, 0x63#8]))) := by
  unfold StreamBegins
  decide +kernel

/-- The chunk of `text` with its middle payload byte changed from 0x62 to 0x63. -/
theorem witness_ChangedPayloadByteIsRejected :
    (ckIdle (text.set 9 0x63)).ck.phase = .idle ∧ (0x62#8 : Byte) ≠ 0x63#8 ∧
    StreamBegins (ckIdle (text.set 9 0x63)) (chunkBytes [0x74#8, 0x45#8, 0x58#8, 0x74#8] ([0x61#8] ++ 0x63#8 :: [0x63#8])
      (crc32 ([0x74#8, 0x45#8, 0x58#8, 0x74#8] ++ ([0x61#8] ++ 0x62#8 :: [0x63#8])))) := by
  unfold StreamBegins
  decide +kernel

/-- The payload of that chunk taken by reads of three kinds: the whole of it is read, in phase PAYLOAD. -/
theorem witness_ChangedPayloadByteIsRejected_mixed :
    (∀ i ∈ [Instr.ckRd8, .ckRdn 1#32, .ckRdstr], isPayloadRead i = true) ∧
    (after (execAll [.ckOpen, .ckRd8, .ckRdn 1#32, .ckRdstr] (ckIdle (text.set 9 0x63)))).ck.phase = .payload ∧
    (after (execAll [.ckOpen, .ckRd8, .ckRdn 1#32, .ckRdstr] (ckIdle (text.set 9 0x63)))).ck.remain = 0#32 := by
  decide +kernel

theorem witness_FilterTypesAndSimplePredictors : 4 < (5#8 : Byte).toNat ∧ 4 < (255#8 : Byte).toNat := by decide

/-- The three clauses, the ties of section 3.1 at their edges. -/
theorem witness_PaethPicksTheNearest :
    (|(5 + 5 - 9 : Int) - 5| ≤ |(5 + 5 - 9 : Int) - 5| ∧ |(5 + 5 - 9 : Int) - 5| ≤ |(5 + 5 - 9 : Int) - 9|) ∧
    (|(12 + 6 - 10 : Int) - 6| < |(12 + 6 - 10 : Int) - 12| ∧ |(12 + 6 - 10 : Int) - 6| ≤ |(12 + 6 - 10 : Int) - 10|) ∧
    (|(50 + 60 - 55 : Int) - 55| < |(50 + 60 - 55 : Int) - 50| ∧
      |(50 + 60 - 55 : Int) - 55| < |(50 + 60 - 55 : Int) - 60|) := by decide

theorem witness_RowLengthAndPixelBytes : 1 * 4 < 8 ∧ 8 ≤ 1 * 8 := by decide

theorem witness_EmptyPasses : passNonEmpty 4 5 (geomRow 1) = false ∧ passNonEmpty 5 4 (geomRow 1) = true := by decide

theorem witness_PassesPartitionTheImage : 6 < 7 ∧ 10 < 11 := by decide

theorem witness_NextPassIsTheLeastLaterOne :
    nextPass 1#32 3 2 0 = some 3 ∧ nextPass 1#32 3 2 6 = none ∧ nextPass 1#32 1 1 0 = none := by decide

theorem witness_SampleIsTheNextBitsOfTheRow :
    depthLegal 1 = true ∧ (15 + 1) * 1 ≤ 8 * [0xB3#8, 0x40#8].length ∧ depthLegal 16 = true ∧
    (0 + 1) * 16 ≤ 8 * [0xB3#8, 0x40#8].length := by decide

theorem witness_CellLanesAreTheChannels : chansLegal 4 = true ∧ depthLegal 16 = true ∧ 3 < 4 := by decide

/-- Ten one-bit samples in two bytes: the last six bits are padding. -/
theorem witness_PaddingBitsAreIgnored :
    9 < 10 ∧ rowBytes 10 1 1 = [0xB3#8].length + 1 ∧
    (0x40#8).toNat / 2 ^ (8 * ([0xB3#8].length + 1) - 10 * 1) = (0x7F#8).toNat / 2 ^ (8 * ([0xB3#8].length + 1) - 10 * 1) := by
  decide

/-- PX.START: one state for each clause; W * channels * depth at ROWMAX = 16 bytes and one byte above. -/
theorem witness_PxStartFollowsItsTests :
    pxFaulted.px.phase = .fault ∧ (pxRunning [] 1 1 0 0 0 0 []).px.phase = .run ∧
    ((pxIdle [] 0 1 8 1 0).px.phase = .idle ∧ dimOk (pxIdle [] 0 1 8 1 0).px.width = false) ∧
    dimOk (pxIdle [] 1 0x80000000 8 1 0).px.height = false ∧ (pxIdle [] 1 1 3 1 0).px.depth.toNat ∉ [1, 2, 4, 8, 16] ∧
    (pxIdle [] 1 1 8 5 0).px.chans.toNat ∉ [1, 2, 3, 4] ∧
    ((pxIdle [] 1 1 4 2 0).px.depth.toNat < 8 ∧ (pxIdle [] 1 1 4 2 0).px.chans ≠ 1#32) ∧
    1 < (pxIdle [] 1 1 8 1 2).px.ilace.toNat ∧
    (fresh.rowmax.toNat < (17 * 1 * 8 + 7) / 8 ∧ (pxIdle [] 17 1 8 1 0).px.width.toNat = 17) ∧
    ((16 * 1 * 8 + 7) / 8 ≤ fresh.rowmax.toNat ∧ dimOk (pxIdle [] 16 1 8 1 1).px.width = true ∧
      dimOk (pxIdle [] 16 1 8 1 1).px.height = true ∧ (pxIdle [] 16 1 8 1 1).px.ilace.toNat ≤ 1) := by decide +kernel

/-! Running states: the first of two rows; the last row of the image; the last row of a pass with another to come. -/

/-- A 2x2 image before row 0. -/
def firstRow : State := pxRunning [0, 1, 2, 4, 3, 4] 2 2 0 0 0 0 []

/-- The same image before row 1. -/
def lastRow : State := pxRunning [0, 1, 2, 4, 3, 4] 2 2 0 0 1 3 [1, 2]

/-- The interlaced 3x2 image of section 3.4 before its first scanline. -/
def firstPass : State := pxRunning [0, 0xA0, 0, 0xA2, 0, 0xA1, 0, 0xA3, 0xA4, 0xA5] 3 2 1 0 0 0 []

theorem running_firstRow : PxRunning firstRow := by constructor <;> decide +kernel
theorem running_lastRow : PxRunning lastRow := by constructor <;> decide +kernel
theorem running_firstPass : PxRunning firstPass := by constructor <;> decide +kernel

theorem inv_firstRow : Inv firstRow where
  spaces := by constructor <;> decide +kernel
  global := by constructor <;> decide +kernel
  ck := ⟨by decide +kernel, by decide +kernel, by decide +kernel, by decide +kernel, .inl rfl⟩
  px := ⟨by decide +kernel, by decide +kernel, fun _ => running_firstRow, by decide +kernel⟩

theorem inv_firstPass : Inv firstPass where
  spaces := by constructor <;> decide +kernel
  global := by constructor <;> decide +kernel
  ck := ⟨by decide +kernel, by decide +kernel, by decide +kernel, by decide +kernel, .inl rfl⟩
  px := ⟨by decide +kernel, by decide +kernel, fun _ => running_firstPass, by decide +kernel⟩

/-- Before the first scanline nothing is decoded and nothing written. -/
theorem progress_firstPass : PixProgress firstPass := by
  intro _ idx
  constructor
  · intro h
    cases h
  · rintro ⟨p, q, r, -, h | h, -⟩
    · exact absurd h (Nat.not_lt_zero p)
    · exact absurd h.2 (Nat.not_lt_zero r)

/-- The three clauses on the next pass, each with a whole scanline and a legal filter byte. -/
theorem witness_PxRowDecodesOneScanline :
    (PxRunning firstRow ∧ firstRow.px.phase = .run ∧ 1 + firstRow.px.rb.toNat ≤ pxAvail firstRow ∧
      Filter.ofByte (firstRow.sls.read firstRow.px.pos.toNat) = some .none ∧ firstRow.px.row + 1#32 ≠ firstRow.px.ph) ∧
    (PxRunning lastRow ∧ 1 + lastRow.px.rb.toNat ≤ pxAvail lastRow ∧
      Filter.ofByte (lastRow.sls.read lastRow.px.pos.toNat) = some .paeth ∧ lastRow.px.row + 1#32 = lastRow.px.ph ∧
      nextPass lastRow.px.ilace lastRow.px.width.toNat lastRow.px.height.toNat lastRow.px.pass.toNat = none) ∧
    (PxRunning firstPass ∧ 1 + firstPass.px.rb.toNat ≤ pxAvail firstPass ∧
      firstPass.px.row + 1#32 = firstPass.px.ph ∧
      nextPass firstPass.px.ilace firstPass.px.width.toNat firstPass.px.height.toNat firstPass.px.pass.toNat = some 3) :=
  ⟨⟨running_firstRow, by decide +kernel⟩, ⟨running_lastRow, by decide +kernel⟩, ⟨running_firstPass, by decide +kernel⟩⟩

/-- A short stream; a whole scanline with filter byte 5; the other phases. -/
theorem witness_PxRowRefusesAndFaultsInOrder :
    pxFaulted.px.phase = .fault ∧ fresh.px.phase = .idle ∧
    ((pxRunning [9, 1] 2 1 0 0 0 0 []).px.phase = .run ∧
      pxAvail (pxRunning [9, 1] 2 1 0 0 0 0 []) < 1 + (pxRunning [9, 1] 2 1 0 0 0 0 []).px.rb.toNat) ∧
    (1 + (pxRunning [5, 1, 2] 2 1 0 0 0 0 []).px.rb.toNat ≤ pxAvail (pxRunning [5, 1, 2] 2 1 0 0 0 0 []) ∧
      4 < ((pxRunning [5, 1, 2] 2 1 0 0 0 0 []).sls.read 0).toNat) := by decide +kernel

theorem witness_PxRunIsRepeatedPxRow :
    pxFaulted.px.phase = .fault ∧ fresh.px.phase = .idle ∧ firstPass.px.phase = .run := by decide +kernel

/-- Four scanlines of four passes in ten bytes, their filter bytes at 0, 2, 4 and 6. -/
theorem witness_PxRunCompletesAWholeImage :
    Inv firstPass ∧ firstPass.px.phase = .run ∧ remainingScanlines firstPass = [(1, 2), (1, 2), (1, 2), (1, 4)] ∧
    scanlineBytes (remainingScanlines firstPass) ≤ pxAvail firstPass ∧
    filterByteAddresses firstPass.px.pos.toNat (remainingScanlines firstPass) = [0, 2, 4, 6] ∧
    ∀ a ∈ filterByteAddresses firstPass.px.pos.toNat (remainingScanlines firstPass),
      (firstPass.sls.read a).toNat ≤ 4 := ⟨inv_firstPass, by decide +kernel⟩

theorem witness_PxRunLeavesTheRestUnchanged :
    Inv firstRow ∧ firstRow.px.phase = .run ∧ ∃ t, exec .pxRun firstRow = .next t :=
  ⟨inv_firstRow, by decide +kernel, _, rfl⟩

theorem witness_PxGeomAnswersThePassSize :
    7 < (8#32).toNat ∧ (7#32).toNat ≤ 7 ∧ pxFaulted.px.phase = .fault ∧ fresh.px.phase ≠ .fault ∧
    dimOk fresh.px.width = false ∧ dimOk (pxIdle [] 7 11 8 1 0).px.width = true ∧
    dimOk (pxIdle [] 7 11 8 1 0).px.height = true := by decide +kernel

theorem witness_FaultedUnitDoesNothing :
    ckFaulted.ck.phase = .fault ∧ workOf .ckFinish = some .ck ∧ pxFaulted.px.phase = .fault ∧
    workOf (.pxGeom 0#32) = some .px ∧ Instr.wf (.pxGeom 0#32) = true ∧ 0x10 ≤ (0x10#8).toNat ∧ (0x1A#8).toNat ≤ 0x1A ∧
    0x20 ≤ (0x20#8).toNat ∧ (0x30#8).toNat ≤ 0x30 := by decide +kernel

/-- A faulted unit with a command that is not its reset presented. -/
theorem witness_OnlyResetLeavesFault :
    (∃ t, step (withAction (.command 0x1100000000000000#64) ckFaulted) = .next t) ∧
    (∀ rest, (withAction (.command 0x1100000000000000#64) ckFaulted).inbox ≠ .reset :: rest) ∧
    ckFaulted.ck.phase = .fault ∧ decode 0x1100000000000000#64 ≠ .command .ckReset ∧
    pxFaulted.px.phase = .fault ∧ decode 0x2300000000000000#64 ≠ .command .pxReset :=
  ⟨⟨_, rfl⟩, fun _ h => (by cases h), by decide +kernel⟩

theorem witness_FaultLogRecordsEveryError :
    (∃ t, exec .ckFinish fresh = .next t) ∧ (after (exec .ckFinish fresh)).resp = some ⟨.error .eSeq, 0#32⟩ :=
  ⟨⟨_, rfl⟩, by decide +kernel⟩

/-- PX.RUN of a stream cut in its second row. -/
theorem witness_ErrorsChangeNothingElse :
    (∃ t, exec .pxRun (pxRunning [0, 1, 2, 0, 3] 2 2 0 0 0 0 []) = .next t) ∧
    (after (exec .pxRun (pxRunning [0, 1, 2, 0, 3] 2 2 0 0 0 0 []))).resp = some ⟨.error .eSltrunc, 0#32⟩ :=
  ⟨⟨_, rfl⟩, by decide +kernel⟩

theorem witness_UnitsShareNothing :
    (∃ t, exec .ckRdall (ckOpened text 8 3) = .next t) ∧ workOf .ckRdall = some .ck ∧
    (∃ t, exec .pxRow firstRow = .next t) ∧ workOf .pxRow = some .px := ⟨⟨_, rfl⟩, rfl, ⟨_, rfl⟩, rfl⟩

/-- Two states that differ in unit PX. -/
theorem witness_CkSeesOnlyItsOwnUnit :
    workOf .ckOpen = some .ck ∧ fresh.ck = pxFaulted.ck ∧ fresh.cks = pxFaulted.cks ∧ fresh.po = pxFaulted.po ∧
    fresh ≠ pxFaulted ∧ (∃ t, exec .ckOpen fresh = .next t) ∧ ∃ t, exec .ckOpen pxFaulted = .next t :=
  ⟨rfl, rfl, rfl, rfl, by decide +kernel, ⟨_, rfl⟩, _, rfl⟩

theorem witness_UnwrittenPixelIsAFaultOfTheReader :
    fresh.pix.read 0 = none ∧ PixGrid.read [(0, 7#64)] 0 = some 7#64 ∧
    (∃ t, exec .pxStart (pxIdle [] 1 1 8 1 0) = .next t) ∧
    (after (exec .pxStart (pxIdle [] 1 1 8 1 0))).resp = some ⟨.ok, 0#32⟩ :=
  ⟨rfl, rfl, ⟨_, rfl⟩, by decide +kernel⟩

theorem witness_ResetIsLegal : (0xFFFFFFFF#32 : Word) ≠ 0#32 ∧ (1#32 : Word) ≠ 0#32 := by decide

/-- The same state with PX.ROW presented. -/
theorem witness_EveryStepKeepsTheStateLegal :
    Inv (withAction (.command 0x2200000000000000#64) firstRow) ∧
    ∃ t, step (withAction (.command 0x2200000000000000#64) firstRow) = .next t where
  left := {
    spaces := by constructor <;> decide +kernel
    global := by constructor <;> decide +kernel
    ck := ⟨by decide +kernel, by decide +kernel, by decide +kernel, by decide +kernel, .inl rfl⟩
    px := ⟨by decide +kernel, by decide +kernel, fun _ => by constructor <;> decide +kernel, by decide +kernel⟩ }
  right := ⟨_, rfl⟩

theorem witness_EveryCommandKeepsThePixelProgress :
    Inv firstPass ∧ PixProgress firstPass ∧ firstPass.px.phase = .run ∧ ∃ t, exec .pxRow firstPass = .next t :=
  ⟨inv_firstPass, progress_firstPass, by decide +kernel, _, rfl⟩

theorem witness_DoneMeansEveryPixelIsWritten :
    Inv firstPass ∧ PixProgress firstPass ∧ firstPass.px.phase = .run ∧ (∃ t, exec .pxRun firstPass = .next t) ∧
    (after (exec .pxRun firstPass)).px.phase = .done :=
  ⟨inv_firstPass, progress_firstPass, by decide +kernel, ⟨_, rfl⟩, by decide +kernel⟩

end Sys2Proof.Tests
end

section
/-! The illegal command words (R85): what each operand check rejects, what the decoder rejects, and the step on such a
word. -/

namespace Sys2Proof

/-- A byte is no register number when the decoder's register table has no row for it (R22). -/
theorem Reg.ofNum_eq_none_iff (rn : Byte) : Reg.ofNum rn = none ↔ ∀ r : Reg, r.num ≠ rn := by
  constructor
  · rintro hnone r rfl
    simp at hnone
  · intro hne
    cases hr : Reg.ofNum rn with
    | none => rfl
    | some r => exact absurd (Reg.num_of_ofNum hr) (hne r)

/-- The seventeen OPC values of R83 are the only ones with a command. -/
theorem Opcode.ofByte_eq_none_iff (b : Byte) :
    Opcode.ofByte b = none ↔
      b ∉ [0x00#8, 0x01#8, 0x02#8, 0x10#8, 0x11#8, 0x12#8, 0x13#8, 0x14#8, 0x15#8, 0x16#8, 0x17#8, 0x18#8,
        0x20#8, 0x21#8, 0x22#8, 0x23#8, 0x24#8] := by
  revert b
  decide +kernel

theorem plainCommand_illegal_iff (i : Instr) (rn : Byte) (imm : Word) :
    (∃ why, plainCommand i rn imm = .illegal why) ↔ rn ≠ 0#8 ∨ imm ≠ 0#32 := by
  unfold plainCommand
  split
  · simp [*]
  · split <;> simp_all

theorem immCommand_illegal_iff (i : Instr) (rn : Byte) : (∃ why, immCommand i rn = .illegal why) ↔ rn ≠ 0#8 := by
  unfold immCommand
  split <;> simp_all

theorem assemble_rdr_illegal_iff (rn : Byte) (imm : Word) :
    (∃ why, assemble .rdr rn imm = .illegal why) ↔ imm ≠ 0#32 ∨ ∀ r : Reg, r.num ≠ rn := by
  rw [← Reg.ofNum_eq_none_iff]
  simp only [assemble, Option.isNone_iff_eq_none]
  split
  · simp [*]
  · split <;> simp_all

theorem assemble_wrr_illegal_iff (rn : Byte) (imm : Word) :
    (∃ why, assemble .wrr rn imm = .illegal why) ↔ ∀ r : Reg, r.num ≠ rn := by
  rw [← Reg.ofNum_eq_none_iff]
  simp only [assemble, Option.isNone_iff_eq_none]
  split <;> simp_all

theorem assemble_pxGeom_illegal_iff (rn : Byte) (imm : Word) :
    (∃ why, assemble .pxGeom rn imm = .illegal why) ↔ rn ≠ 0#8 ∨ 7 < imm.toNat := by
  simp only [assemble]
  split
  · simp [*]
  · split <;> simp_all

/-- The operand clauses of R85, for a word whose OPC is a command's. -/
theorem assemble_illegal_iff (op : Opcode) (rn : Byte) (imm : Word) :
    (∃ why, assemble op rn imm = .illegal why) ↔
      (rn ≠ 0#8 ∧ op.byte ≠ 0x01#8 ∧ op.byte ≠ 0x02#8) ∨
      (imm ≠ 0#32 ∧ op.byte ≠ 0x02#8 ∧ op.byte ≠ 0x15#8 ∧ op.byte ≠ 0x24#8) ∨
      ((op.byte = 0x01#8 ∨ op.byte = 0x02#8) ∧ ∀ r : Reg, r.num ≠ rn) ∨
      (op.byte = 0x24#8 ∧ 7 < imm.toNat) := by
  cases op
  case rdr => simp [assemble_rdr_illegal_iff, Opcode.byte]
  case wrr => simp [assemble_wrr_illegal_iff, Opcode.byte]
  case pxGeom => simp [assemble_pxGeom_illegal_iff, Opcode.byte]
  case ckRdn => simp [assemble, immCommand_illegal_iff, Opcode.byte]
  all_goals simp [assemble, plainCommand_illegal_iff, Opcode.byte]

/-- The decoder rejects a word for its ZERO field, for its OPC, or for the operands of the command it names. -/
theorem decode_illegal_iff (w : CmdWord) :
    (∃ why, decode w = .illegal why) ↔
      zeroField w ≠ 0#16 ∨ Opcode.ofByte (opcField w) = none ∨
      ∃ op, Opcode.ofByte (opcField w) = some op ∧ ∃ why, assemble op (rnField w) (immField w) = .illegal why := by
  unfold decode
  split
  · simp [*]
  · split <;> simp_all

namespace Machine

/-- The state after a refused illegal word: log bit 0 and the response, nothing else (R85, R203). -/
theorem illegalWord_eq (s : State) :
    illegalWord s =
      { s with faultlog := s.faultlog ||| 0x1#32, resp := some ⟨.error .eIllcmd, 0#32⟩ } := rfl

theorem step_illegal {s : State} {w : CmdWord} {rest : List HostAction} {why : Illegal}
    (hinbox : s.inbox = .command w :: rest) (hw : decode w = .illegal why) :
    step s = .next (illegalWord (takeAction rest s)) := by
  simp only [step, hinbox, hw]

end Machine

/-- Settles O5: an OPC outside R83's table is a clause of its own; under an OPC of the table the other clauses are the
ZERO test and the command's operand checks. -/
theorem illegalWordsAreRefused : Obligations.IllegalWordsAreRefused := by
  refine ⟨fun w => ?_, fun s w rest hinbox ⟨why, hw⟩ => ?_⟩
  · rw [decode_illegal_iff, ← Opcode.ofByte_eq_none_iff]
    cases hop : Opcode.ofByte (opcField w) with
    | none => simp
    | some op => simp [← Opcode.byte_of_ofByte hop, assemble_illegal_iff]
  · rw [Machine.step_illegal hinbox hw, Machine.illegalWord_eq]
    rfl

end Sys2Proof
end

section
/-! The global commands (40_global_commands.md): RDR and WRR of a register by its name, RDR and WRR of a number that is no
register, the status registers put together from their fields, and the registers whose writability turns on PX's phase. -/

namespace Sys2Proof

/-- The PX configuration: the registers of R39 to R43, writable in PX phases IDLE and DONE. -/
def Reg.pxConfig : List Reg := [.pxPos, .pxLen, .pxWidth, .pxHeight, .pxDepth, .pxChans, .pxIlace]

/-- The PX configuration has the numbers 0x22 to 0x28 (R22). -/
theorem Reg.exists_pxConfig_num {rn : Byte} (hlo : 0x22 ≤ rn.toNat) (hhi : rn.toNat ≤ 0x28) :
    ∃ r ∈ Reg.pxConfig, r.num = rn := by
  revert rn
  decide +kernel

namespace Machine

variable {s : State} {r : Reg}

/-! ## The status registers (R26, R37) -/

theorem ckStatus_eq_fields (c : CkUnit) :
    ckStatus c = (0#24) ++ BitVec.ofBool (ckSafe c.type) ++ (0#1) ++ BitVec.ofBool (ckPriv c.type) ++
      BitVec.ofBool (ckAnc c.type) ++ BitVec.ofBool c.strnul ++ BitVec.ofBool c.eos ++ c.phase.code.setWidth 2 := by
  unfold ckStatus
  generalize ckSafe c.type = safe, ckPriv c.type = priv, ckAnc c.type = anc, c.strnul = strnul, c.eos = eos
  cases c.phase <;> revert safe priv anc strnul eos <;> decide

theorem pxStatus_eq_fields (p : PxUnit) : pxStatus p = (0#30) ++ p.phase.code.setWidth 2 := by
  unfold pxStatus
  cases p.phase <;> rfl

/-! ## RDR and WRR (R101, R102) -/

theorem exec_rdr_num (r : Reg) (s : State) : exec (.rdr r.num) s = .next (respond .ok (readReg r s) s) := by
  simp [exec, execRdr]

theorem exec_rdr_noRegister {rn : Byte} (h : ∀ r : Reg, r.num ≠ rn) (s : State) :
    exec (.rdr rn) s = .next (refuse .eIllcmd s) := by
  simp [exec, execRdr, (Reg.ofNum_eq_none_iff rn).mpr h]

theorem exec_wrr_writable (h : writable r s = true) (imm : Word) :
    exec (.wrr r.num imm) s = .next (respond .ok imm (writeReg r imm s)) := by
  simp [exec, execWrr, h]

theorem exec_wrr_notWritable (h : writable r s ≠ true) (imm : Word) :
    exec (.wrr r.num imm) s = .next (refuse .eAccess s) := by
  simp [exec, execWrr, h]

theorem exec_wrr_noRegister {rn : Byte} (h : ∀ r : Reg, r.num ≠ rn) (imm : Word) (s : State) :
    exec (.wrr rn imm) s = .next (refuse .eIllcmd s) := by
  simp [exec, execWrr, (Reg.ofNum_eq_none_iff rn).mpr h]

/-! ## When a register is writable (R102) -/

theorem writable_ckPos_iff : writable .ckPos s = true ↔ s.ck.phase = .idle := by simp [writable]

theorem writable_ckLen_iff : writable .ckLen s = true ↔ s.ck.phase ≠ .fault := by
  cases h : s.ck.phase <;> simp [writable, h]

theorem writable_pxConfig_iff (hr : r ∈ Reg.pxConfig) :
    writable r s = true ↔ s.px.phase = .idle ∨ s.px.phase = .done := by
  have hw : writable r s = pxConfigurable s := by
    simp only [Reg.pxConfig, List.mem_cons, List.not_mem_nil, or_false] at hr
    rcases hr with rfl | rfl | rfl | rfl | rfl | rfl | rfl <;> rfl
  simp [hw, pxConfigurable]

/-- No other register is ever writable. -/
theorem mem_of_writable (h : writable r s = true) : r ∈ .ckPos :: .ckLen :: Reg.pxConfig := by
  cases r <;> simp [writable, Reg.pxConfig] at h ⊢

end Machine

open Machine

/-- Settles O9: NOP is defined as its response alone. -/
theorem nopAnswersAndChangesNothing : Obligations.NopAnswersAndChangesNothing := fun _ => rfl

/-- Settles O10: RDR answers what the register reads as; only the two status registers are put together from fields, the
others read as the statement lists them. -/
theorem rdrAnswersTheRegister : Obligations.RdrAnswersTheRegister := by
  refine fun s rn => ⟨fun r => by cases r <;> rfl, ?_, fun h => exec_rdr_noRegister h s⟩
  rintro r rfl
  rw [exec_rdr_num]
  cases r
  case ckStatus =>
    simp only [readReg, ckStatus_eq_fields]
    cases s.ck.phase <;> rfl
  case pxStatus =>
    simp only [readReg, pxStatus_eq_fields]
    cases s.px.phase <;> rfl
  all_goals rfl

/-- Settles O11: each clause is WRR of a register the table of R102 lets WRR write, or does not, in the clause's phases. -/
theorem wrrStoresWhereThePhaseAllows : Obligations.WrrStoresWhereThePhaseAllows := by
  intro s imm
  refine ⟨fun h => exec_wrr_writable (writable_ckPos_iff.mpr h) imm,
    fun h => exec_wrr_writable (writable_ckLen_iff.mpr h) imm, fun h => ?_,
    fun h => exec_wrr_notWritable (mt writable_ckPos_iff.mp h) imm,
    fun h => exec_wrr_notWritable (fun hw => writable_ckLen_iff.mp hw h) imm, fun h rn hlo hhi => ?_,
    fun r hr => exec_wrr_notWritable (mt mem_of_writable hr) imm, fun rn h => exec_wrr_noRegister h imm s⟩
  · have stores {r : Reg} (hr : r ∈ Reg.pxConfig) := exec_wrr_writable ((writable_pxConfig_iff hr).mpr h) imm
    exact ⟨stores (r := .pxPos) (by decide), stores (r := .pxLen) (by decide), stores (r := .pxWidth) (by decide),
      stores (r := .pxHeight) (by decide), stores (r := .pxDepth) (by decide), stores (r := .pxChans) (by decide),
      stores (r := .pxIlace) (by decide)⟩
  · obtain ⟨r, hr, rfl⟩ := Reg.exists_pxConfig_num hlo hhi
    refine exec_wrr_notWritable (fun hw => ?_) imm
    have := (writable_pxConfig_iff hr).mp hw
    rcases h with h | h <;> simp [h] at this

end Sys2Proof
end

section
/-! Unit CK's commands (41_chunk_checker.md), the layer below their statements: what each phase makes of a command, the next
states of the effects shared by the reads, and the outcomes of each command's own tests, one lemma each. -/

namespace Sys2Proof.Machine

variable {s : State}

/-! ## Bytes and words -/

/-- The first bytes of a read are a shorter read. -/
theorem Memory.take_readN (m : Memory) (addr : Nat) {k n : Nat} (h : k ≤ n) :
    (m.readN addr n).take k = m.readN addr k := by
  obtain ⟨d, rfl⟩ := Nat.exists_eq_add_of_le h
  rw [Memory.readN_add, List.take_left' (by simp)]

theorem ofNat_toNat_add (w : Word) (n : Nat) : BitVec.ofNat 32 (w.toNat + n) = w + BitVec.ofNat 32 n := by
  simp [BitVec.ofNat_add]

theorem ofNat_toNat_sub (w : Word) {n : Nat} (h : n ≤ w.toNat) :
    BitVec.ofNat 32 (w.toNat - n) = w - BitVec.ofNat 32 n := by
  rw [← BitVec.ofNat_sub_ofNat_of_le w.toNat n (by omega) h]
  simp

/-- Bit 31 of the length field, as a comparison (R115). -/
theorem lengthField_top (m : Memory) (addr : Nat) :
    (beWord (m.readN addr 4)).getLsbD 31 = decide (2 ^ 31 ≤ beNat (m.readN addr 4)) := beWord_top (by simp)

/-! ## What each phase makes of a CK command (R90, R205) -/

/-- A CK command that requires phase p, and q is the one other phase that is not FAULT. -/
theorem exec_ckCommand_byPhase {i : Instr} {p q : CkPhase} {body : State → State}
    (he : exec i s = .next (ckCommand p body s)) (hp : p ≠ .fault) (hq : q ≠ .fault) (hqp : q ≠ p) :
    (s.ck.phase = .fault → exec i s = .next { s with resp := some ⟨.faulted, s.ck.err⟩ }) ∧
    (s.ck.phase = q → exec i s = .next (refuse .eSeq s)) ∧
    (s.ck.phase = p → exec i s = .next (body s)) := by
  rw [he]
  refine ⟨fun h => ?_, fun h => ?_, fun h => ?_⟩
  · rw [ckCommand_fault h]
    rfl
  · rw [ckCommand_wrongPhase (h ▸ hq) (h ▸ hqp)]
  · rw [ckCommand_runs (h ▸ hp) h]

/-- The commands inside a chunk: they require phase PAYLOAD. -/
theorem exec_payloadCommand_byPhase {i : Instr} {body : State → State}
    (he : exec i s = .next (ckCommand .payload body s)) :
    (s.ck.phase = .fault → exec i s = .next { s with resp := some ⟨.faulted, s.ck.err⟩ }) ∧
    (s.ck.phase = .idle → exec i s = .next (refuse .eSeq s)) ∧
    (s.ck.phase = .payload → exec i s = .next (body s)) :=
  exec_ckCommand_byPhase he (by decide) (by decide) (by decide)

/-- CK.RD8, CK.RD16 and CK.RD32 are one command of their number of bytes (R120 to R122). -/
theorem exec_readInt {i : Instr} {n : Nat}
    (hi : (i = .ckRd8 ∧ n = 1) ∨ (i = .ckRd16 ∧ n = 2) ∨ (i = .ckRd32 ∧ n = 4)) (s : State) :
    exec i s = .next (ckCommand .payload (ckPre n (ckReadInt n)) s) := by
  rcases hi with ⟨rfl, rfl⟩ | ⟨rfl, rfl⟩ | ⟨rfl, rfl⟩ <;> rfl

/-! ## The effects of the reads (R117, R120 to R125) -/

theorem ckReadInt_eq {n : Nat} (h : n ≤ s.ck.remain.toNat) :
    ckReadInt n s = { s with
      ck := { s.ck with
        crcacc := (s.cks.readN s.ck.pos.toNat n).foldl crcUpdate s.ck.crcacc
        pos := BitVec.ofNat 32 (s.ck.pos.toNat + n)
        remain := BitVec.ofNat 32 (s.ck.remain.toNat - n)
        data := BitVec.ofNat 32 (beNat (s.cks.readN s.ck.pos.toNat n)) }
      resp := some ⟨.ok, BitVec.ofNat 32 (beNat (s.cks.readN s.ck.pos.toNat n))⟩ } := by
  rw [ofNat_toNat_add, ofNat_toNat_sub _ h]
  rfl

theorem ckForward_eq {n k : Nat} (h : k ≤ n) :
    ckForward n k s = { s with
      ck := { s.ck with
        crcacc := (s.cks.readN s.ck.pos.toNat n).foldl crcUpdate s.ck.crcacc
        pos := s.ck.pos + BitVec.ofNat 32 n
        remain := s.ck.remain - BitVec.ofNat 32 n
        poPos := s.ck.poPos + BitVec.ofNat 32 k }
      po := s.po ++ s.cks.readN s.ck.pos.toNat k
      resp := some ⟨.ok, BitVec.ofNat 32 k⟩ } := by
  simp [ckForward, respond, poAppend, ckConsume, ckPayload, crcBytes, Memory.take_readN _ _ h]

/-- The forwarding read of all its n bytes, n a register's value (R123). -/
theorem ckForward_word (n : Word) (s : State) :
    ckForward n.toNat n.toNat s = { s with
      ck := { s.ck with
        crcacc := (s.cks.readN s.ck.pos.toNat n.toNat).foldl crcUpdate s.ck.crcacc
        pos := s.ck.pos + n
        remain := s.ck.remain - n
        poPos := s.ck.poPos + n }
      po := s.po ++ s.cks.readN s.ck.pos.toNat n.toNat
      resp := some ⟨.ok, n⟩ } := by
  simp [ckForward_eq]

/-- The forwarding read of the whole budget (R124, R125). -/
theorem ckForward_remain (s : State) :
    ckForward s.ck.remain.toNat s.ck.remain.toNat s = { s with
      ck := { s.ck with
        crcacc := (s.cks.readN s.ck.pos.toNat s.ck.remain.toNat).foldl crcUpdate s.ck.crcacc
        pos := s.ck.pos + s.ck.remain
        remain := 0#32
        poPos := s.ck.poPos + s.ck.remain }
      po := s.po ++ s.cks.readN s.ck.pos.toNat s.ck.remain.toNat
      resp := some ⟨.ok, s.ck.remain⟩ } := by
  simp [ckForward_word]

/-! ## The tests of CK.OPEN (R119) -/

theorem ckOpenBody_noChunk (h : ckAvail s = 0) : ckOpenBody s = ckNoChunk s := by
  simp [ckOpenBody, h]

theorem ckOpenBody_shortLength (h : 0 < ckAvail s) (h4 : ckAvail s < 4) : ckOpenBody s = raise .ck .eTrunc s := by
  simp [ckOpenBody, h.ne', h4]

/-- With a length to read, the tests that come after the length's own availability. -/
theorem ckOpenBody_ofLength (h : 4 ≤ ckAvail s) :
    ckOpenBody s =
      if 2 ^ 31 ≤ beNat (s.cks.readN s.ck.pos.toNat 4) then raise .ck .eLength s
      else if ckAvail s < 8 then raise .ck .eTrunc s
      else if typeValid (s.cks.readN (s.ck.pos.toNat + 4) 4) then
        ckBegin (beWord (s.cks.readN s.ck.pos.toNat 4)) (s.cks.readN (s.ck.pos.toNat + 4) 4) s
      else raise .ck .eType s := by
  have h0 : ckAvail s ≠ 0 := by omega
  simp only [ckOpenBody, h0, if_false, Nat.not_lt.mpr h, lengthField_top, decide_eq_true_eq]
  cases typeValid (s.cks.readN (s.ck.pos.toNat + 4) 4) <;> rfl

theorem ckBegin_eq (len : Word) (t : List Byte) (s : State) :
    ckBegin len t s = { s with
      ck := { s.ck with
        crcacc := crcBytes 0xFFFFFFFF#32 t
        pos := BitVec.ofNat 32 (s.ck.pos.toNat + 8)
        remain := len
        declen := len
        type := BitVec.ofNat 32 (beNat t)
        phase := .payload
        eos := false
        strnul := false }
      resp := some ⟨.ok, len⟩ } := by
  rw [ofNat_toNat_add]
  rfl

/-! ## The tests of CK.RDALL and CK.RDSTR (R124, R125) -/

theorem ckRdallBody_trunc (h : ckAvail s < s.ck.remain.toNat) : ckRdallBody s = raise .ck .eTrunc s := by
  simp [ckRdallBody, h]

theorem ckRdallBody_runs (h : s.ck.remain.toNat ≤ ckAvail s) :
    ckRdallBody s = ckForward s.ck.remain.toNat s.ck.remain.toNat s := by
  simp [ckRdallBody, Nat.not_lt.mpr h]

/-- The first NUL among the next n payload bytes, by the bytes of CKS. -/
theorem firstNul_ckPayload {n z : Nat} (hz : z < n) (h0 : s.cks.read (s.ck.pos.toNat + z) = 0#8)
    (hk : ∀ k, k < z → s.cks.read (s.ck.pos.toNat + k) ≠ 0#8) : firstNul (ckPayload n s) = some z := by
  apply firstNul_some (by simpa [ckPayload] using hz)
  · simpa [ckPayload, Memory.getElem_readN] using h0
  · simpa [ckPayload, Memory.getElem_readN] using hk

/-- No NUL among the next n payload bytes, by the bytes of CKS. -/
theorem firstNul_ckPayload_none {n : Nat} (hk : ∀ k, k < n → s.cks.read (s.ck.pos.toNat + k) ≠ 0#8) :
    firstNul (ckPayload n s) = none :=
  firstNul_none (by simpa [ckPayload, Memory.getElem_readN] using hk)

theorem ckRdstrBody_nul {z : Nat} (hz : z < s.ck.remain.toNat) (ha : z < ckAvail s)
    (h0 : s.cks.read (s.ck.pos.toNat + z) = 0#8) (hk : ∀ k, k < z → s.cks.read (s.ck.pos.toNat + k) ≠ 0#8) :
    ckRdstrBody s = setStrnul true (ckForward (z + 1) z s) := by
  have hnul := firstNul_ckPayload (n := min s.ck.remain.toNat (ckAvail s)) (lt_min hz ha) h0 hk
  simp only [ckRdstrBody, hnul]

/-- With no NUL inside budget and stream the string read is CK.RDALL, but for STRNUL. -/
theorem ckRdstrBody_noNul
    (hk : ∀ k, k < s.ck.remain.toNat → k < ckAvail s → s.cks.read (s.ck.pos.toNat + k) ≠ 0#8) :
    ckRdstrBody s =
      if ckAvail s < s.ck.remain.toNat then raise .ck .eTrunc s
      else setStrnul false (ckForward s.ck.remain.toNat s.ck.remain.toNat s) := by
  have hnone := firstNul_ckPayload_none (s := s) (n := min s.ck.remain.toNat (ckAvail s))
    fun k h => hk k (lt_min_iff.mp h).1 (lt_min_iff.mp h).2
  simp only [ckRdstrBody, hnone]

/-! ## The tests of CK.FINISH (R126) -/

theorem ckFinishBody_budget (h : s.ck.remain ≠ 0#32) : ckFinishBody s = raise .ck .eBudget s := by
  simp [ckFinishBody, h]

theorem ckFinishBody_trunc (h : s.ck.remain = 0#32) (ha : ckAvail s < 4) :
    ckFinishBody s = raise .ck .eTrunc s := by
  simp [ckFinishBody, h, ha]

theorem ckFinishBody_crc (h : s.ck.remain = 0#32) (ha : 4 ≤ ckAvail s)
    (hc : beWord (s.cks.readN s.ck.pos.toNat 4) ≠ crcFinal s.ck.crcacc) : ckFinishBody s = raise .ck .eCrc s := by
  simp [ckFinishBody, h, Nat.not_lt.mpr ha, hc]

theorem ckFinishBody_good (h : s.ck.remain = 0#32) (ha : 4 ≤ ckAvail s)
    (hc : beWord (s.cks.readN s.ck.pos.toNat 4) = crcFinal s.ck.crcacc) :
    ckFinishBody s = ckEnd (crcFinal s.ck.crcacc) s := by
  simp [ckFinishBody, h, Nat.not_lt.mpr ha, hc]

end Sys2Proof.Machine
end

section
/-! Unit CK's commands (41_chunk_checker.md): every outcome of every command, in the order of its tests. -/

namespace Sys2Proof

open Machine

/-- Settles O14: CK.RESET is defined as the reset values of R231, the empty PO and the response. -/
theorem ckResetRestoresTheUnit : Obligations.CkResetRestoresTheUnit := fun _ => rfl

/-- Settles O15: the phase, then the tests of CK.OPEN one after the other. -/
theorem ckOpenFollowsItsTests : Obligations.CkOpenFollowsItsTests := by
  intro s
  obtain ⟨hfault, hpayload, hidle⟩ := exec_ckCommand_byPhase (q := .payload) (show exec .ckOpen s = _ from rfl)
    (by decide) (by decide) (by decide)
  refine ⟨hfault, hpayload, fun hp => ?_⟩
  rw [hidle hp]
  refine ⟨fun h => ?_, fun h h4 => ?_, fun h hlen => ?_, fun h h8 hlen => ?_, fun h hlen ht => ?_, fun h hlen ht => ?_⟩
  · rw [ckOpenBody_noChunk h]
    rfl
  · rw [ckOpenBody_shortLength h h4]
  · rw [ckOpenBody_ofLength h, if_pos hlen]
  · rw [ckOpenBody_ofLength h, if_neg (Nat.not_le.mpr hlen), if_pos h8]
  · rw [ckOpenBody_ofLength (by omega), if_neg (Nat.not_le.mpr hlen), if_neg (Nat.not_lt.mpr h), ht]
    rfl
  · rw [ckOpenBody_ofLength (by omega), if_neg (Nat.not_le.mpr hlen), if_neg (Nat.not_lt.mpr h), if_pos ht,
      ckBegin_eq]
    rfl

/-- Settles O16: the phase, the preamble of R116, then the effects of an integer read of n bytes. -/
theorem ckIntegerReadsFollowTheirTests : Obligations.CkIntegerReadsFollowTheirTests := by
  intro s i n hi
  obtain ⟨hfault, hidle, hpayload⟩ := exec_payloadCommand_byPhase (exec_readInt hi s)
  refine ⟨hfault, hidle, fun hp => ?_⟩
  rw [hpayload hp]
  refine ⟨fun h => ?_, fun h ha => ?_, fun h ha => ?_⟩
  · rw [ckPre_budget h]
  · rw [ckPre_trunc h ha]
  · rw [ckPre_runs h ha, ckReadInt_eq h]

/-- Settles O17: the phase, the preamble of R116, then the forwarding read of n bytes. -/
theorem ckRdnForwardsTheBytes : Obligations.CkRdnForwardsTheBytes := by
  intro s n
  obtain ⟨hfault, hidle, hpayload⟩ := exec_payloadCommand_byPhase (show exec (.ckRdn n) s = _ from rfl)
  refine ⟨hfault, hidle, fun hp => ?_⟩
  rw [hpayload hp]
  refine ⟨fun h => ?_, fun h ha => ?_, fun h ha => ?_⟩
  · rw [ckPre_budget h]
  · rw [ckPre_trunc h ha]
  · rw [ckPre_runs h ha, ckForward_word]

/-- Settles O18: the phase, the stream's length, then the forwarding read of the whole budget. -/
theorem ckRdallForwardsAllThatRemains : Obligations.CkRdallForwardsAllThatRemains := by
  intro s
  obtain ⟨hfault, hidle, hpayload⟩ := exec_payloadCommand_byPhase (show exec .ckRdall s = _ from rfl)
  refine ⟨hfault, hidle, fun hp => ?_⟩
  rw [hpayload hp]
  refine ⟨fun h => ?_, fun h => ?_⟩
  · rw [ckRdallBody_trunc h]
  · rw [ckRdallBody_runs h, ckForward_remain]

/-- Settles O19: the bytes of CKS fix whether there is a first NUL in what the string read may look at; with one it
forwards the bytes before it, with none it does what CK.RDALL does, and clears STRNUL. -/
theorem ckRdstrStopsAtNulOrBudget : Obligations.CkRdstrStopsAtNulOrBudget := by
  intro s
  obtain ⟨hfault, hidle, hpayload⟩ := exec_payloadCommand_byPhase (show exec .ckRdstr s = _ from rfl)
  refine ⟨hfault, hidle, fun hp => ?_⟩
  rw [hpayload hp]
  refine ⟨fun z hz ha h0 hk => ?_, fun hk => ⟨fun h => ?_, fun h => ?_⟩⟩
  · rw [ckRdstrBody_nul hz ha h0 hk, ckForward_eq (Nat.le_succ z), ofNat_toNat_add, ofNat_toNat_sub _ hz]
    rfl
  · rw [ckRdstrBody_noNul hk, if_pos h]
  · rw [ckRdstrBody_noNul hk, if_neg (Nat.not_lt.mpr h), ckForward_remain]
    rfl

/-- Settles O20: the phase, then the tests of CK.FINISH; the comparison is of the trailer with CRCACC's final value. -/
theorem ckFinishComparesTheChecksum : Obligations.CkFinishComparesTheChecksum := by
  intro s
  obtain ⟨hfault, hidle, hpayload⟩ := exec_payloadCommand_byPhase (show exec .ckFinish s = _ from rfl)
  refine ⟨hfault, hidle, fun hp => ?_⟩
  rw [hpayload hp]
  refine ⟨fun h => ?_, fun h ha => ?_, fun h ha hc => ?_, fun h ha hc => ?_⟩
  · rw [ckFinishBody_budget h]
  · rw [ckFinishBody_trunc h ha]
  · rw [ckFinishBody_crc h ha hc]
  · rw [ckFinishBody_good h ha hc]
    rfl

end Sys2Proof
end

section
/-! PX.GEOM and the pass table (43_adam7_decomposer.md): the table's rows by mode and by selector, and the outcomes of the
command's tests, one lemma each. -/

namespace Sys2Proof.Machine

variable {s : State} {sel : Word}

/-! ## Rows of the pass table (R156) -/

theorem geom_sequential (p : Nat) : geom 0#32 p = geomSequential := if_neg (by decide)

theorem geom_interlaced (p : Nat) : geom 1#32 p = geomRow p := if_pos rfl

/-- Selectors 0 to 6 name their row of the table, selector 7 the sequential geometry (R162). -/
theorem geomSelected_eq {g : Geom} (hsel : sel.toNat ≤ 7) (htable : sel.toNat < 7 → g = geomRow sel.toNat)
    (hseq : sel.toNat = 7 → g = geomSequential) : geomSelected sel = g := by
  rcases hsel.lt_or_eq with h | h
  · exact (htable h).symm
  · rw [hseq h, geomSelected, h]
    rfl

/-! ## The tests of PX.GEOM (R162) -/

/-- The range test of a dimension, on the register's word. -/
theorem dimLegal_toNat (w : Word) : dimLegal w.toNat = dimOk w := rfl

theorem exec_pxGeom_noSelector (h : 7 < sel.toNat) : exec (.pxGeom sel) s = .next (refuse .eIllcmd s) :=
  congrArg Host.Outcome.next (if_pos h)

theorem exec_pxGeom_selector (h : sel.toNat ≤ 7) :
    exec (.pxGeom sel) s = .next (pxCommand [.idle, .run, .done] (pxGeomBody sel) s) :=
  congrArg Host.Outcome.next (if_neg (Nat.not_lt.mpr h))

/-- FAULT is the only phase that PX.GEOM does not allow. -/
theorem PxPhase.mem_of_ne_fault {p : PxPhase} (h : p ≠ .fault) : p ∈ [PxPhase.idle, .run, .done] := by
  cases p with
  | fault => exact absurd rfl h
  | idle | run | done => decide

theorem pxGeomBody_illegalSize (h : dimOk s.px.width = false ∨ dimOk s.px.height = false) :
    pxGeomBody sel s = refuse .eRange s :=
  if_pos (by simpa [dimLegal_toNat] using h)

theorem pxGeomBody_legalSize (hw : dimOk s.px.width = true) (hh : dimOk s.px.height = true) :
    pxGeomBody sel s =
      let d := passDim s.px.width.toNat s.px.height.toNat (geomSelected sel)
      respond .ok (BitVec.ofNat 32 d.1)
        { s with px := { s.px with qw := BitVec.ofNat 32 d.1, qh := BitVec.ofNat 32 d.2 } } :=
  if_neg (by simp [dimLegal_toNat, hw, hh])

end Sys2Proof.Machine
end

section
/-! The pass table and the pass sizing query (43_adam7_decomposer.md). -/

namespace Sys2Proof

open Machine

/-- Settles O46: the selector, the phase, the size, then the dimensions of the geometry the selector names. -/
theorem pxGeomAnswersThePassSize : Obligations.PxGeomAnswersThePassSize := by
  intro s sel
  refine ⟨exec_pxGeom_noSelector, fun hsel => ?_⟩
  rw [exec_pxGeom_selector hsel]
  refine ⟨fun hfault => ?_, fun hphase => ?_⟩
  · rw [pxCommand_fault hfault]
    rfl
  · rw [pxCommand_runs hphase (PxPhase.mem_of_ne_fault hphase)]
    refine ⟨fun hsize => ?_, fun hw hh g htable hseq => ?_⟩
    · rw [pxGeomBody_illegalSize hsize]
    · rw [pxGeomBody_legalSize hw hh, geomSelected_eq hsel htable hseq]
      rfl

/-- Settles O47: each row is defined so, and the two modes select the sequential geometry and the table. -/
theorem passTable : Obligations.PassTable :=
  ⟨rfl, rfl, rfl, rfl, rfl, rfl, rfl, geom_sequential, geom_interlaced⟩

end Sys2Proof
end

section
/-! PX.RUN's loop (45_pixel_commands.md R188): one row of the loop is one PX.ROW, and px_avail + 1 rows leave phase RUN. -/

namespace Sys2Proof.Machine

variable {s t : State} {n fuel : Nat}

theorem exec_pxRow_runs (h : s.px.phase = .run) : exec .pxRow s = .next (pxRowBody s) := execPxRow_runs h

theorem exec_pxRun_runs (h : s.px.phase = .run) : exec .pxRun s = .next (runRows (pxAvail s + 1) s) :=
  execPxRun_runs h

/-- PX.ROW in phase RUN, and then n more, is the row and then n more. -/
theorem execRows_succ_runs (h : s.px.phase = .run) (n : Nat) : execRows (n + 1) s = execRows n (pxRowBody s) :=
  execRows_succ (exec_pxRow_runs h)

/-! ## The loop, row by row -/

theorem runRows_succ_goes_on (h : (pxRowBody s).px.phase = .run) :
    runRows (fuel + 1) s = runRows fuel (pxRowBody s) := if_pos h

theorem runRows_succ_stops (h : (pxRowBody s).px.phase ≠ .run) : runRows (fuel + 1) s = pxRowBody s := if_neg h

/-- A row after which PX still runs took at least its filter byte from the stream. -/
theorem pxAvail_pxRowBody_lt (h : (pxRowBody s).px.phase = .run) : pxAvail (pxRowBody s) < pxAvail s := by
  obtain ⟨_, htaken, _⟩ := pxRowBody_goes_on h
  omega

/-! ## Issuing PX.ROW until the phase leaves RUN -/

/-- From s, n rows are issued in phase RUN, each of them, and the last one leaves phase RUN with t. -/
def RowsLeaveRun (n : Nat) (s t : State) : Prop :=
  execRows (n + 1) s = .next t ∧ t.px.phase ≠ .run ∧ ∀ j, j ≤ n → ∃ u, execRows j s = .next u ∧ u.px.phase = .run

theorem rowsLeaveRun_zero (hrun : s.px.phase = .run) (h : (pxRowBody s).px.phase ≠ .run) :
    RowsLeaveRun 0 s (pxRowBody s) := by
  refine ⟨execRows_succ_runs hrun 0, h, fun j hj => ?_⟩
  obtain rfl : j = 0 := by omega
  exact ⟨s, rfl, hrun⟩

theorem RowsLeaveRun.succ (hrun : s.px.phase = .run) (h : RowsLeaveRun n (pxRowBody s) t) :
    RowsLeaveRun (n + 1) s t := by
  obtain ⟨hrows, hleft, hbefore⟩ := h
  refine ⟨(execRows_succ_runs hrun (n + 1)).trans hrows, hleft, fun j hj => ?_⟩
  cases j with
  | zero => exact ⟨s, rfl, hrun⟩
  | succ j => exact execRows_succ_runs hrun j ▸ hbefore j (by omega)

/-- With more rows allowed than the stream has bytes, the loop ends because the phase leaves RUN, never for want of
rows. -/
theorem runRows_leavesRun (hrun : s.px.phase = .run) (hfuel : pxAvail s < fuel) :
    ∃ n, RowsLeaveRun n s (runRows fuel s) := by
  induction fuel generalizing s with
  | zero => omega
  | succ fuel ih =>
    by_cases hnext : (pxRowBody s).px.phase = .run
    · have hless := pxAvail_pxRowBody_lt hnext
      obtain ⟨n, hn⟩ := ih hnext (by omega)
      exact ⟨n + 1, runRows_succ_goes_on hnext ▸ hn.succ hrun⟩
    · exact ⟨0, runRows_succ_stops hnext ▸ rowsLeaveRun_zero hrun hnext⟩

end Sys2Proof.Machine
end

section
/-! Unit PX's row loop (45_pixel_commands.md). -/

namespace Sys2Proof

open Machine

/-- Settles O43: the phase, then by induction on the rows the loop may take; each row that goes on takes a byte of the
stream, so the rows allowed suffice. -/
theorem pxRunIsRepeatedPxRow : Obligations.PxRunIsRepeatedPxRow := by
  have hexec (s : State) : exec .pxRun s = .next (pxCommand [.run] pxRunBody s) := rfl
  refine fun s => ⟨fun hfault => ?_, fun hphase => ?_, fun hrun => ?_⟩
  · rw [hexec, pxCommand_fault hfault]
    rfl
  · rw [hexec]
    rcases hphase with h | h <;> rw [pxCommand_wrongPhase (by simp [h]) (by simp [h])]
  · obtain ⟨k, hrows, hleft, hbefore⟩ := runRows_leavesRun hrun (Nat.lt_succ_self (pxAvail s))
    exact ⟨k, _, exec_pxRun_runs hrun, hrows, hleft, hbefore⟩

end Sys2Proof
end

section
/-! A unit in phase FAULT (60_exceptions.md): every command of the unit but its reset tests the phase first, and none of the
unit's registers is writable. -/

namespace Sys2Proof

/-- The numbers of R22 each belong to a register. -/
theorem Reg.exists_num {rn : Byte} (h : regDefined rn = true) : ∃ r : Reg, r.num = rn := by
  obtain ⟨r, hr⟩ := Option.isSome_iff_exists.mp ((Reg.ofNum_isSome rn).trans h)
  exact ⟨r, Reg.num_of_ofNum hr⟩

theorem Reg.num_ge_of_mem_pxConfig : ∀ r ∈ Reg.pxConfig, 0x22 ≤ r.num.toNat := by decide

namespace Machine

variable {s : State} {i : Instr} {r : Reg} {rn : Byte}

/-! ## A unit's commands (R90, R205) -/

/-- Every CK command but CK.RESET passes the order of tests of R90. -/
theorem exec_eq_ckCommand (hi : workOf i = some .ck) :
    ∃ required body, ∀ s, exec i s = .next (ckCommand required body s) := by
  cases i
  case nop | rdr | wrr | ckReset | pxReset | pxStart | pxRow | pxRun | pxGeom => simp [workOf] at hi
  case ckOpen | ckRd8 | ckRd16 | ckRd32 | ckRdn | ckRdall | ckRdstr | ckFinish => exact ⟨_, _, fun _ => rfl⟩

/-- Every PX command but PX.RESET passes it too, PX.GEOM once its selector is a pass selector (R85). -/
theorem exec_eq_pxCommand (hi : workOf i = some .px) (hwf : i.wf = true) :
    ∃ allowed body, ∀ s, exec i s = .next (pxCommand allowed body s) := by
  cases i
  case nop | rdr | wrr | ckReset | ckOpen | ckRd8 | ckRd16 | ckRd32 | ckRdn | ckRdall | ckRdstr | ckFinish | pxReset =>
    simp [workOf] at hi
  case pxStart | pxRow | pxRun => exact ⟨_, _, fun _ => rfl⟩
  case pxGeom sel => exact ⟨_, _, fun _ => exec_pxGeom_selector (of_decide_eq_true hwf)⟩

theorem exec_ckFaulted (hfault : s.ck.phase = .fault) (hi : workOf i = some .ck) :
    exec i s = .next (answerFaulted .ck s) := by
  obtain ⟨required, body, hexec⟩ := exec_eq_ckCommand hi
  rw [hexec, ckCommand_fault hfault]

theorem exec_pxFaulted (hfault : s.px.phase = .fault) (hi : workOf i = some .px) (hwf : i.wf = true) :
    exec i s = .next (answerFaulted .px s) := by
  obtain ⟨allowed, body, hexec⟩ := exec_eq_pxCommand hi hwf
  rw [hexec, pxCommand_fault hfault]

/-! ## A unit's registers (R102, R205) -/

/-- The registers WRR may write while CK is in FAULT are PX's. -/
theorem num_ge_of_writable_ckFaulted (hfault : s.ck.phase = .fault) (hw : writable r s = true) :
    0x22 ≤ r.num.toNat := by
  rcases List.mem_cons.mp (mem_of_writable hw) with rfl | hr
  · simp [writable_ckPos_iff, hfault] at hw
  rcases List.mem_cons.mp hr with rfl | hr
  · simp [writable_ckLen_iff, hfault] at hw
  · exact Reg.num_ge_of_mem_pxConfig r hr

/-- The registers WRR may write while PX is in FAULT are CK's. -/
theorem num_le_of_writable_pxFaulted (hfault : s.px.phase = .fault) (hw : writable r s = true) :
    r.num.toNat ≤ 0x13 := by
  rcases List.mem_cons.mp (mem_of_writable hw) with rfl | hr
  · decide
  rcases List.mem_cons.mp hr with rfl | hr
  · decide
  · simp [writable_pxConfig_iff hr, hfault] at hw

theorem exec_wrr_ckFaulted (hfault : s.ck.phase = .fault) (hlo : 0x10 ≤ rn.toNat) (hhi : rn.toNat ≤ 0x1A) (imm : Word) :
    exec (.wrr rn imm) s = .next (refuse .eAccess s) := by
  obtain ⟨r, rfl⟩ := Reg.exists_num (rn := rn) (by simp [regDefined, hlo, hhi])
  refine exec_wrr_notWritable (fun hw => ?_) imm
  have := num_ge_of_writable_ckFaulted hfault hw
  omega

theorem exec_wrr_pxFaulted (hfault : s.px.phase = .fault) (hlo : 0x20 ≤ rn.toNat) (hhi : rn.toNat ≤ 0x30) (imm : Word) :
    exec (.wrr rn imm) s = .next (refuse .eAccess s) := by
  obtain ⟨r, rfl⟩ := Reg.exists_num (rn := rn) (by simp [regDefined, hlo, hhi])
  refine exec_wrr_notWritable (fun hw => ?_) imm
  have := num_le_of_writable_pxFaulted hfault hw
  omega

end Machine

open Machine

/-- Settles O48: the table is read off error by error; the changes and the response word are the definitions of `refuse`,
`raise` and `Response.word` at the error's own code and log bit. -/
theorem errorsChangeLogUnitAndResponse : Obligations.ErrorsChangeLogUnitAndResponse :=
  ⟨fun _ e _ => ⟨e.code, e.logBit, by cases e <;> rfl, rfl, rfl, rfl, rfl, rfl⟩, fun _ => ⟨rfl, rfl, rfl⟩⟩

/-- Settles O49: the global commands test no unit's phase; a unit's own commands test it first, and in FAULT the table of
R102 lets WRR write none of the unit's registers. -/
theorem faultedUnitDoesNothing : Obligations.FaultedUnitDoesNothing := fun s =>
  ⟨fun _ => ⟨nopAnswersAndChangesNothing s, fun r => exec_rdr_num r s⟩,
    fun hfault => ⟨fun _ hi => exec_ckFaulted hfault hi,
      fun _ imm hlo hhi => exec_wrr_ckFaulted hfault hlo hhi imm⟩,
    fun hfault => ⟨fun _ hi hwf => exec_pxFaulted hfault hi hwf,
      fun _ imm hlo hhi => exec_wrr_pxFaulted hfault hlo hhi imm⟩⟩

end Sys2Proof
end

section
/-! The command word (30_encoding.md): the opcode of a command, when the operand checks pass, and the words that meet a
row of the opcode map, field by field. -/

namespace Sys2Proof

/-- The opcode of a command (R83). -/
def Instr.opcode : Instr → Opcode
  | .nop => .nop
  | .rdr _ => .rdr
  | .wrr _ _ => .wrr
  | .ckReset => .ckReset
  | .ckOpen => .ckOpen
  | .ckRd8 => .ckRd8
  | .ckRd16 => .ckRd16
  | .ckRd32 => .ckRd32
  | .ckRdn _ => .ckRdn
  | .ckRdall => .ckRdall
  | .ckRdstr => .ckRdstr
  | .ckFinish => .ckFinish
  | .pxReset => .pxReset
  | .pxStart => .pxStart
  | .pxRow => .pxRow
  | .pxRun => .pxRun
  | .pxGeom _ => .pxGeom

/-- A row's match bits are the word of its OPC value with all operand fields 0 (R83). -/
theorem Instr.matchBits_eq (i : Instr) : i.matchBits = packWord i.opcode.byte 0#8 0#32 := by
  cases i <;> simp only [matchBits, opcode] <;> decide +kernel

theorem Opcode.byte_injective {op op' : Opcode} (h : op.byte = op'.byte) : op = op' :=
  Option.some.inj (by rw [← Opcode.ofByte_byte op, h, Opcode.ofByte_byte])

/-- Two rows have the same match bits when they are rows of the same opcode. -/
theorem Instr.matchBits_eq_iff (i j : Instr) : i.matchBits = j.matchBits ↔ i.opcode = j.opcode := by
  rw [matchBits_eq, matchBits_eq]
  refine ⟨fun h => Opcode.byte_injective ?_, fun h => h ▸ rfl⟩
  simpa using congrArg opcField h

/-! ## The operand checks (R81, R85) -/

theorem plainCommand_command {i j : Instr} {rn : Byte} {imm : Word} (h : plainCommand i rn imm = .command j) :
    rn = 0#8 ∧ imm = 0#32 ∧ i = j := by
  unfold plainCommand at h
  split_ifs at h with hrn himm
  exact ⟨not_not.mp hrn, not_not.mp himm, Decoded.command.inj h⟩

theorem immCommand_command {i j : Instr} {rn : Byte} (h : immCommand i rn = .command j) : rn = 0#8 ∧ i = j := by
  unfold immCommand at h
  split_ifs at h with hrn
  exact ⟨not_not.mp hrn, Decoded.command.inj h⟩

/-- What passes the operand checks is a well-formed command of the opcode, and the fields are those the encoder
writes. -/
theorem assemble_command {op : Opcode} {rn : Byte} {imm : Word} {i : Instr} (h : assemble op rn imm = .command i) :
    i.opcode = op ∧ encode i = packWord op.byte rn imm ∧ i.wf = true := by
  cases op
  case rdr =>
    simp only [assemble, Reg.ofNum_isNone] at h
    split_ifs at h with himm hrn
    cases h
    obtain rfl := not_not.mp himm
    exact ⟨rfl, rfl, by simpa [Instr.wf] using hrn⟩
  case wrr =>
    simp only [assemble, Reg.ofNum_isNone] at h
    split_ifs at h with hrn
    cases h
    exact ⟨rfl, rfl, by simpa [Instr.wf] using hrn⟩
  case pxGeom =>
    simp only [assemble] at h
    split_ifs at h with hrn hsel
    cases h
    obtain rfl := not_not.mp hrn
    exact ⟨rfl, rfl, by simpa [Instr.wf, selectorDefined] using hsel⟩
  case ckRdn =>
    obtain ⟨rfl, rfl⟩ := immCommand_command h
    exact ⟨rfl, rfl, rfl⟩
  all_goals
    obtain ⟨rfl, rfl, rfl⟩ := plainCommand_command h
    exact ⟨rfl, rfl, rfl⟩

theorem decoded_command_iff (d : Decoded) : (∃ i, d = .command i) ↔ ¬ ∃ why, d = .illegal why := by
  cases d <;> simp

/-- A word decodes to a command of an opcode exactly when its ZERO field is 0, its OPC is the opcode's, and none of the
operand clauses of R85 rejects it. -/
theorem decode_opcode_iff (w : CmdWord) (op : Opcode) :
    (∃ j, decode w = .command j ∧ j.opcode = op) ↔
      zeroField w = 0#16 ∧ opcField w = op.byte ∧ ¬ ∃ why, assemble op (rnField w) (immField w) = .illegal why := by
  rw [← decoded_command_iff]
  constructor
  · rintro ⟨j, hdecode, rfl⟩
    obtain ⟨hzero, op, hop, hj⟩ := decode_command hdecode
    obtain rfl := (assemble_command hj).1
    exact ⟨hzero, (Opcode.byte_of_ofByte hop).symm, j, hj⟩
  · rintro ⟨hzero, hop, j, hj⟩
    exact ⟨j, by simp [decode, hzero, hop, hj], (assemble_command hj).1⟩

/-! ## A word by its fields (R80) -/

theorem cmdWord_eq_iff (w v : CmdWord) :
    w = v ↔ opcField w = opcField v ∧ rnField w = rnField v ∧ zeroField w = zeroField v ∧ immField w = immField v := by
  refine ⟨fun h => h ▸ ⟨rfl, rfl, rfl, rfl⟩, fun ⟨hopc, hrn, hzero, himm⟩ => ?_⟩
  have key := w.isLt
  have key' := v.isLt
  replace hopc := congrArg BitVec.toNat hopc
  replace hrn := congrArg BitVec.toNat hrn
  replace hzero := congrArg BitVec.toNat hzero
  replace himm := congrArg BitVec.toNat himm
  simp only [opcField, rnField, zeroField, immField, BitVec.extractLsb'_toNat, Nat.shiftRight_eq_div_pow]
    at hopc hrn hzero himm
  exact BitVec.eq_of_toNat_eq (by omega)

theorem opcField_and (w m : CmdWord) : opcField (w &&& m) = opcField w &&& opcField m := BitVec.extractLsb'_and

theorem rnField_and (w m : CmdWord) : rnField (w &&& m) = rnField w &&& rnField m := BitVec.extractLsb'_and

theorem zeroField_and (w m : CmdWord) : zeroField (w &&& m) = zeroField w &&& zeroField m := BitVec.extractLsb'_and

theorem immField_and (w m : CmdWord) : immField (w &&& m) = immField w &&& immField m := BitVec.extractLsb'_and

/-- The fields of a row's mask: OPC and ZERO are fixed, RN and IMM where the command has no such operand (R83). -/
theorem Instr.mask_fields (i : Instr) :
    opcField i.mask = BitVec.allOnes 8 ∧ zeroField i.mask = BitVec.allOnes 16 ∧
    rnField i.mask = (if i.opcode = .rdr ∨ i.opcode = .wrr then 0#8 else BitVec.allOnes 8) ∧
    immField i.mask =
      (if i.opcode = .wrr ∨ i.opcode = .ckRdn ∨ i.opcode = .pxGeom then 0#32 else BitVec.allOnes 32) := by
  cases i <;> simp only [mask, opcode, reduceCtorEq, or_true, true_or, or_self, if_true, if_false] <;> decide +kernel

/-- A field that is 0 under a mask of all ones or of none. -/
theorem and_ite_ones_iff {n : Nat} (b : BitVec n) (p : Prop) [Decidable p] :
    (b &&& if p then 0#n else BitVec.allOnes n) = 0#n ↔ p ∨ b = 0#n := by
  split_ifs with h <;> simp [h]

/-- A word meets a row of the opcode map: OPC is the row's, ZERO is 0, and so are RN and IMM where the command has no
such operand. -/
theorem meets_row_iff (w : CmdWord) (i : Instr) :
    w &&& i.mask = i.matchBits ↔
      opcField w = i.opcode.byte ∧ zeroField w = 0#16 ∧
      (i.opcode = .rdr ∨ i.opcode = .wrr ∨ rnField w = 0#8) ∧
      (i.opcode = .wrr ∨ i.opcode = .ckRdn ∨ i.opcode = .pxGeom ∨ immField w = 0#32) := by
  obtain ⟨hopc, hzero, hrn, himm⟩ := i.mask_fields
  rw [cmdWord_eq_iff, opcField_and, rnField_and, zeroField_and, immField_and, hopc, hzero, hrn, himm,
    Instr.matchBits_eq, BitVec.and_allOnes, BitVec.and_allOnes, opcField_packWord, rnField_packWord,
    zeroField_packWord, immField_packWord, and_ite_ones_iff, and_ite_ones_iff]
  tauto

end Sys2Proof
end

section
/-! Decoder, encoder and opcode map agree (30_encoding.md). -/

namespace Sys2Proof

/-- Settles O2: the encoder writes the fields of `packWord`, the decoder reads them back and every operand check
passes. -/
theorem decodeOfEncodeIsTheCommand : Obligations.DecodeOfEncodeIsTheCommand := by
  intro i hwf
  cases i
  case rdr rn => simpa [encode, decode_packWord, assemble, Reg.ofNum_isNone, Instr.wf] using hwf
  case wrr rn imm => simpa [encode, decode_packWord, assemble, Reg.ofNum_isNone, Instr.wf] using hwf
  case pxGeom sel => simpa [encode, decode_packWord, assemble, Instr.wf, selectorDefined] using hwf
  case ckRdn n => simp [encode, decode_packWord, assemble, immCommand]
  all_goals simp [encode, decode_packWord, assemble, plainCommand]

/-- Settles O3: the operand checks fix every field but those the command carries. -/
theorem encodeOfDecodeIsTheWord : Obligations.EncodeOfDecodeIsTheWord := by
  intro w i h
  obtain ⟨hzero, op, hop, hassemble⟩ := decode_command h
  obtain ⟨-, hencode, hwf⟩ := assemble_command hassemble
  rw [hencode, Opcode.byte_of_ofByte hop]
  exact ⟨packWord_fields hzero, hwf⟩

/-- Settles O4: a row fixes OPC, ZERO and the fields the command has no operand in; the decoder tests these, and the
operands of RDR, WRR and PX.GEOM. Two rows that a word meets have its OPC, so they are of one opcode. -/
theorem matchAndMaskSelectTheCommand : Obligations.MatchAndMaskSelectTheCommand := by
  refine ⟨fun w i => ?_, fun w i j hi hj => ?_⟩
  · simp only [Instr.matchBits_eq_iff]
    rw [decode_opcode_iff, meets_row_iff, assemble_illegal_iff, ← Reg.ofNum_eq_none_iff]
    have hdefined : Reg.ofNum (rnField w) = none ↔ regDefined (rnField w) = false := by
      rw [← Reg.ofNum_isSome]; simp
    rw [hdefined]
    cases i <;> simp [Instr.opcode, Opcode.byte, selectorDefined] <;> tauto
  · rw [Instr.matchBits_eq_iff]
    obtain ⟨hi, -⟩ := (meets_row_iff w i).mp hi
    obtain ⟨hj, -⟩ := (meets_row_iff w j).mp hj
    exact Opcode.byte_injective (hi.symm.trans hj)

end Sys2Proof
end

section
/-! What a command can do, said once: the outcomes of every command as one relation. -/

namespace Sys2Proof.Machine

/-- The outcomes of a command, each with what its tests have established: a refusal, the answer of a faulted unit, a
fault of unit CK, or the command's own effects. -/
inductive Does : Instr → State → State → Prop
  | refuses (i : Instr) (e : ErrCode) (s : State) : Does i s (refuse e s)
  | ckFaulted {i : Instr} {s : State} (hi : workOf i = some .ck) (hp : s.ck.phase = .fault) :
      Does i s (answerFaulted .ck s)
  | pxFaulted {i : Instr} {s : State} (hi : workOf i = some .px) (hp : s.px.phase = .fault) :
      Does i s (answerFaulted .px s)
  | ckRaises {i : Instr} {s : State} {e : ErrCode} (hi : workOf i = some .ck) (hp : s.ck.phase ≠ .fault)
      (he : 22 ≤ e.word.toNat ∧ e.word.toNat ≤ 26) : Does i s (raise .ck e s)
  | nop (s : State) : Does .nop s (respond .ok 0#32 s)
  | rdr (r : Reg) (s : State) : Does (.rdr r.num) s (respond .ok (readReg r s) s)
  | wrr {r : Reg} {s : State} (hw : writable r s = true) (imm : Word) :
      Does (.wrr r.num imm) s (respond .ok imm (writeReg r imm s))
  | ckReset (s : State) : Does .ckReset s (respond .ok 0#32 (resetCk s))
  | noChunk {s : State} (hp : s.ck.phase = .idle) : Does .ckOpen s (ckNoChunk s)
  | begins {s : State} (hp : s.ck.phase = .idle) (ha : 8 ≤ ckAvail s)
      (hlen : beNat (s.cks.readN s.ck.pos.toNat 4) < 2 ^ 31)
      (ht : typeValid (s.cks.readN (s.ck.pos.toNat + 4) 4) = true) :
      Does .ckOpen s (ckBegin (beWord (s.cks.readN s.ck.pos.toNat 4)) (s.cks.readN (s.ck.pos.toNat + 4) 4) s)
  | readsInt {i : Instr} {s : State} {n : Nat} (hi : isPayloadRead i = true) (hp : s.ck.phase = .payload)
      (hb : n ≤ s.ck.remain.toNat) : Does i s (ckReadInt n s)
  | forwards {i : Instr} {s : State} {n k : Nat} (hi : isPayloadRead i = true) (hp : s.ck.phase = .payload)
      (hb : n ≤ s.ck.remain.toNat) (hk : k ≤ n) : Does i s (ckForward n k s)
  | forwardsString {i : Instr} {s : State} {n k : Nat} (b : Bool) (hi : isPayloadRead i = true)
      (hp : s.ck.phase = .payload) (hb : n ≤ s.ck.remain.toNat) (hk : k ≤ n) : Does i s (setStrnul b (ckForward n k s))
  | finishes {s : State} (hp : s.ck.phase = .payload) (hr : s.ck.remain = 0#32)
      (hc : beWord (s.cks.readN s.ck.pos.toNat 4) = crcFinal s.ck.crcacc) :
      Does .ckFinish s (ckEnd (beWord (s.cks.readN s.ck.pos.toNat 4)) s)
  | pxReset (s : State) : Does .pxReset s (respond .ok 0#32 (resetPx s))
  | starts {s : State} (hp : s.px.phase = .idle ∨ s.px.phase = .done) (hc : startError s = none) :
      Does .pxStart s (respond .ok 0#32 (beginRun s))
  | row {s : State} (hp : s.px.phase = .run) : Does .pxRow s (pxRowBody s)
  | rows {s : State} (hp : s.px.phase = .run) : Does .pxRun s (pxRunBody s)
  | geom {s : State} (hp : s.px.phase ≠ .fault) (sel qw qh v : Word) :
      Does (.pxGeom sel) s (respond .ok v { s with px := { s.px with qw := qw, qh := qh } })

variable {i : Instr} {s t : State} {body : State → State}

theorem workOf_of_isPayloadRead (hi : isPayloadRead i = true) : workOf i = some .ck := by
  cases i <;> simp [isPayloadRead] at hi <;> rfl

/-! ## The shared tests -/

theorem does_ckCommand {p : CkPhase} (hi : workOf i = some .ck)
    (h : s.ck.phase ≠ .fault → s.ck.phase = p → Does i s (body s)) : Does i s (ckCommand p body s) := by
  rcases ckCommand_cases p body s with ⟨hf, e⟩ | ⟨_, _, e⟩ | ⟨hf, hp, e⟩ <;> rw [e]
  · exact .ckFaulted hi hf
  · exact .refuses i _ s
  · exact h hf hp

theorem does_pxCommand {l : List PxPhase} (hi : workOf i = some .px)
    (h : s.px.phase ≠ .fault → s.px.phase ∈ l → Does i s (body s)) : Does i s (pxCommand l body s) := by
  rcases pxCommand_cases l body s with ⟨hf, e⟩ | ⟨_, _, e⟩ | ⟨hf, hp, e⟩ <;> rw [e]
  · exact .pxFaulted hi hf
  · exact .refuses i _ s
  · exact h hf hp

theorem does_ckPre {n : Nat} (hi : workOf i = some .ck) (hf : s.ck.phase ≠ .fault)
    (h : n ≤ s.ck.remain.toNat → n ≤ ckAvail s → Does i s (body s)) : Does i s (ckPre n body s) := by
  rcases ckPre_cases n body s with ⟨_, e⟩ | ⟨_, _, e⟩ | ⟨hb, ha, e⟩ <;> rw [e]
  · exact .ckRaises hi hf (by decide)
  · exact .ckRaises hi hf (by decide)
  · exact h hb ha

/-! ## Command by command -/

theorem does_readInt {n : Nat} (hi : isPayloadRead i = true) :
    Does i s (ckCommand .payload (ckPre n (ckReadInt n)) s) :=
  have hw := workOf_of_isPayloadRead hi
  does_ckCommand hw fun hf hp => does_ckPre hw hf fun hb _ => .readsInt hi hp hb

theorem does_rdr (rn : Byte) (h : exec (.rdr rn) s = .next t) : Does (.rdr rn) s t := by
  cases hr : Reg.ofNum rn with
  | none =>
    simp only [exec, execRdr, hr, Host.Outcome.next.injEq] at h
    exact h ▸ .refuses _ _ s
  | some r =>
    obtain rfl := Reg.num_of_ofNum hr
    rw [exec_rdr_num, Host.Outcome.next.injEq] at h
    exact h ▸ .rdr r s

theorem does_wrr (rn : Byte) (imm : Word) (h : exec (.wrr rn imm) s = .next t) : Does (.wrr rn imm) s t := by
  cases hr : Reg.ofNum rn with
  | none =>
    simp only [exec, execWrr, hr, Host.Outcome.next.injEq] at h
    exact h ▸ .refuses _ _ s
  | some r =>
    obtain rfl := Reg.num_of_ofNum hr
    by_cases hw : writable r s = true
    · rw [exec_wrr_writable hw, Host.Outcome.next.injEq] at h
      exact h ▸ .wrr hw imm
    · rw [exec_wrr_notWritable hw, Host.Outcome.next.injEq] at h
      exact h ▸ .refuses _ _ s

theorem does_ckOpenBody (hf : s.ck.phase ≠ .fault) (hp : s.ck.phase = .idle) : Does .ckOpen s (ckOpenBody s) := by
  by_cases h0 : ckAvail s = 0
  · rw [ckOpenBody_noChunk h0]
    exact .noChunk hp
  by_cases h4 : ckAvail s < 4
  · rw [ckOpenBody_shortLength (by omega) h4]
    exact .ckRaises rfl hf (by decide)
  rw [ckOpenBody_ofLength (by omega)]
  split_ifs with hlen h8 ht
  · exact .ckRaises rfl hf (by decide)
  · exact .ckRaises rfl hf (by decide)
  · exact .begins hp (by omega) (by omega) ht
  · exact .ckRaises rfl hf (by decide)

theorem does_ckRdallBody (hf : s.ck.phase ≠ .fault) (hp : s.ck.phase = .payload) : Does .ckRdall s (ckRdallBody s) := by
  unfold ckRdallBody
  split
  · exact .ckRaises rfl hf (by decide)
  · exact .forwards rfl hp le_rfl le_rfl

theorem does_ckRdstrBody (hf : s.ck.phase ≠ .fault) (hp : s.ck.phase = .payload) : Does .ckRdstr s (ckRdstrBody s) := by
  unfold ckRdstrBody
  split
  · rename_i z hz
    have hlt := firstNul_lt hz
    simp only [ckPayload, Memory.length_readN] at hlt
    exact .forwardsString _ rfl hp (by omega) (by omega)
  · split
    · exact .ckRaises rfl hf (by decide)
    · exact .forwardsString _ rfl hp le_rfl le_rfl

theorem does_ckFinishBody (hf : s.ck.phase ≠ .fault) (hp : s.ck.phase = .payload) :
    Does .ckFinish s (ckFinishBody s) := by
  unfold ckFinishBody
  split_ifs with hr ha hc
  · exact .ckRaises rfl hf (by decide)
  · exact .ckRaises rfl hf (by decide)
  · exact .ckRaises rfl hf (by decide)
  · exact .finishes hp (not_not.mp hr) (not_not.mp hc)

theorem does_pxStartBody (hp : s.px.phase = .idle ∨ s.px.phase = .done) : Does .pxStart s (pxStartBody s) := by
  unfold pxStartBody
  split
  · exact .refuses _ _ s
  · exact .starts hp ‹_›

theorem does_pxGeomBody (hf : s.px.phase ≠ .fault) (sel : Word) : Does (.pxGeom sel) s (pxGeomBody sel s) := by
  unfold pxGeomBody
  split
  · exact .refuses _ _ s
  · exact .geom hf sel _ _ _

/-- Whatever a command answers is one of its outcomes. -/
theorem exec_does (h : exec i s = .next t) : Does i s t := by
  have next_inj {u v : State} (h : (Host.Outcome.next u : Host.Outcome State Fault Refusal) = .next v) : u = v :=
    Host.Outcome.next.inj h
  cases i
  case rdr rn => exact does_rdr rn h
  case wrr rn imm => exact does_wrr rn imm h
  case pxGeom sel =>
    by_cases hsel : 7 < sel.toNat
    · rw [exec_pxGeom_noSelector hsel] at h
      exact next_inj h ▸ .refuses _ _ s
    · rw [exec_pxGeom_selector (by omega)] at h
      exact next_inj h ▸ does_pxCommand rfl fun hf _ => does_pxGeomBody hf sel
  all_goals rw [← next_inj h]
  case nop => exact .nop s
  case ckReset => exact .ckReset s
  case ckOpen => exact does_ckCommand rfl does_ckOpenBody
  case ckRd8 => exact does_readInt rfl
  case ckRd16 => exact does_readInt rfl
  case ckRd32 => exact does_readInt rfl
  case ckRdn n =>
    exact does_ckCommand rfl fun hf hp => does_ckPre rfl hf fun hb _ => .forwards rfl hp hb le_rfl
  case ckRdall => exact does_ckCommand rfl does_ckRdallBody
  case ckRdstr => exact does_ckCommand rfl does_ckRdstrBody
  case ckFinish => exact does_ckCommand rfl does_ckFinishBody
  case pxReset => exact .pxReset s
  case pxStart => exact does_pxCommand rfl fun _ hp => does_pxStartBody (by simpa using hp)
  case pxRow => exact does_pxCommand rfl fun _ hp => .row (by simpa using hp)
  case pxRun => exact does_pxCommand rfl fun _ hp => .rows (by simpa using hp)

end Sys2Proof.Machine
end

section
/-! The rows of PX.ROW and PX.RUN (R187, R188): what they leave unchanged, and the loop as rows that go on and a last
one. -/

namespace Sys2Proof.Machine

variable {s u : State} {n fuel : Nat}

/-! ## What a row leaves unchanged -/

theorem decodeRow_frame (f : Filter) (s : State) : { decodeRow f s with px := s.px, pix := s.pix } = s :=
  (congrArg (fun t => { t with px := s.px, pix := s.pix }) (endPass_frame (afterRow f s))).trans (afterRow_frame f s)

/-- t, with all that PX.ROW and PX.RUN may change taken back to s. -/
abbrev restorePx (s t : State) : State :=
  { t with px := s.px, pix := s.pix, faultlog := s.faultlog, resp := s.resp }

theorem pxRowBody_frame (s : State) : restorePx s (pxRowBody s) = s := by
  rcases pxRowBody_cases s with ⟨_, e⟩ | ⟨_, _, e⟩ | ⟨_, f, _, e⟩ <;> rw [e]
  · rfl
  · rfl
  · have h := congrArg (restorePx s) (decodeRow_frame f s)
    exact h

@[simp] theorem pxRowBody_rowmax (s : State) : (pxRowBody s).rowmax = s.rowmax :=
  (congrArg State.rowmax (pxRowBody_frame s) :)

@[simp] theorem pxRowBody_ck (s : State) : (pxRowBody s).ck = s.ck :=
  (congrArg State.ck (pxRowBody_frame s) :)

@[simp] theorem pxRowBody_cks (s : State) : (pxRowBody s).cks = s.cks :=
  (congrArg State.cks (pxRowBody_frame s) :)

@[simp] theorem pxRowBody_sls (s : State) : (pxRowBody s).sls = s.sls :=
  (congrArg State.sls (pxRowBody_frame s) :)

@[simp] theorem pxRowBody_po (s : State) : (pxRowBody s).po = s.po :=
  (congrArg State.po (pxRowBody_frame s) :)

@[simp] theorem pxRowBody_inbox (s : State) : (pxRowBody s).inbox = s.inbox :=
  (congrArg State.inbox (pxRowBody_frame s) :)

/-- What every row keeps in phase RUN, the loop keeps. -/
theorem runRows_induction {P : State → Prop} (hrow : ∀ u, u.px.phase = .run → P u → P (pxRowBody u))
    (hrun : s.px.phase = .run) (h : P s) : P (runRows fuel s) := by
  induction fuel generalizing s with
  | zero => exact h
  | succ fuel ih =>
    by_cases hnext : (pxRowBody s).px.phase = .run
    · exact runRows_succ_goes_on hnext ▸ ih hnext (hrow s hrun h)
    · exact runRows_succ_stops hnext ▸ hrow s hrun h

theorem runRows_frame (hrun : s.px.phase = .run) : restorePx s (runRows fuel s) = s :=
  runRows_induction (P := fun t => restorePx s t = s)
    (fun u _ hu => (congrArg (restorePx s) (pxRowBody_frame u)).trans hu) hrun rfl

theorem pxRunBody_frame (hrun : s.px.phase = .run) : restorePx s (pxRunBody s) = s := runRows_frame hrun

theorem pxRunBody_rowmax (hrun : s.px.phase = .run) : (pxRunBody s).rowmax = s.rowmax :=
  (congrArg State.rowmax (pxRunBody_frame hrun) :)

theorem pxRunBody_sls (hrun : s.px.phase = .run) : (pxRunBody s).sls = s.sls :=
  (congrArg State.sls (pxRunBody_frame hrun) :)

theorem pxRunBody_inbox (hrun : s.px.phase = .run) : (pxRunBody s).inbox = s.inbox :=
  (congrArg State.inbox (pxRunBody_frame hrun) :)

theorem pxRunBody_ck (hrun : s.px.phase = .run) : (pxRunBody s).ck = s.ck :=
  (congrArg State.ck (pxRunBody_frame hrun) :)

theorem pxRunBody_cks (hrun : s.px.phase = .run) : (pxRunBody s).cks = s.cks :=
  (congrArg State.cks (pxRunBody_frame hrun) :)

theorem pxRunBody_po (hrun : s.px.phase = .run) : (pxRunBody s).po = s.po :=
  (congrArg State.po (pxRunBody_frame hrun) :)

/-! ## The loop as rows that go on and a last one -/

/-- From s, n rows are decoded one after the other, each begun in phase RUN, and u is in phase RUN. -/
inductive RowsGoOn : Nat → State → State → Prop
  | none {s : State} (hrun : s.px.phase = .run) : RowsGoOn 0 s s
  | row {n : Nat} {s u : State} (f : Filter) (hrun : s.px.phase = .run)
      (he : pxRowBody s = respond .ok 0#32 (decodeRow f s)) (h : RowsGoOn n (pxRowBody s) u) : RowsGoOn (n + 1) s u

/-- The loop with fuel enough: some rows go on, and the row after them leaves phase RUN. -/
theorem runRows_split (hrun : s.px.phase = .run) (hfuel : pxAvail s < fuel) :
    ∃ n u, RowsGoOn n s u ∧ runRows fuel s = pxRowBody u ∧ (pxRowBody u).px.phase ≠ .run := by
  induction fuel generalizing s with
  | zero => omega
  | succ fuel ih =>
    by_cases hnext : (pxRowBody s).px.phase = .run
    · have hless := pxAvail_pxRowBody_lt hnext
      obtain ⟨n, u, hu, hlast, hleft⟩ := ih hnext (by omega)
      obtain ⟨-, -, f, -, he⟩ := pxRowBody_goes_on hnext
      exact ⟨n + 1, u, .row f hrun he hu, (runRows_succ_goes_on hnext).trans hlast, hleft⟩
    · exact ⟨0, s, .none hrun, runRows_succ_stops hnext, hnext⟩

theorem pxRunBody_split (hrun : s.px.phase = .run) :
    ∃ n u, RowsGoOn n s u ∧ pxRunBody s = pxRowBody u ∧ (pxRowBody u).px.phase ≠ .run :=
  runRows_split hrun (Nat.lt_succ_self _)

theorem RowsGoOn.run (h : RowsGoOn n s u) : u.px.phase = .run := by
  induction h with
  | none hrun => exact hrun
  | row _ _ _ _ ih => exact ih

/-- What every row keeps in phase RUN, rows that go on keep. -/
theorem RowsGoOn.induction {P : State → Prop} (h : RowsGoOn n s u)
    (hrow : ∀ v, v.px.phase = .run → P v → P (pxRowBody v)) (hs : P s) : P u := by
  induction h with
  | none => exact hs
  | row f hrun he h ih => exact ih (hrow _ hrun hs)

/-- Rows that go on are PX.ROW issued that many times. -/
theorem RowsGoOn.execRows (h : RowsGoOn n s u) : execRows n s = .next u := by
  induction h with
  | none => rfl
  | row f hrun he h ih => rw [execRows_succ_runs hrun, ih]

/-- Rows that go on log no error. -/
theorem RowsGoOn.faultlog (h : RowsGoOn n s u) : u.faultlog = s.faultlog := by
  induction h with
  | none => rfl
  | row f hrun he h ih => rw [ih, he]; simp

end Sys2Proof.Machine
end

section
/-! Unit CK over several commands: payload reads one after the other (R117), the bytes the accumulator covers (R112),
and a chunk that has just been opened (R110, R119). -/

namespace Sys2Proof.Machine

variable {s t u : State} {m n : Nat}

theorem beNat_append_list (x y : List Byte) : beNat (x ++ y) = beNat x * 256 ^ y.length + beNat y := by
  induction y using List.reverseRecOn with
  | nil => simp [beNat]
  | append_singleton y b ih =>
    rw [← List.append_assoc, beNat_append, ih, beNat_append, List.length_append, List.length_singleton]
    ring

/-! ## Payload reads one after the other -/

theorem Consumed.toNat_pos (h : Consumed s t n) : t.ck.pos.toNat = s.ck.pos.toNat + n := by
  rw [h.pos]
  rcases Nat.eq_zero_or_pos n with rfl | hn
  · simp
  · exact ckPos_add h.available (.inl hn)

theorem Consumed.toNat_remain (h : Consumed s t n) : t.ck.remain.toNat = s.ck.remain.toNat - n := by
  have hlt := s.ck.remain.isLt
  rw [h.remain, ← ofNat_toNat_sub _ h.budget, BitVec.toNat_ofNat]
  omega

theorem Consumed.avail (h : Consumed s t n) : ckAvail t = ckAvail s - n := by
  rw [ckAvail, ckAvail, h.toNat_pos, h.len]
  omega

theorem Consumed.payload_add (h : Consumed s t m) (n : Nat) : ckPayload (m + n) s = ckPayload m s ++ ckPayload n t := by
  rw [ckPayload, ckPayload, ckPayload, Memory.readN_add, h.toNat_pos, h.cks]

theorem Consumed.refl (s : State) : Consumed s s 0 := consumed_none rfl rfl (.inl rfl)

theorem Consumed.trans (h : Consumed s t m) (h' : Consumed t u n) : Consumed s u (m + n) where
  budget := by have := h.budget; have := h'.budget; have := h.toNat_remain; omega
  available := by have := h.available; have := h'.available; have := h.avail; omega
  crcacc := by rw [h'.crcacc, h.crcacc, h.payload_add, crcBytes_append]
  pos := by rw [h'.pos, h.pos, BitVec.ofNat_add, BitVec.add_assoc]
  remain := by rw [h'.remain, h.remain, BitVec.ofNat_add, BitVec.sub_sub]
  type := h'.type.trans h.type
  declen := h'.declen.trans h.declen
  len := h'.len.trans h.len
  count := h'.count.trans h.count
  cks := h'.cks.trans h.cks
  phase := by
    rcases h'.phase with hp | hp
    · exact hp ▸ h.phase
    · exact .inr hp

/-- Any sequence of payload reads consumes some number of payload bytes. -/
theorem payloadReads_consume {reads : List Instr} (hreads : ∀ i ∈ reads, isPayloadRead i = true)
    (h : execAll reads s = .next t) : ∃ n, Consumed s t n := by
  induction reads generalizing s with
  | nil =>
    rw [execAll_nil, Host.Outcome.next.injEq] at h
    exact ⟨0, h ▸ .refl s⟩
  | cons i rest ih =>
    obtain ⟨hi, hrest⟩ := List.forall_mem_cons.mp hreads
    obtain ⟨v, hv, hrun⟩ := execAll_cons_inv h
    obtain ⟨m, hm⟩ := payloadRead_consumes hi hv
    obtain ⟨n, hn⟩ := ih hrest hrun
    exact ⟨m + n, hm.trans hn⟩

/-! ## What the accumulator covers (R112) -/

/-- Outside a chunk there is nothing to cover. -/
theorem crcCovers_of_not_payload (h : t.ck.phase ≠ .payload) : CrcCovers t :=
  ⟨fun hp => absurd hp h, fun hp => absurd hp h, fun hp => absurd hp h⟩

/-- A change of unit CK that touches none of the fields the coverage speaks of. -/
theorem CrcCovers.of_unchanged (hc : CrcCovers s) (hphase : t.ck.phase = .payload → s.ck.phase = .payload)
    (hpos : t.ck.pos = s.ck.pos) (hremain : t.ck.remain = s.ck.remain) (hdeclen : t.ck.declen = s.ck.declen)
    (hcrc : t.ck.crcacc = s.ck.crcacc) (htype : t.ck.type = s.ck.type) (hcks : t.cks = s.cks) : CrcCovers t := by
  have hread : ckRead t = ckRead s := by rw [ckRead, ckRead, hdeclen, hremain]
  have hcovered : ckCovered t = ckCovered s := by rw [ckCovered, ckCovered, hread, hpos, hcks]
  refine ⟨fun hp => ?_, fun hp => ?_, fun hp => ?_⟩
  · rw [hread, hpos]; exact hc.inside (hphase hp)
  · rw [hcovered, hcrc]; exact hc.crc (hphase hp)
  · rw [hcovered, htype]; exact hc.type (hphase hp)

theorem CrcCovers.of_ck_eq (hc : CrcCovers s) (hck : t.ck = s.ck) (hcks : t.cks = s.cks) : CrcCovers t :=
  hc.of_unchanged (hck ▸ id) (by rw [hck]) (by rw [hck]) (by rw [hck]) (by rw [hck]) (by rw [hck]) hcks

theorem Consumed.ckRead_eq (h : Consumed s t n) (hbudget : s.ck.remain.toNat ≤ s.ck.declen.toNat) :
    ckRead t = ckRead s + n := by
  have := h.budget
  rw [ckRead, ckRead, h.declen, h.toNat_remain]
  omega

/-- The bytes covered after a read are those covered before it and the bytes read. -/
theorem Consumed.ckCovered_eq (h : Consumed s t n) (hbudget : s.ck.remain.toNat ≤ s.ck.declen.toNat)
    (hinside : 8 + ckRead s ≤ s.ck.pos.toNat) : ckCovered t = ckCovered s ++ ckPayload n s := by
  have hstart : t.ck.pos.toNat - ckRead t - 4 = s.ck.pos.toNat - ckRead s - 4 := by
    rw [h.ckRead_eq hbudget, h.toNat_pos]; omega
  have hend : s.ck.pos.toNat - ckRead s - 4 + (4 + ckRead s) = s.ck.pos.toNat := by omega
  rw [ckCovered, hstart, h.ckRead_eq hbudget, h.cks, ← Nat.add_assoc, Memory.readN_add, hend]
  rfl

theorem Consumed.crcCovers (h : Consumed s t n) (hl : CkLegal s) (hc : CrcCovers s) : CrcCovers t := by
  by_cases hp : t.ck.phase = .payload
  · have hps : s.ck.phase = .payload := by
      rcases h.phase with e | e
      · exact e ▸ hp
      · simp [e] at hp
    have hinside := hc.inside hps
    have hcovered := h.ckCovered_eq hl.budget hinside
    refine ⟨fun _ => ?_, fun _ => ?_, fun _ => ?_⟩
    · rw [h.ckRead_eq hl.budget, h.toNat_pos]; omega
    · rw [hcovered, crcBytes_append, ← hc.crc hps, h.crcacc]
    · rw [hcovered, h.type, hc.type hps, List.take_append_of_le_length (by simp [ckCovered])]
  · exact crcCovers_of_not_payload hp

theorem toNat_pos_ckBegin (ha : 8 ≤ ckAvail s) (len : Word) (bytes : List Byte) :
    (ckBegin len bytes s).ck.pos.toNat = s.ck.pos.toNat + 8 := ckPos_add ha (.inl (by decide))

/-- A chunk just opened: nothing of its payload is read, and its type bytes are the four before CK_POS. -/
theorem crcCovers_ckBegin (ha : 8 ≤ ckAvail s) (len : Word) :
    CrcCovers (ckBegin len (s.cks.readN (s.ck.pos.toNat + 4) 4) s) := by
  set t := ckBegin len (s.cks.readN (s.ck.pos.toNat + 4) 4) s with ht
  have hpos : t.ck.pos.toNat = s.ck.pos.toNat + 8 := toNat_pos_ckBegin ha _ _
  have hread : ckRead t = 0 := Nat.sub_self _
  have hcovered : ckCovered t = s.cks.readN (s.ck.pos.toNat + 4) 4 := by
    rw [ckCovered, hread, hpos]
    rfl
  refine ⟨fun _ => by omega, fun _ => ?_, fun _ => ?_⟩
  · rw [hcovered]; rfl
  · rw [hcovered, List.take_of_length_le (by simp)]; rfl

/-- WRR writes CK_POS in phase IDLE alone, and nothing else that the coverage speaks of. -/
theorem CrcCovers.writeReg {r : Reg} (hc : CrcCovers s) (hw : writable r s = true) (imm : Word) :
    CrcCovers (writeReg r imm s) := by
  rcases List.mem_cons.mp (mem_of_writable hw) with rfl | hr
  · exact crcCovers_of_not_payload (by simp [Machine.writeReg, writable_ckPos_iff.mp hw])
  · simp only [Reg.pxConfig, List.mem_cons, List.not_mem_nil, or_false] at hr
    rcases hr with rfl | rfl | rfl | rfl | rfl | rfl | rfl | rfl <;> exact hc.of_unchanged id rfl rfl rfl rfl rfl rfl

/-! ## A chunk just opened -/

theorem asciiLetter_iff (b : Byte) :
    asciiLetter b = true ↔ (0x41 ≤ b.toNat ∧ b.toNat ≤ 0x5A) ∨ (0x61 ≤ b.toNat ∧ b.toNat ≤ 0x7A) := by
  simp [asciiLetter]

/-- CK stands at the payload of a chunk with these parts, whose bytes are all on the stream. -/
structure Opened (t : State) (type payload : List Byte) (crc : Word) : Prop where
  phase : t.ck.phase = .payload
  crcacc : t.ck.crcacc = crcBytes crcInit type
  remain : t.ck.remain = BitVec.ofNat 32 payload.length
  length : payload.length < 2 ^ 31
  available : payload.length + 4 ≤ ckAvail t
  bytes : t.cks.readN t.ck.pos.toNat payload.length = payload
  trailer : t.cks.readN (t.ck.pos.toNat + payload.length) 4 = wordBytes crc

variable {type payload : List Byte} {crc : Word}

theorem Opened.toNat_remain (h : Opened t type payload crc) : t.ck.remain.toNat = payload.length := by
  have := h.length
  rw [h.remain, BitVec.toNat_ofNat]
  omega

theorem exec_ckOpen_chunk (hp : s.ck.phase = .idle) (ht : typeValid type = true) (hl : payload.length < 2 ^ 31)
    (hs : StreamBegins s (chunkBytes type payload crc)) :
    exec .ckOpen s = .next (ckBegin (BitVec.ofNat 32 payload.length) type s) ∧
      Opened (ckBegin (BitVec.ofNat 32 payload.length) type s) type payload crc := by
  obtain ⟨ha, hbytes⟩ := hs
  have hlen := length_of_typeValid ht
  obtain ⟨hlength, htype, hpayload, htrailer⟩ := readN_chunk hlen hbytes
  rw [length_chunkBytes hlen] at ha
  constructor
  · change Host.Outcome.next (ckCommand .idle ckOpenBody s) = _
    have hbe : beNat (wordBytes (BitVec.ofNat 32 payload.length)) = payload.length := by
      rw [beNat_wordBytes, BitVec.toNat_ofNat]; omega
    rw [ckCommand_runs (by simp [hp]) hp, ckOpenBody_ofLength (by omega), hlength, htype, hbe, if_neg (by omega),
      if_neg (by omega), if_pos ht, beWord_wordBytes]
  · have hpos := toNat_pos_ckBegin (s := s) (by omega) (BitVec.ofNat 32 payload.length) type
    refine ⟨rfl, rfl, rfl, hl, ?_, ?_, ?_⟩
    · unfold ckAvail at *
      rw [hpos]
      change _ ≤ s.ck.len.toNat - _
      omega
    · rw [hpos]; exact hpayload
    · rw [hpos]; exact htrailer

/-- Once the whole payload is read the accumulator covers it, and CK stands at the trailer. -/
theorem Opened.payload_read (h : Opened t type payload crc) (hc : Consumed t u n) (hr : u.ck.remain = 0#32) :
    n = payload.length ∧ u.ck.crcacc = crcBytes crcInit (type ++ payload) ∧ 4 ≤ ckAvail u ∧
      beWord (u.cks.readN u.ck.pos.toNat 4) = crc := by
  have hzero := hc.toNat_remain
  rw [hr, h.toNat_remain] at hzero
  have hbudget := hc.budget
  rw [h.toNat_remain] at hbudget
  obtain rfl : n = payload.length := by simp at hzero; omega
  refine ⟨rfl, ?_, ?_, ?_⟩
  · rw [hc.crcacc, h.crcacc, ckPayload, h.bytes, crcBytes_append]
  · have := h.available
    rw [hc.avail]; omega
  · rw [hc.toNat_pos, hc.cks, h.trailer, beWord_wordBytes]

theorem exec_ckRdall_opened (h : Opened t type payload crc) :
    exec .ckRdall t = .next (ckForward t.ck.remain.toNat t.ck.remain.toNat t) ∧
      Consumed t (ckForward t.ck.remain.toNat t.ck.remain.toNat t) t.ck.remain.toNat := by
  have ha : t.ck.remain.toNat ≤ ckAvail t := by
    have := h.available
    rw [h.toNat_remain]; omega
  refine ⟨?_, consumed_forward _ le_rfl ha⟩
  change Host.Outcome.next (ckCommand .payload ckRdallBody t) = _
  rw [ckCommand_runs (by simp [h.phase]) h.phase, ckRdallBody_runs ha]

theorem exec_ckFinish_runs (hp : s.ck.phase = .payload) : exec .ckFinish s = .next (ckFinishBody s) := by
  change Host.Outcome.next (ckCommand .payload ckFinishBody s) = _
  rw [ckCommand_runs (by simp [hp]) hp]

/-- Once the whole payload is read, CK.FINISH accepts the CRC of type and payload. -/
theorem exec_ckFinish_goodTrailer (h : Opened t type payload (crc32 (type ++ payload))) (hc : Consumed t u n)
    (hp : u.ck.phase = .payload) (hr : u.ck.remain = 0#32) :
    exec .ckFinish u = .next (ckEnd (crc32 (type ++ payload)) u) ∧
      (ckEnd (crc32 (type ++ payload)) u).ck.pos.toNat = t.ck.pos.toNat + payload.length + 4 := by
  obtain ⟨rfl, hcrc, ha, htrailer⟩ := h.payload_read hc hr
  constructor
  · rw [exec_ckFinish_runs hp, ckFinishBody_good hr ha (by rw [htrailer, hcrc]; rfl), hcrc]
    rfl
  · rw [← hc.toNat_pos]
    exact ckPos_add ha (.inl (by decide))

/-- After any reads of a chunk whose trailer is not its CRC, CK.FINISH accepts nothing: it raises E_BUDGET if payload is
left, E_CRC if none is, and answers FAULTED if a read has faulted already. -/
theorem exec_ckFinish_badTrailer (h : Opened t type payload crc) (hbad : crc ≠ crc32 (type ++ payload))
    (hc : Consumed t u n) :
    (u.ck.phase = .fault ∧ exec .ckFinish u = .next (answerFaulted .ck u)) ∨
    (u.ck.phase = .payload ∧ u.ck.remain ≠ 0#32 ∧ exec .ckFinish u = .next (raise .ck .eBudget u)) ∨
    (u.ck.phase = .payload ∧ u.ck.remain = 0#32 ∧ exec .ckFinish u = .next (raise .ck .eCrc u)) := by
  rcases hc.phase with hp | hp
  · rw [h.phase] at hp
    rw [exec_ckFinish_runs hp]
    by_cases hr : u.ck.remain = 0#32
    · obtain ⟨-, hcrc, ha, htrailer⟩ := h.payload_read hc hr
      exact .inr (.inr ⟨hp, hr, by rw [ckFinishBody_crc hr ha (by rw [htrailer, hcrc]; exact hbad)]⟩)
    · exact .inr (.inl ⟨hp, hr, by rw [ckFinishBody_budget hr]⟩)
  · exact .inl ⟨hp, exec_ckFaulted hp rfl⟩

/-! ## Reads that pass their tests -/

theorem exec_readInt_runs {i : Instr} (hi : (i = .ckRd8 ∧ n = 1) ∨ (i = .ckRd16 ∧ n = 2) ∨ (i = .ckRd32 ∧ n = 4))
    (hp : s.ck.phase = .payload) (hb : n ≤ s.ck.remain.toNat) (ha : n ≤ ckAvail s) :
    exec i s = .next (ckReadInt n s) := by
  rw [exec_readInt hi, ckCommand_runs (by simp [hp]) hp, ckPre_runs hb ha]

theorem exec_ckRdn_runs {k : Word} (hp : s.ck.phase = .payload) (hb : k.toNat ≤ s.ck.remain.toNat)
    (ha : k.toNat ≤ ckAvail s) : exec (.ckRdn k) s = .next (ckForward k.toNat k.toNat s) := by
  change Host.Outcome.next (ckCommand .payload (ckPre k.toNat (ckForward k.toNat k.toNat)) s) = _
  rw [ckCommand_runs (by simp [hp]) hp, ckPre_runs hb ha]

/-- The bytes of one read are those of two. -/
theorem beNat_ckPayload_add (h : Consumed s t m) (n : Nat) :
    beNat (ckPayload (m + n) s) = beNat (ckPayload m s) * 256 ^ n + beNat (ckPayload n t) := by
  rw [h.payload_add, beNat_append_list]
  simp [ckPayload]

/-- Two integer reads of n bytes and one of 2n bytes: the value, and what they leave. -/
theorem ckReadInt_twice (hb : 2 * n ≤ s.ck.remain.toNat) (ha : 2 * n ≤ ckAvail s) (hn : 2 * n ≤ 4) :
    let t := ckReadInt n s
    let u := ckReadInt n t
    let v := ckReadInt (2 * n) s
    beWord (ckPayload (2 * n) s) =
        BitVec.ofNat 32 ((beWord (ckPayload n s)).toNat * 256 ^ n + (beWord (ckPayload n t)).toNat) ∧
      v.ck.pos = u.ck.pos ∧ v.ck.remain = u.ck.remain ∧ v.ck.crcacc = u.ck.crcacc := by
  intro t u v
  have ht : Consumed s t n := consumed_readInt (by omega) (by omega)
  have htr := ht.toNat_remain
  have hta := ht.avail
  have hu : Consumed s u (n + n) := ht.trans (consumed_readInt (by omega) (by omega))
  have hv : Consumed s v (n + n) := Nat.two_mul n ▸ consumed_readInt (s := s) hb ha
  refine ⟨?_, hv.pos.trans hu.pos.symm, hv.remain.trans hu.remain.symm, hv.crcacc.trans hu.crcacc.symm⟩
  rw [beWord_toNat (by simp [ckPayload]; omega), beWord_toNat (by simp [ckPayload]; omega), ← beNat_ckPayload_add ht,
    ← Nat.two_mul]
  rfl

/-- Two forwarding reads leave the state of one, but for the response. -/
theorem ckForward_twice {a b c : Word} (habc : a.toNat + b.toNat = c.toNat) (hb : c.toNat ≤ s.ck.remain.toNat)
    (ha : c.toNat ≤ ckAvail s) :
    ckForward b.toNat b.toNat (ckForward a.toNat a.toNat s) =
      { ckForward c.toNat c.toNat s with resp := some ⟨.ok, b⟩ } := by
  have ht : Consumed s (ckForward a.toNat a.toNat s) a.toNat := consumed_forward _ (by omega) (by omega)
  have hc : c = a + b := BitVec.eq_of_toNat_eq (by have := c.isLt; rw [BitVec.toNat_add]; omega)
  have hpos : (s.ck.pos + a).toNat = s.ck.pos.toNat + a.toNat := by simpa [ht.pos] using ht.toNat_pos
  rw [ckForward_word b, ckForward_word a, ckForward_word c, ← habc, Memory.readN_add]
  simp [hpos, hc, BitVec.add_assoc, BitVec.sub_sub]

end Sys2Proof.Machine
end

section
/-! Unit CK over several commands (41_chunk_checker.md): the coverage of the accumulator, the grouping of the reads, and
what becomes of a good and of a damaged chunk. -/

namespace Sys2Proof

open Machine

/-- Settles O24: a payload read lengthens what is covered by the bytes it reads, CK.OPEN starts anew with the type
bytes, and every other command leaves the fields the coverage speaks of, or leaves phase PAYLOAD. -/
theorem everyCommandKeepsTheCrcCoverage : Obligations.EveryCommandKeepsTheCrcCoverage := by
  intro i s t hl hc h
  by_cases hi : isPayloadRead i = true
  · obtain ⟨n, hn⟩ := payloadRead_consumes hi h
    exact hn.crcCovers hl hc
  cases exec_does h with
  | refuses | ckFaulted | nop | rdr | noChunk | geom => exact hc.of_unchanged id rfl rfl rfl rfl rfl rfl
  | pxFaulted | pxReset | starts => exact hc.of_unchanged id rfl rfl rfl rfl rfl rfl
  | ckRaises => exact crcCovers_of_not_payload (by simp)
  | wrr hw imm => exact (hc.writeReg hw imm).of_unchanged id rfl rfl rfl rfl rfl rfl
  | ckReset => exact crcCovers_of_not_payload (by simp [CkUnit.reset])
  | begins hp ha => exact crcCovers_ckBegin ha _
  | readsInt hr | forwards hr | forwardsString b hr => exact absurd hr hi
  | finishes => exact crcCovers_of_not_payload (by simp [ckEnd])
  | row => exact hc.of_ck_eq (pxRowBody_ck s) (pxRowBody_cks s)
  | rows hp => exact hc.of_ck_eq (pxRunBody_ck hp) (pxRunBody_cks hp)

/-- Settles O25: an answer OK means the trailer is the accumulator's final value, and the accumulator covers type and
payload. -/
theorem finishAcceptsOnlyAMatchingChecksum : Obligations.FinishAcceptsOnlyAMatchingChecksum := by
  intro s t v hl hc h hresp
  cases exec_does h with
  | refuses | ckFaulted | ckRaises => simp at hresp
  | pxFaulted hi => simp [workOf] at hi
  | readsInt hr | forwards hr | forwardsString b hr => simp [isPayloadRead] at hr
  | finishes hp hr htrailer =>
    obtain rfl : beWord (s.cks.readN s.ck.pos.toNat 4) = v := by simpa [ckEnd] using hresp
    have hread : ckRead s = s.ck.declen.toNat := by simp [ckRead, hr]
    refine ⟨hr, rfl, ?_⟩
    rw [htrailer, hc.crc hp, ckCovered, hread]
    rfl

/-- Settles O23: consuming bytes is additive, so any sequence of reads is one consumption; and two forwarding reads
append what one does. -/
theorem groupingOfReadsDoesNotMatter : Obligations.GroupingOfReadsDoesNotMatter := by
  refine ⟨fun reads s t hreads h => ?_, fun s m n k hp hk hb ha => ?_⟩
  · obtain ⟨n, hn⟩ := payloadReads_consume hreads h
    have hbudget := hn.budget
    refine ⟨ckPayload n s, by simp [ckPayload], ?_, ?_, hn.crcacc, hn.type, hn.declen, hn.len, hn.cks⟩
    · simpa [ckPayload] using hn.toNat_pos
    · rw [hn.toNat_remain]
      simp only [ckPayload, Memory.length_readN]
      omega
  · have ht : Consumed s (ckForward m.toNat m.toNat s) m.toNat := consumed_forward _ (by omega) (by omega)
    have htr := ht.toNat_remain
    have hta := ht.avail
    exact ⟨_, _, _, exec_ckRdn_runs hp (by omega) (by omega), exec_ckRdn_runs hp (by omega) (by omega),
      exec_ckRdn_runs hp hb ha, ckForward_twice hk hb ha⟩

/-- Settles O22: the bytes of the wide read are those of the two narrow reads, most significant first. -/
theorem wideReadsAgreeWithNarrowReads : Obligations.WideReadsAgreeWithNarrowReads := by
  intro s wide narrow n hi hp hb ha
  have hnarrow : (narrow = .ckRd8 ∧ n = 1) ∨ (narrow = .ckRd16 ∧ n = 2) ∨ (narrow = .ckRd32 ∧ n = 4) := by
    rcases hi with ⟨-, hi⟩ | ⟨-, hi⟩
    · exact .inr (.inl hi)
    · exact .inl hi
  have hwide : (wide = .ckRd8 ∧ 2 * n = 1) ∨ (wide = .ckRd16 ∧ 2 * n = 2) ∨ (wide = .ckRd32 ∧ 2 * n = 4) := by
    rcases hi with ⟨rfl, -, rfl⟩ | ⟨rfl, -, rfl⟩ <;> simp
  have ht : Consumed s (ckReadInt n s) n := consumed_readInt (by omega) (by omega)
  have htr := ht.toNat_remain
  have hta := ht.avail
  obtain ⟨hvalue, hpos, hremain, hcrc⟩ := ckReadInt_twice hb ha (by omega)
  exact ⟨_, _, _, _, _, exec_readInt_runs hnarrow hp (by omega) (by omega),
    exec_readInt_runs hnarrow hp (by omega) (by omega), exec_readInt_runs hwide hp hb ha, rfl, rfl,
    congrArg (fun v => some (Response.mk .ok v)) hvalue, hpos, hremain, hcrc, rfl⟩

/-- Settles O26: CK.OPEN opens the chunk, CK.RDALL reads the whole payload, and the trailer is what the accumulator then
covers. -/
theorem wellFormedChunkIsAccepted : Obligations.WellFormedChunkIsAccepted := by
  intro s type payload hp ht hl hs
  obtain ⟨hopen, hopened⟩ := exec_ckOpen_chunk hp ht hl hs
  obtain ⟨hrdall, hread⟩ := exec_ckRdall_opened hopened
  obtain ⟨hfinish, hend⟩ := exec_ckFinish_goodTrailer hopened hread hopened.phase (by simp [ckForward_remain])
  have havail := hs.1
  rw [length_chunkBytes (length_of_typeValid ht)] at havail
  have hbegin := toNat_pos_ckBegin (s := s) (by omega) (BitVec.ofNat 32 payload.length) type
  refine ⟨_, _, _, hopen, hrdall, hfinish, rfl, ?_, rfl, ?_, rfl, rfl, by omega, rfl⟩
  · rw [ckForward_remain, hopened.remain]
  · rw [ckForward_remain, hopened.toNat_remain]
    exact congrArg (s.po ++ ·) hopened.bytes

/-- Settles O27: the trailer is the CRC of the payload before the change, which one changed byte has changed; so no
CK.FINISH accepts it. -/
theorem changedPayloadByteIsRejected : Obligations.ChangedPayloadByteIsRejected := by
  intro s type before after b b' hp ht hl hbb hs
  have hl' : (before ++ b' :: after).length < 2 ^ 31 := by simpa using hl
  obtain ⟨hopen, hopened⟩ := exec_ckOpen_chunk hp ht hl' hs
  have hbad : crc32 (type ++ (before ++ b :: after)) ≠ crc32 (type ++ (before ++ b' :: after)) := by
    simpa only [List.append_assoc] using crc32_changed_byte (type ++ before) after hbb
  refine ⟨_, hopen, ?_, fun reads u v hreads hu hv => ?_⟩
  · obtain ⟨hrdall, hread⟩ := exec_ckRdall_opened hopened
    rcases exec_ckFinish_badTrailer hopened hbad hread with ⟨hphase, -⟩ | ⟨-, hremain, -⟩ | ⟨-, -, hfinish⟩
    · exact absurd (hopened.phase.symm.trans hphase) (by decide)
    · exact absurd (by simp [ckForward_remain]) hremain
    · exact ⟨_, _, hrdall, hfinish, rfl, rfl, rfl, hread.count⟩
  · obtain ⟨n, hread⟩ := payloadReads_consume hreads hu
    rcases exec_ckFinish_badTrailer hopened hbad hread with ⟨hphase, hfinish⟩ | ⟨hphase, hremain, hfinish⟩ |
      ⟨hphase, hremain, hfinish⟩ <;> obtain rfl := Host.Outcome.next.inj (hfinish.symm.trans hv)
    · exact ⟨hphase, hread.count, by simp, fun h => by simp [hphase] at h⟩
    · exact ⟨rfl, hread.count, by simp, fun _ h => absurd h hremain⟩
    · exact ⟨rfl, hread.count, by simp, fun _ _ => ⟨rfl, rfl⟩⟩

/-- Settles O21: the letter test of each byte, and the two rules on bit 5. -/
theorem typeCodeValidity : Obligations.TypeCodeValidity := by
  intro t0 t1 t2 t3
  simp [typeValid, asciiLetter_iff, lowercase, and_assoc]

end Sys2Proof
end

section
/-! The computations of unit PX (files 42 to 44): extents and residues of a pass, bits of a row, lanes of a cell. -/

namespace Sys2Proof.Machine

/-- The filter-type bytes that name no type (R142, R151). -/
theorem Filter.ofByte_eq_none_iff (b : Byte) : Filter.ofByte b = Option.none ↔ 4 < b.toNat := by
  revert b
  decide +kernel

/-! ## Extents of a pass (R157, R158) -/

theorem geomRow_xStep_pos (p : Nat) : 0 < (geomRow p).xStep := geom_interlaced p ▸ geom_xStep_pos _ p

theorem geomRow_yStep_pos (p : Nat) : 0 < (geomRow p).yStep := geom_interlaced p ▸ geom_yStep_pos _ p

/-- The ceiling of R157: step n of a pass lies within the extent. -/
theorem lt_passExtent_iff {step : Nat} (hstep : 0 < step) (extent off n : Nat) :
    n < passExtent extent off step ↔ off + n * step < extent := by
  unfold passExtent
  split_ifs with h
  · omega
  · rw [Nat.lt_div_iff_mul_lt hstep]
    omega

theorem passExtent_le {step : Nat} (hstep : 0 < step) (extent off : Nat) : passExtent extent off step ≤ extent := by
  by_contra hlt
  have hlast := (lt_passExtent_iff hstep extent off extent).mp (by omega)
  have : extent * 1 ≤ extent * step := Nat.mul_le_mul_left _ hstep
  omega

/-- A pass has pixels when its origin lies within the image (R158). -/
theorem passNonEmpty_iff {g : Geom} (hx : 0 < g.xStep) (hy : 0 < g.yStep) (w h : Nat) :
    passNonEmpty w h g = true ↔ g.xOff < w ∧ g.yOff < h := by
  simp [passNonEmpty, passDim, lt_passExtent_iff hx, lt_passExtent_iff hy]

theorem passNonEmpty_geomRow_iff (w h p : Nat) :
    passNonEmpty w h (geomRow p) = true ↔ (geomRow p).xOff < w ∧ (geomRow p).yOff < h :=
  passNonEmpty_iff (geomRow_xStep_pos p) (geomRow_yStep_pos p) w h

theorem passNonEmpty_geomRow_eq_false_iff (w h p : Nat) :
    passNonEmpty w h (geomRow p) = false ↔ w ≤ (geomRow p).xOff ∨ h ≤ (geomRow p).yOff := by
  rw [← Bool.not_eq_true, passNonEmpty_geomRow_iff]
  omega

/-! ## Which pass a pixel is in (R156, R163) -/

/-- Pass p takes the columns and rows of these residues modulo 8. -/
def TakesResidues (p x y : Nat) : Prop :=
  x % (geomRow p).xStep = (geomRow p).xOff ∧ y % (geomRow p).yStep = (geomRow p).yOff

/-- The pass table covers each of the 64 pixels of an 8 by 8 block once. -/
theorem residues_partition : ∀ x y : Fin 8, ∃ p : Fin 7,
    ((x : Nat) % (geomRow p).xStep = (geomRow p).xOff ∧ (y : Nat) % (geomRow p).yStep = (geomRow p).yOff) ∧
    ∀ p' : Fin 7, (x : Nat) % (geomRow p').xStep = (geomRow p').xOff ∧
      (y : Nat) % (geomRow p').yStep = (geomRow p').yOff → p' = p := by decide +kernel

/-- What an origin and a step have to do with the residues modulo 8. -/
theorem geomRow_steps {p : Nat} (hp : p ≤ 6) :
    (geomRow p).xStep ∣ 8 ∧ (geomRow p).yStep ∣ 8 ∧ (geomRow p).xOff < (geomRow p).xStep ∧
      (geomRow p).yOff < (geomRow p).yStep := by
  revert p
  decide

theorem takesResidues_mod {p : Nat} (hp : p ≤ 6) (x y : Nat) :
    TakesResidues p x y ↔ TakesResidues p (x % 8) (y % 8) := by
  obtain ⟨hx, hy, -, -⟩ := geomRow_steps hp
  rw [TakesResidues, TakesResidues, Nat.mod_mod_of_dvd _ hx, Nat.mod_mod_of_dvd _ hy]

/-- Every pixel is in exactly one pass. -/
theorem exists_unique_pass (x y : Nat) :
    ∃ p ≤ 6, TakesResidues p x y ∧ ∀ p' ≤ 6, TakesResidues p' x y → p' = p := by
  obtain ⟨p, hp, hunique⟩ := residues_partition ⟨x % 8, by omega⟩ ⟨y % 8, by omega⟩
  refine ⟨p, by omega, (takesResidues_mod (by omega) x y).mpr hp, fun p' hp' h => ?_⟩
  exact congrArg Fin.val (hunique ⟨p', by omega⟩ ((takesResidues_mod hp' x y).mp h))

/-- A pixel has a pass's residues when it is column q of row r of the pass. -/
theorem takesResidues_of_coordinates {p x y q r : Nat} (hp : p ≤ 6)
    (hx : x = (geomRow p).xOff + q * (geomRow p).xStep) (hy : y = (geomRow p).yOff + r * (geomRow p).yStep) :
    TakesResidues p x y := by
  obtain ⟨-, -, hxo, hyo⟩ := geomRow_steps hp
  subst hx hy
  exact ⟨by rw [Nat.add_mul_mod_self_right, Nat.mod_eq_of_lt hxo],
    by rw [Nat.add_mul_mod_self_right, Nat.mod_eq_of_lt hyo]⟩

/-- The column and row a pixel is of the pass it is in. -/
theorem coordinates_of_takesResidues {p x y : Nat} (h : TakesResidues p x y) :
    x = (geomRow p).xOff + x / (geomRow p).xStep * (geomRow p).xStep ∧
      y = (geomRow p).yOff + y / (geomRow p).yStep * (geomRow p).yStep := by
  obtain ⟨hx, hy⟩ := h
  exact ⟨by rw [← hx, Nat.mod_add_div'], by rw [← hy, Nat.mod_add_div']⟩

/-! ## The next pass (R161) -/

theorem nextPass_interlaced (w h p : Nat) :
    nextPass 1#32 w h p = (List.range' 1 6).find? (fun q => p < q && passNonEmpty w h (geomRow q)) := if_pos rfl

theorem nextPass_sequential {ilace : Word} (hi : ilace ≠ 1#32) (w h p : Nat) : nextPass ilace w h p = none := if_neg hi

theorem nextPass_eq_some_iff (w h p q : Nat) :
    nextPass 1#32 w h p = some q ↔ p < q ∧ q ≤ 6 ∧ passNonEmpty w h (geomRow q) = true ∧
      ∀ r, p < r → r < q → passNonEmpty w h (geomRow r) = false := by
  rw [nextPass_interlaced, List.find?_range'_eq_some]
  simp only [Bool.and_eq_true, decide_eq_true_eq, List.mem_range'_1, Bool.not_eq_true', Bool.and_eq_false_imp]
  constructor
  · rintro ⟨⟨hp, hq⟩, hmem, hleast⟩
    exact ⟨hp, by omega, hq, fun r hr hrq => hleast r (by omega) hrq hr⟩
  · rintro ⟨hp, hq6, hq, hleast⟩
    exact ⟨⟨hp, hq⟩, by omega, fun r _ hrq hr => hleast r hr hrq⟩

theorem nextPass_eq_none_iff (w h p : Nat) :
    nextPass 1#32 w h p = none ↔ ∀ q, p < q → q ≤ 6 → passNonEmpty w h (geomRow q) = false := by
  rw [nextPass_interlaced, List.find?_range'_eq_none]
  simp only [Bool.not_eq_true', Bool.and_eq_false_imp, decide_eq_true_eq]
  exact ⟨fun h q hp hq => h q (by omega) (by omega) hp, fun h q _ hq hp => h q hp (by omega)⟩

/-! ## A row as one big-endian number (R172 to R175) -/

/-- The bytes of a number from its most significant end. -/
theorem beNat_div_mod (row : List Byte) {i : Nat} (hi : i < row.length) :
    beNat row / 256 ^ (row.length - 1 - i) % 256 = (row.getD i 0#8).toNat := by
  have hsplit : row = row.take i ++ row[i] :: row.drop (i + 1) := by
    rw [List.getElem_cons_drop, List.take_append_drop]
  have hlen : (row.drop (i + 1)).length = row.length - 1 - i := by simp; omega
  have htail := beNat_lt (row.drop (i + 1))
  have hbe : beNat row = (beNat (row.take i) * 256 + row[i].toNat) * 256 ^ (row.length - 1 - i) +
      beNat (row.drop (i + 1)) := by
    conv_lhs => rw [hsplit]
    rw [List.append_cons, beNat_append_list, beNat_append, hlen]
  rw [hlen] at htail
  rw [List.getD_eq_getElem _ _ hi, hbe, Nat.mul_comm, Nat.mul_add_div (by positivity), Nat.div_eq_of_lt htail]
  have := row[i].isLt
  omega

/-- Bits of a number that lie within one of its bytes. -/
theorem beNat_bits (row : List Byte) {i shift d : Nat} (hi : i < row.length) (hd : shift + d ≤ 8) :
    beNat row / 2 ^ (8 * (row.length - 1 - i) + shift) % 2 ^ d =
      (row.getD i 0#8).toNat >>> shift % 2 ^ d := by
  rw [← beNat_div_mod row hi, Nat.shiftRight_eq_div_pow, Nat.pow_add, ← Nat.div_div_eq_div_mul, Nat.pow_mul]
  generalize beNat row / 256 ^ (row.length - 1 - i) = x
  have h256 : 256 = 2 ^ shift * 2 ^ (8 - shift) := by rw [← Nat.pow_add, Nat.add_sub_of_le (by omega)]
  have hdvd : 2 ^ d ∣ 2 ^ (8 - shift) := Nat.pow_dvd_pow 2 (by omega)
  change x / 2 ^ shift % 2 ^ d = _
  rw [h256, Nat.mod_mul_right_div_self, Nat.mod_mod_of_dvd _ hdvd]

/-- A sample below depth 8 lies within one byte. -/
theorem sample_eq_bits {d : Nat} (hd : d = 1 ∨ d = 2 ∨ d = 4 ∨ d = 8) {row : List Byte} {j : Nat}
    (h : (j + 1) * d ≤ 8 * row.length) :
    beNat row / 2 ^ (8 * row.length - (j + 1) * d) % 2 ^ d =
      (row.getD (j * d / 8) 0#8).toNat >>> (8 - d - j * d % 8) % 2 ^ d := by
  have hi : j * d / 8 < row.length := by rcases hd with rfl | rfl | rfl | rfl <;> omega
  have hshift : 8 - d - j * d % 8 + d ≤ 8 := by rcases hd with rfl | rfl | rfl | rfl <;> omega
  have hpos : 8 * row.length - (j + 1) * d = 8 * (row.length - 1 - j * d / 8) + (8 - d - j * d % 8) := by
    rcases hd with rfl | rfl | rfl | rfl <;> omega
  rw [hpos, beNat_bits row hi hshift]

/-- Two bytes of a number. -/
theorem beNat_two_bytes {row : List Byte} {j : Nat} (h : (j + 1) * 16 ≤ 8 * row.length) :
    beNat row / 2 ^ (8 * row.length - (j + 1) * 16) % 2 ^ 16 =
      (row.getD (2 * j) 0#8).toNat * 256 + (row.getD (2 * j + 1) 0#8).toNat := by
  have h0 : 2 * j < row.length := by omega
  have h1 : 2 * j + 1 < row.length := by omega
  rw [← beNat_div_mod row h0, ← beNat_div_mod row h1,
    show row.length - 1 - 2 * j = row.length - 1 - (2 * j + 1) + 1 by omega, Nat.pow_succ (n := 256),
    ← Nat.div_div_eq_div_mul,
    show 8 * row.length - (j + 1) * 16 = 8 * (row.length - 1 - (2 * j + 1)) by omega, Nat.pow_mul]
  change beNat row / 256 ^ _ % 2 ^ 16 = _
  omega

theorem depthLegal_iff (d : Nat) : depthLegal d = true ↔ d = 1 ∨ d = 2 ∨ d = 4 ∨ d = 8 ∨ d = 16 := by
  simp [depthLegal, or_assoc]

theorem sample_low {d : Nat} (hd : d = 1 ∨ d = 2 ∨ d = 4) (row : List Byte) (j : Nat) :
    sample d row j = (row.getD (j * d / 8) 0#8).toNat >>> (8 - d - j * d % 8) % 2 ^ d := by
  rcases hd with rfl | rfl | rfl <;> rfl

theorem sample_lt {d : Nat} (hd : depthLegal d = true) (row : List Byte) (j : Nat) : sample d row j < 2 ^ d := by
  have low {d : Nat} (hd : d = 1 ∨ d = 2 ∨ d = 4) : sample d row j < 2 ^ d :=
    sample_low hd row j ▸ Nat.mod_lt _ (by positivity)
  rcases (depthLegal_iff d).mp hd with rfl | rfl | rfl | rfl | rfl
  · exact low (.inl rfl)
  · exact low (.inr (.inl rfl))
  · exact low (.inr (.inr rfl))
  · exact (row.getD j 0#8).isLt
  · have h0 := (row.getD (2 * j) 0#8).isLt
    have h1 := (row.getD (2 * j + 1) 0#8).isLt
    change (row.getD (2 * j) 0#8).toNat * 256 + (row.getD (2 * j + 1) 0#8).toNat < 2 ^ 16
    omega

/-- A sample fits a lane of a cell. -/
theorem sample_lt_lane {d : Nat} (hd : depthLegal d = true) (row : List Byte) (j : Nat) : sample d row j < 2 ^ 16 := by
  refine Nat.lt_of_lt_of_le (sample_lt hd row _) (Nat.pow_le_pow_right (by decide) ?_)
  rcases (depthLegal_iff d).mp hd with rfl | rfl | rfl | rfl | rfl <;> decide

theorem sample_eq_beNat {d : Nat} (hd : depthLegal d = true) {row : List Byte} {j : Nat}
    (h : (j + 1) * d ≤ 8 * row.length) :
    sample d row j = beNat row / 2 ^ (8 * row.length - (j + 1) * d) % 2 ^ d := by
  rcases (depthLegal_iff d).mp hd with rfl | rfl | rfl | rfl | rfl
  · rw [sample_low (by simp), sample_eq_bits (by simp) h]
  · rw [sample_low (by simp), sample_eq_bits (by simp) h]
  · rw [sample_low (by simp), sample_eq_bits (by simp) h]
  · rw [sample_eq_bits (by simp) h, Nat.mul_div_cancel _ (by decide), Nat.mul_mod_left]
    exact (Nat.mod_eq_of_lt (row.getD j 0#8).isLt).symm
  · rw [beNat_two_bytes h]
    rfl

/-- Bits above the low k bits of a number do not depend on those. -/
theorem beNat_append_div_congr (init : List Byte) {x y : Byte} {k n : Nat} (hk : k ≤ n) (hk8 : k ≤ 8)
    (h : x.toNat / 2 ^ k = y.toNat / 2 ^ k) :
    beNat (init ++ [x]) / 2 ^ n = beNat (init ++ [y]) / 2 ^ n := by
  have split (b : Byte) : beNat (init ++ [b]) / 2 ^ k = beNat init * 2 ^ (8 - k) + b.toNat / 2 ^ k := by
    have h256 : 256 = 2 ^ k * 2 ^ (8 - k) := by rw [← Nat.pow_add, Nat.add_sub_of_le hk8]
    rw [beNat_append, h256, ← Nat.mul_assoc, Nat.mul_comm (beNat init), Nat.mul_assoc, Nat.mul_add_div (by positivity)]
  obtain ⟨m, rfl⟩ := Nat.exists_eq_add_of_le hk
  rw [Nat.pow_add, ← Nat.div_div_eq_div_mul, ← Nat.div_div_eq_div_mul, split, split, h]

/-! ## The lanes of a cell (R176) -/

theorem cellSum_lt {d : Nat} (hd : depthLegal d = true) (ch : Nat) (row : List Byte) (q n : Nat) :
    cellSum ch d row q n < 2 ^ (16 * n) := by
  induction n with
  | zero => simp [cellSum]
  | succ n ih =>
    have hs := sample_lt_lane hd row (q * ch + n)
    have h2 : (sample d row (q * ch + n) + 1) * 2 ^ (16 * n) ≤ 2 ^ 16 * 2 ^ (16 * n) := Nat.mul_le_mul_right _ hs
    rw [cellSum, Nat.shiftLeft_eq, Nat.mul_succ, Nat.add_comm (16 * n), Nat.pow_add]
    rw [Nat.succ_mul] at h2
    omega

/-- Digit k of the sum in base 2^16. -/
theorem cellSum_lane {d : Nat} (hd : depthLegal d = true) (ch : Nat) (row : List Byte) (q k n : Nat) :
    cellSum ch d row q n / 2 ^ (16 * k) % 2 ^ 16 = if k < n then sample d row (q * ch + k) else 0 := by
  induction n with
  | zero => simp [cellSum]
  | succ n ih =>
    have hlt := cellSum_lt hd ch row q n
    rw [cellSum, Nat.shiftLeft_eq]
    rcases Nat.lt_trichotomy k n with hk | rfl | hk
    · have hpow : 2 ^ (16 * n) = 2 ^ (16 * k) * (2 ^ 16 * 2 ^ (16 * (n - k - 1))) := by
        rw [← Nat.pow_add, ← Nat.pow_add]
        congr 1; omega
      rw [hpow, Nat.mul_comm, Nat.mul_assoc, Nat.add_mul_div_left _ _ (by positivity), Nat.mul_assoc,
        Nat.add_mul_mod_self_left, ih, if_pos hk, if_pos (by omega)]
    · rw [if_pos (by omega), Nat.add_comm, Nat.mul_comm, Nat.mul_add_div (by positivity), Nat.div_eq_of_lt hlt,
        Nat.add_zero, Nat.mod_eq_of_lt (sample_lt_lane hd row _)]
    · have hsum := cellSum_lt hd ch row q (n + 1)
      have hpow : 2 ^ (16 * (n + 1)) ≤ 2 ^ (16 * k) := Nat.pow_le_pow_right (by decide) (by omega)
      rw [cellSum, Nat.shiftLeft_eq] at hsum
      rw [if_neg (by omega), Nat.div_eq_of_lt (by omega), Nat.zero_mod]

end Sys2Proof.Machine
end

section
/-! The computations of unit PX (42_filter_reverser.md, 43_adam7_decomposer.md, 44_sample_unpacker.md). -/

namespace Sys2Proof

open Machine

/-- Settles O28: the filter types are read off their numbers, and half a sum of two bytes is a byte. -/
theorem filterTypesAndSimplePredictors : Obligations.FilterTypesAndSimplePredictors := by
  refine ⟨⟨rfl, rfl, rfl, rfl, rfl⟩, fun x => (Filter.ofByte_eq_none_iff x).mpr, fun a b c => ⟨rfl, rfl, rfl, ?_⟩⟩
  have ha := a.isLt
  have hb := b.isLt
  simp only [pred, average, BitVec.toNat_ofNat]
  omega

/-- Settles O29: the model compares the same distances as natural numbers. -/
theorem paethPicksTheNearest : Obligations.PaethPicksTheNearest := by
  rintro a b c p rfl
  simp only [pred, paeth, Int.abs_eq_natAbs]
  refine ⟨fun hb hc => ?_, fun ha hc => ?_, fun ha hb => ?_⟩
  · rw [if_pos (by omega)]
  · rw [if_neg (by omega), if_pos (by omega)]
  · rw [if_neg (by omega), if_neg (by omega)]

/-- Settles O30: subtraction and addition modulo 256 undo each other. -/
theorem filterPairing : Obligations.FilterPairing := by
  intro f s d a b c
  refine ⟨?_, BitVec.toNat_add .., BitVec.sub_add_cancel ..⟩
  have hs := s.isLt
  have hp := (pred f a b c).isLt
  rw [encodeFilter, BitVec.toNat_sub]
  omega

/-- Settles O31: the extent's ceiling, in each dimension. -/
theorem passDimensionIsTheCeiling : Obligations.PassDimensionIsTheCeiling := fun w h p n =>
  ⟨lt_passExtent_iff (geomRow_xStep_pos p) w _ n, lt_passExtent_iff (geomRow_yStep_pos p) h _ n⟩

/-- Settles O32: the division by 8, of the row's bits rounded up and of a pixel's bits. -/
theorem rowLengthAndPixelBytes : Obligations.RowLengthAndPixelBytes := by
  intro w ch d
  unfold rowBytes bytesPerPixel
  refine ⟨by omega, by omega, fun h => ?_, fun h => ?_⟩ <;> omega

/-- Settles O33: a pass is empty when its origin lies outside the image. -/
theorem emptyPasses : Obligations.EmptyPasses := by
  intro w h hw hh
  simp only [passNonEmpty_geomRow_iff, passNonEmpty_geomRow_eq_false_iff]
  simp only [geomRow]
  omega

/-- Settles O34: the pass is that of the pixel's residues modulo 8, and column and row are the quotients. -/
theorem passesPartitionTheImage : Obligations.PassesPartitionTheImage := by
  intro w h x y hx hy
  obtain ⟨p, hp, hres, hunique⟩ := exists_unique_pass x y
  obtain ⟨hcol, hrow⟩ := coordinates_of_takesResidues hres
  refine ⟨p, _, _, ⟨hp, (lt_passExtent_iff (geomRow_xStep_pos p) w _ _).mpr (hcol ▸ hx),
    (lt_passExtent_iff (geomRow_yStep_pos p) h _ _).mpr (hrow ▸ hy), hcol, hrow⟩, ?_⟩
  intro p' q' r' hp' _ _ hcol' hrow'
  obtain rfl := hunique p' hp' (takesResidues_of_coordinates hp' hcol' hrow')
  exact ⟨rfl, Nat.eq_of_mul_eq_mul_right (geomRow_xStep_pos p') (by omega),
    Nat.eq_of_mul_eq_mul_right (geomRow_yStep_pos p') (by omega)⟩

/-- Settles O35: `nextPass` searches 1 to 6 upwards. -/
theorem nextPassIsTheLeastLaterOne : Obligations.NextPassIsTheLeastLaterOne := fun w h p =>
  ⟨nextPass_sequential (by decide) w h p, nextPass_eq_some_iff w h p, nextPass_eq_none_iff w h p⟩

/-- Settles O36: a sample of up to 8 bits lies within one byte of the row's number, a sample of 16 bits is two of
them. -/
theorem sampleIsTheNextBitsOfTheRow : Obligations.SampleIsTheNextBitsOfTheRow := fun _ j row hd =>
  ⟨sample_eq_beNat hd, sample_lt hd row j⟩

/-- Settles O37: a cell is its samples as digits in base 2^16. -/
theorem cellLanesAreTheChannels : Obligations.CellLanesAreTheChannels := by
  intro ch d q k row hch hd hk
  have hch4 : ch ≤ 4 := by simp [chansLegal] at hch; omega
  have hlt := cellSum_lt hd ch row q ch
  have hpow : 2 ^ (16 * ch) ≤ 2 ^ 64 := Nat.pow_le_pow_right (by decide) (by omega)
  have hcell : (cell ch d row q).toNat = cellSum ch d row q ch :=
    (BitVec.toNat_ofNat ..).trans (Nat.mod_eq_of_lt (by omega))
  rw [BitVec.extractLsb'_toNat, hcell, Nat.shiftRight_eq_div_pow, cellSum_lane hd]

/-- Settles O38: a sample of the row is bits above its padding. -/
theorem paddingBitsAreIgnored : Obligations.PaddingBitsAreIgnored := by
  intro d pw q init x y hd hq hlen hxy
  have hdepth : depthLegal d = true := by rcases hd with rfl | rfl | rfl <;> rfl
  have hmul : (q + 1) * d ≤ pw * d := Nat.mul_le_mul_right d hq
  rw [rowBytes, Nat.mul_one] at hlen
  have hsample : sample d (init ++ [x]) q = sample d (init ++ [y]) q := by
    rw [sample_eq_beNat hdepth (by simp; omega), sample_eq_beNat hdepth (by simp; omega), List.length_append,
      List.length_append, List.length_singleton, List.length_singleton,
      beNat_append_div_congr init (by omega) (by omega) hxy]
  simp [cell, cellSum, hsample]

end Sys2Proof
end

section
/-! Registers, resets and the step (files 10, 30, 40, 70): what a register reads after a write, and what a step does
with each action of the host. -/

namespace Sys2Proof.Machine

variable {s t : State} {r r' : Reg}

/-! ## A register after a write (R22, R102) -/

theorem readReg_respond (r : Reg) (c : RespCode) (v : Word) (s : State) : readReg r (respond c v s) = readReg r s := by
  cases r <;> rfl

theorem readReg_refuse (hr : r ≠ .faultlog) (e : ErrCode) (s : State) : readReg r (refuse e s) = readReg r s := by
  cases r
  case faultlog => exact absurd rfl hr
  all_goals rfl

theorem readReg_writeReg_same (hw : writable r s = true) (v : Word) : readReg r (writeReg r v s) = v := by
  have hr := mem_of_writable hw
  simp only [Reg.pxConfig, List.mem_cons, List.not_mem_nil, or_false] at hr
  rcases hr with rfl | rfl | rfl | rfl | rfl | rfl | rfl | rfl | rfl <;> rfl

/-- Each register has storage of its own; the status registers read fields that no WRR writes. -/
theorem readReg_writeReg_other (hne : r' ≠ r) (v : Word) (s : State) : readReg r' (writeReg r v s) = readReg r' s := by
  cases r
  case ckPos | ckLen | pxPos | pxLen | pxWidth | pxHeight | pxDepth | pxChans | pxIlace =>
    cases r' <;> simp_all [readReg, writeReg, ckStatus, pxStatus]
  all_goals rfl

theorem writeReg_ck (hr : r ∈ Reg.pxConfig) (v : Word) (s : State) : (writeReg r v s).ck = s.ck := by
  simp only [Reg.pxConfig, List.mem_cons, List.not_mem_nil, or_false] at hr
  rcases hr with rfl | rfl | rfl | rfl | rfl | rfl | rfl <;> rfl

/-- A write that WRR may make: to CK_POS in phase IDLE, to CK_LEN outside FAULT, to PX's configuration in IDLE and
DONE. -/
theorem writable_cases (hw : writable r s = true) :
    (r = .ckPos ∧ s.ck.phase = .idle) ∨ (r = .ckLen ∧ s.ck.phase ≠ .fault) ∨
      (r ∈ Reg.pxConfig ∧ (s.px.phase = .idle ∨ s.px.phase = .done)) := by
  rcases List.mem_cons.mp (mem_of_writable hw) with rfl | hr
  · exact .inl ⟨rfl, writable_ckPos_iff.mp hw⟩
  rcases List.mem_cons.mp hr with rfl | hr
  · exact .inr (.inl ⟨rfl, writable_ckLen_iff.mp hw⟩)
  · exact .inr (.inr ⟨hr, (writable_pxConfig_iff hr).mp hw⟩)

theorem writeReg_ck_faulted (hw : writable r s = true) (hf : s.ck.phase = .fault) (v : Word) :
    (writeReg r v s).ck = s.ck := by
  rcases writable_cases hw with ⟨-, h⟩ | ⟨-, h⟩ | ⟨hr, -⟩
  · simp [hf] at h
  · exact absurd hf h
  · exact writeReg_ck hr v s

theorem writeReg_px_faulted (hw : writable r s = true) (hf : s.px.phase = .fault) (v : Word) :
    (writeReg r v s).px = s.px := by
  rcases writable_cases hw with ⟨rfl, -⟩ | ⟨rfl, -⟩ | ⟨-, h⟩
  · rfl
  · rfl
  · simp [hf] at h

/-! ## Bits of the status registers (R26, R37) -/

theorem getLsbD_flag (b : Bool) (n : Nat) : (flag b).getLsbD n = (decide (n = 0) && b) := by
  cases b
  · simp [flag]
  · simp [flag, BitVec.getLsbD_one]

theorem CkPhase.getLsbD_code (p : CkPhase) {n : Nat} (hn : n < 32) :
    p.code.getLsbD n = (decide (n = 0) && decide (p = .payload) || decide (n = 1) && decide (p = .fault)) := by
  cases p <;> interval_cases n <;> rfl

theorem PxPhase.getLsbD_code (p : PxPhase) {n : Nat} (hn : n < 32) :
    p.code.getLsbD n = (decide (n = 0) && decide (p = .run ∨ p = .done) ||
      decide (n = 1) && decide (p = .fault ∨ p = .done)) := by
  cases p <;> interval_cases n <;> rfl

/-- `CK_STATUS` bit by bit (R26). -/
theorem getLsbD_ckStatus (c : CkUnit) {n : Nat} (hn : n < 32) :
    (ckStatus c).getLsbD n = (c.phase.code.getLsbD n || decide (n = 2) && c.eos || decide (n = 3) && c.strnul ||
      decide (n = 4) && ckAnc c.type || decide (n = 5) && ckPriv c.type || decide (n = 7) && ckSafe c.type) := by
  have bit (k : Nat) (b : Bool) : (flag b <<< k).getLsbD n = (decide (n = k) && b) := by
    rw [BitVec.getLsbD_shiftLeft, getLsbD_flag]
    by_cases h : n = k <;> simp [hn, h] <;> omega
  simp only [ckStatus, BitVec.getLsbD_or, bit]

/-! ## The step, by the host's action (R240) -/

/-- All a step can do. -/
theorem step_cases (h : step s = .next t) :
    (s.inbox = [] ∧ t = s) ∨
    (∃ w rest, s.inbox = .command w :: rest ∧
      ((∃ why, decode w = .illegal why ∧ t = illegalWord (takeAction rest s)) ∨
        ∃ i, decode w = .command i ∧ exec i (takeAction rest s) = .next t)) ∨
    (∃ a b rest, s.inbox = .putCks a b :: rest ∧ t = hostPutCks a b (takeAction rest s)) ∨
    (∃ a b rest, s.inbox = .putSls a b :: rest ∧ t = hostPutSls a b (takeAction rest s)) ∨
    (∃ rest, s.inbox = .reset :: rest ∧ t = hardwareReset (takeAction rest s)) := by
  unfold step at h
  split at h
  case h_1 hin => exact .inl ⟨hin, (Host.Outcome.next.inj h).symm⟩
  case h_2 w rest hin =>
    refine .inr (.inl ⟨w, rest, hin, ?_⟩)
    split at h
    · exact .inl ⟨_, ‹_›, (Host.Outcome.next.inj h).symm⟩
    · exact .inr ⟨_, ‹_›, h⟩
  case h_3 hin => exact .inr (.inr (.inl ⟨_, _, _, hin, (Host.Outcome.next.inj h).symm⟩))
  case h_4 hin => exact .inr (.inr (.inr (.inl ⟨_, _, _, hin, (Host.Outcome.next.inj h).symm⟩)))
  case h_5 hin => exact .inr (.inr (.inr (.inr ⟨_, hin, (Host.Outcome.next.inj h).symm⟩)))

theorem step_command {w : CmdWord} {rest : List HostAction} {i : Instr} (hin : s.inbox = .command w :: rest)
    (hw : decode w = .command i) : step s = exec i (takeAction rest s) := by
  simp only [step, hin, hw]

/-- The reset values (R231): ID its constant, ROWMAX the parameter, every other register 0. -/
theorem readReg_resetWith (r : Reg) (p : Word) :
    readReg r (State.resetWith p) = if r = .id then idValue else if r = .rowmax then p else 0#32 := by
  cases r
  case ckStatus => exact show ckStatus CkUnit.reset = 0#32 by decide
  case ckCrc => exact show crcFinal CkUnit.reset.crcacc = 0#32 by decide
  all_goals rfl

/-- No register tells a hardware reset from the state after reset. -/
theorem readReg_hardwareReset (r : Reg) (s : State) :
    readReg r (hardwareReset s) = readReg r (State.resetWith s.rowmax) := by cases r <;> rfl

end Sys2Proof.Machine
end

section
/-! The step, the host's actions and the registers. -/

namespace Sys2Proof

open Machine

/-- Settles O1: each word is decoded by the tables. -/
theorem decodesWrittenOutWords : Obligations.DecodesWrittenOutWords := by
  refine ⟨?_, ?_, ?_, ?_, ?_, ?_, ?_, ?_, ?_⟩ <;> decide

/-- Settles O6: the step takes the word from the port and runs its command. -/
theorem stepRunsThePresentedCommand : Obligations.StepRunsThePresentedCommand := fun _ _ _ _ hin hw =>
  step_command hin hw

/-- Settles O7: a byte put into a canonical space is read back there and nowhere else; no action, no change. -/
theorem stepPerformsTheHostsActions : Obligations.StepPerformsTheHostsActions := by
  refine ⟨fun s a b rest hwf hin => ?_, fun s a b rest hwf hin => ?_, fun s hin => ?_⟩
  · exact ⟨_, by simp only [step, hin]; rfl, Memory.write_wf hwf a.isLt b, Memory.read_write_same hwf _ b,
      fun x hx => Memory.read_write_other hx b⟩
  · exact ⟨_, by simp only [step, hin]; rfl, Memory.write_wf hwf a.isLt b, Memory.read_write_same hwf _ b,
      fun x hx => Memory.read_write_other hx b⟩
  · simp only [step, hin]

/-- Settles O8: the reset state register by register. -/
theorem resetGivesTheResetValues : Obligations.ResetGivesTheResetValues := by
  refine ⟨fun s rest hin => ⟨hardwareReset (takeAction rest s), by simp only [step, hin], fun r => ?_, rfl, rfl,
    fun _ => rfl, rfl, rfl⟩, fun p => ⟨fun r => ?_, rfl, rfl, fun _ => rfl⟩⟩
  · rw [readReg_hardwareReset, readReg_resetWith]
    cases r <;> rfl
  · rw [readReg_resetWith]
    cases r <;> rfl

/-- Settles O12: a write that is refused changes the fault log alone, one that is stored its own register alone. -/
theorem wrrChangesNoOtherRegister : Obligations.WrrChangesNoOtherRegister := by
  intro s t r imm h
  by_cases hw : writable r s = true
  · rw [exec_wrr_writable hw, Host.Outcome.next.injEq] at h
    subst h
    exact ⟨fun r' hne _ => by rw [readReg_respond, readReg_writeReg_other hne],
      fun _ => by rw [readReg_respond, readReg_writeReg_same hw]⟩
  · rw [exec_wrr_notWritable hw, Host.Outcome.next.injEq] at h
    subst h
    exact ⟨fun r' _ hlog => readReg_refuse hlog _ s, fun hresp => by simp at hresp⟩

/-- Settles O13: each field of a status register takes its own bits. -/
theorem statusRegisterBits : Obligations.StatusRegisterBits := by
  intro s n hn
  rw [readReg, readReg, pxStatus, getLsbD_ckStatus s.ck hn, PxPhase.getLsbD_code _ hn, CkPhase.getLsbD_code _ hn]
  constructor <;> split <;> simp_all [ckAnc, ckPriv, ckSafe]

/-- Settles O56: every host action is performed, and every command answers. -/
theorem everyStepAnswers : Obligations.EveryStepAnswers := by
  intro s
  unfold step
  split
  case h_2 =>
    split
    · exact ⟨_, rfl⟩
    · exact exec_next _ _
  all_goals exact ⟨_, rfl⟩

end Sys2Proof
end

section
/-! The whole machine (60_exceptions.md): what an error changes, what a fault keeps, and what the units share. -/

namespace Sys2Proof.Machine

variable {i : Instr} {s t u : State}

/-! ## Units in FAULT (R206) -/

/-- A command other than CK.RESET leaves a faulted unit CK and PO as they are. -/
theorem Does.ck_faulted (h : Does i s t) (hf : s.ck.phase = .fault) (hi : i ≠ .ckReset) :
    t.ck = s.ck ∧ t.po = s.po := by
  cases h with
  | refuses | ckFaulted | nop | rdr | pxFaulted | pxReset | starts | geom => exact ⟨rfl, rfl⟩
  | ckRaises _ hp => exact absurd hf hp
  | wrr hw imm => exact ⟨writeReg_ck_faulted hw hf imm, writeReg_po s _ _⟩
  | ckReset => exact absurd rfl hi
  | noChunk hp | begins hp | readsInt _ hp | forwards _ hp | forwardsString _ _ hp | finishes hp => simp [hf] at hp
  | row => exact ⟨pxRowBody_ck s, pxRowBody_po s⟩
  | rows hp => exact ⟨pxRunBody_ck hp, pxRunBody_po hp⟩

/-- A command other than PX.RESET leaves a faulted unit PX and PIX as they are. -/
theorem Does.px_faulted (h : Does i s t) (hf : s.px.phase = .fault) (hi : i ≠ .pxReset) :
    t.px = s.px ∧ t.pix = s.pix := by
  cases h with
  | refuses | ckFaulted | pxFaulted | ckRaises | nop | rdr | ckReset | noChunk | begins => exact ⟨rfl, rfl⟩
  | readsInt | forwards | forwardsString | finishes => exact ⟨rfl, rfl⟩
  | wrr hw imm => exact ⟨writeReg_px_faulted hw hf imm, writeReg_pix s _ _⟩
  | pxReset => exact absurd rfl hi
  | starts hp | row hp | rows hp => simp [hf] at hp
  | geom hp => exact absurd hf hp

/-! ## What the fault log records (R23) -/

/-- The fault log once a response with this code has been given. -/
def RespCode.logged (log : Word) : RespCode → Word
  | .error e => setLogBit log e
  | .ok => log
  | .nochunk => log
  | .faulted => log

theorem pxRowBody_records (s : State) :
    ∃ r, (pxRowBody s).resp = some r ∧ (pxRowBody s).faultlog = r.code.logged s.faultlog := by
  rcases pxRowBody_cases s with ⟨_, e⟩ | ⟨_, _, e⟩ | ⟨_, f, _, e⟩ <;> rw [e]
  · exact ⟨_, rfl, rfl⟩
  · exact ⟨_, rfl, rfl⟩
  · exact ⟨_, rfl, decodeRow_faultlog s f⟩

/-- A row that answers an error is the fault of it. -/
theorem pxRowBody_error {e : ErrCode} {v : Word} (h : (pxRowBody s).resp = some ⟨.error e, v⟩) :
    v = 0#32 ∧ pxRowBody s = raise .px e s := by
  rcases pxRowBody_cases s with ⟨_, he⟩ | ⟨_, _, he⟩ | ⟨_, f, _, he⟩ <;> rw [he] at h ⊢ <;> simp at h
  · obtain ⟨rfl, rfl⟩ := h
    exact ⟨rfl, rfl⟩
  · obtain ⟨rfl, rfl⟩ := h
    exact ⟨rfl, rfl⟩

/-- Every outcome of a command records the error it answers; of PX.RUN's rows only the last can answer one. -/
theorem Does.records (h : Does i s t) : ∃ r, t.resp = some r ∧ t.faultlog = r.code.logged s.faultlog := by
  cases h with
  | refuses | ckFaulted | pxFaulted | ckRaises | nop | rdr | ckReset | noChunk | begins => exact ⟨_, rfl, rfl⟩
  | readsInt | forwards | forwardsString | finishes | pxReset | starts | geom => exact ⟨_, rfl, rfl⟩
  | wrr => exact ⟨_, rfl, writeReg_faultlog s _ _⟩
  | row => exact pxRowBody_records s
  | rows hp =>
    obtain ⟨n, u, hrows, hlast, -⟩ := pxRunBody_split hp
    rw [hlast, ← hrows.faultlog]
    exact pxRowBody_records u

/-! ## What the units share (R2) -/

/-- No command writes an input space, the parameter or the host's further actions. -/
theorem Does.shared (h : Does i s t) : t.cks = s.cks ∧ t.sls = s.sls ∧ t.rowmax = s.rowmax ∧ t.inbox = s.inbox := by
  cases h with
  | refuses | ckFaulted | pxFaulted | ckRaises | nop | rdr | ckReset | noChunk | begins => exact ⟨rfl, rfl, rfl, rfl⟩
  | readsInt | forwards | forwardsString | finishes | pxReset | starts | geom => exact ⟨rfl, rfl, rfl, rfl⟩
  | wrr => simp
  | row => simp
  | rows hp => exact ⟨pxRunBody_cks hp, pxRunBody_sls hp, pxRunBody_rowmax hp, pxRunBody_inbox hp⟩

/-- A CK command leaves unit PX and its space as they are. -/
theorem Does.px_kept (h : Does i s t) (hi : workOf i = some .ck ∨ i = .ckReset) :
    t.px = s.px ∧ t.pix = s.pix ∧ t.freeCount = s.freeCount := by
  cases h with
  | refuses | ckFaulted | pxFaulted | ckRaises | nop | rdr | ckReset | noChunk | begins => exact ⟨rfl, rfl, rfl⟩
  | readsInt | forwards | forwardsString | finishes => exact ⟨rfl, rfl, rfl⟩
  | wrr | pxReset | starts | row | rows | geom => simp [workOf] at hi

/-- A PX command leaves unit CK and its space as they are. -/
theorem Does.ck_kept (h : Does i s t) (hi : workOf i = some .px ∨ i = .pxReset) : t.ck = s.ck ∧ t.po = s.po := by
  cases h with
  | refuses | ckFaulted | pxFaulted | nop | rdr | pxReset | starts | geom => exact ⟨rfl, rfl⟩
  | row => exact ⟨pxRowBody_ck s, pxRowBody_po s⟩
  | rows hp => exact ⟨pxRunBody_ck hp, pxRunBody_po hp⟩
  | ckRaises hck =>
    rcases hi with hi | rfl
    · simp [hck] at hi
    · simp [workOf] at hck
  | readsInt hread | forwards hread | forwardsString _ hread =>
    have hck := workOf_of_isPayloadRead hread
    rcases hi with hi | rfl
    · simp [hck] at hi
    · simp [workOf] at hck
  | wrr | ckReset | noChunk | begins | finishes => simp [workOf] at hi

/-! ## CK commands see unit CK alone (R209, R214) -/

/-- Two states that agree on unit CK and its spaces. -/
def CkAgree (s s' : State) : Prop := s.ck = s'.ck ∧ s.cks = s'.cks ∧ s.po = s'.po

/-- What a CK command answers, by unit CK and its spaces alone. -/
def SeesCkAlone (f : State → State) : Prop :=
  ∀ s s', CkAgree s s' → (f s).ck = (f s').ck ∧ (f s).po = (f s').po ∧ (f s).resp = (f s').resp

theorem seesCkAlone_ite {c : State → Prop} [∀ s, Decidable (c s)] {f g : State → State}
    (hc : ∀ s s', CkAgree s s' → (c s ↔ c s')) (hf : SeesCkAlone f) (hg : SeesCkAlone g) :
    SeesCkAlone fun s => if c s then f s else g s := by
  intro s s' h
  simp only [hc s s' h]
  split_ifs
  · exact hf s s' h
  · exact hg s s' h

theorem seesCkAlone_refuse (e : ErrCode) : SeesCkAlone (refuse e) := fun _ _ ⟨hck, _, hpo⟩ => ⟨hck, hpo, rfl⟩

theorem seesCkAlone_raise (e : ErrCode) : SeesCkAlone (raise .ck e) := fun _ _ ⟨hck, _, hpo⟩ =>
  ⟨by rw [raise_ck_ck, raise_ck_ck, hck], hpo, rfl⟩

theorem seesCkAlone_answerFaulted : SeesCkAlone (answerFaulted .ck) := fun _ _ ⟨hck, _, hpo⟩ =>
  ⟨hck, hpo, by rw [answerFaulted_ck_resp, answerFaulted_ck_resp, hck]⟩

theorem seesCkAlone_ckCommand {p : CkPhase} {body : State → State} (h : SeesCkAlone body) :
    SeesCkAlone (ckCommand p body) :=
  seesCkAlone_ite (fun _ _ ⟨hck, _⟩ => by rw [hck]) seesCkAlone_answerFaulted
    (seesCkAlone_ite (fun _ _ ⟨hck, _⟩ => by rw [hck]) (seesCkAlone_refuse _) h)

theorem CkAgree.avail {s s' : State} (h : CkAgree s s') : ckAvail s = ckAvail s' := by
  rw [ckAvail, ckAvail, h.1]

theorem seesCkAlone_ckPre {n : Nat} {body : State → State} (h : SeesCkAlone body) : SeesCkAlone (ckPre n body) :=
  seesCkAlone_ite (fun _ _ h => by rw [h.1]) (seesCkAlone_raise _)
    (seesCkAlone_ite (fun _ _ h => by rw [h.avail]) (seesCkAlone_raise _) h)

theorem seesCkAlone_readInt (n : Nat) : SeesCkAlone (ckReadInt n) := fun _ _ ⟨hck, hcks, hpo⟩ => by
  simp [ckReadInt, ckPayload, hck, hcks, hpo]

theorem seesCkAlone_forward (n k : Nat) : SeesCkAlone (ckForward n k) := fun _ _ ⟨hck, hcks, hpo⟩ => by
  simp [ckForward, ckPayload, hck, hcks, hpo]

theorem seesCkAlone_forwardAll : SeesCkAlone fun s => ckForward s.ck.remain.toNat s.ck.remain.toNat s :=
  fun s s' h => by simpa only [h.1] using seesCkAlone_forward _ _ s s' h

theorem seesCkAlone_noChunk : SeesCkAlone ckNoChunk := fun _ _ ⟨hck, _, hpo⟩ => by
  simp [ckNoChunk, hck, hpo]

theorem seesCkAlone_begin : SeesCkAlone fun s =>
    ckBegin (beWord (s.cks.readN s.ck.pos.toNat 4)) (s.cks.readN (s.ck.pos.toNat + 4) 4) s :=
  fun _ _ ⟨hck, hcks, hpo⟩ => by simp [ckBegin, hck, hcks, hpo]

theorem seesCkAlone_end : SeesCkAlone fun s => ckEnd (beWord (s.cks.readN s.ck.pos.toNat 4)) s :=
  fun _ _ ⟨hck, hcks, hpo⟩ => by simp [ckEnd, hck, hcks, hpo]

theorem seesCkAlone_setStrnul (b : Bool) {f : State → State} (h : SeesCkAlone f) :
    SeesCkAlone fun s => setStrnul b (f s) := fun s s' ha =>
  have ⟨hck, hpo, hresp⟩ := h s s' ha
  ⟨by rw [setStrnul_ck, setStrnul_ck, hck], hpo, hresp⟩

theorem seesCkAlone_openBody : SeesCkAlone ckOpenBody :=
  seesCkAlone_ite (fun _ _ h => by rw [h.avail]) seesCkAlone_noChunk <|
  seesCkAlone_ite (fun _ _ h => by rw [h.avail]) (seesCkAlone_raise _) <|
  seesCkAlone_ite (fun _ _ ⟨hck, hcks, _⟩ => by rw [hck, hcks]) (seesCkAlone_raise _) <|
  seesCkAlone_ite (fun _ _ h => by rw [h.avail]) (seesCkAlone_raise _) <|
  seesCkAlone_ite (fun _ _ ⟨hck, hcks, _⟩ => by rw [hck, hcks]) (seesCkAlone_raise _) <|
  seesCkAlone_begin

theorem seesCkAlone_rdallBody : SeesCkAlone ckRdallBody :=
  seesCkAlone_ite (fun _ _ h => by rw [h.avail, h.1]) (seesCkAlone_raise _) seesCkAlone_forwardAll

theorem seesCkAlone_noNul : SeesCkAlone fun s =>
    if ckAvail s < s.ck.remain.toNat then raise .ck .eTrunc s
    else setStrnul false (ckForward s.ck.remain.toNat s.ck.remain.toNat s) :=
  seesCkAlone_ite (fun _ _ h => by rw [h.avail, h.1]) (seesCkAlone_raise _)
    (seesCkAlone_setStrnul false seesCkAlone_forwardAll)

theorem seesCkAlone_rdstrBody : SeesCkAlone ckRdstrBody := by
  intro s s' h
  have hnul : firstNul (ckPayload (min s'.ck.remain.toNat (ckAvail s')) s') =
      firstNul (ckPayload (min s.ck.remain.toNat (ckAvail s)) s) := by
    rw [← h.avail, ckPayload, ckPayload, ← h.1, ← h.2.1]
  unfold ckRdstrBody
  rw [hnul]
  cases firstNul (ckPayload (min s.ck.remain.toNat (ckAvail s)) s) with
  | some z => exact seesCkAlone_setStrnul true (seesCkAlone_forward (z + 1) z) s s' h
  | none => exact seesCkAlone_noNul s s' h

theorem seesCkAlone_finishBody : SeesCkAlone ckFinishBody :=
  seesCkAlone_ite (fun _ _ h => by rw [h.1]) (seesCkAlone_raise _) <|
  seesCkAlone_ite (fun _ _ h => by rw [h.avail]) (seesCkAlone_raise _) <|
  seesCkAlone_ite (fun _ _ ⟨hck, hcks, _⟩ => by rw [hck, hcks]) (seesCkAlone_raise _) <|
  seesCkAlone_end

/-- Every CK work command is a function of unit CK and its spaces. -/
theorem exec_seesCkAlone (hi : workOf i = some .ck) :
    ∃ f, (∀ s, exec i s = .next (f s)) ∧ SeesCkAlone f := by
  cases i
  case nop | rdr | wrr | ckReset | pxReset | pxStart | pxRow | pxRun | pxGeom => simp [workOf] at hi
  case ckOpen => exact ⟨_, fun _ => rfl, seesCkAlone_ckCommand seesCkAlone_openBody⟩
  case ckRd8 | ckRd16 | ckRd32 =>
    exact ⟨_, fun _ => rfl, seesCkAlone_ckCommand (seesCkAlone_ckPre (seesCkAlone_readInt _))⟩
  case ckRdn => exact ⟨_, fun _ => rfl, seesCkAlone_ckCommand (seesCkAlone_ckPre (seesCkAlone_forward _ _))⟩
  case ckRdall => exact ⟨_, fun _ => rfl, seesCkAlone_ckCommand seesCkAlone_rdallBody⟩
  case ckRdstr => exact ⟨_, fun _ => rfl, seesCkAlone_ckCommand seesCkAlone_rdstrBody⟩
  case ckFinish => exact ⟨_, fun _ => rfl, seesCkAlone_ckCommand seesCkAlone_finishBody⟩

end Sys2Proof.Machine
end

section
/-! The whole machine (60_exceptions.md). -/

namespace Sys2Proof

open Machine

/-- Settles O50: outside the resets a step on a faulted unit is a command that leaves the unit as it is, or an action of
the host that touches no unit. -/
theorem onlyResetLeavesFault : Obligations.OnlyResetLeavesFault := by
  intro s t h hreset
  rcases step_cases h with ⟨-, rfl⟩ | ⟨w, rest, hin, ⟨why, -, rfl⟩ | ⟨i, hw, hexec⟩⟩ | ⟨a, b, rest, -, rfl⟩ |
    ⟨a, b, rest, -, rfl⟩ | ⟨rest, hin, -⟩
  · exact ⟨fun _ _ => ⟨rfl, rfl⟩, fun _ _ => ⟨rfl, rfl⟩⟩
  · exact ⟨fun _ _ => ⟨rfl, rfl⟩, fun _ _ => ⟨rfl, rfl⟩⟩
  · refine ⟨fun hf hno => ?_, fun hf hno => ?_⟩
    · exact (exec_does hexec).ck_faulted hf fun hi => hno w rest hin (hi ▸ hw)
    · exact (exec_does hexec).px_faulted hf fun hi => hno w rest hin (hi ▸ hw)
  · exact ⟨fun _ _ => ⟨rfl, rfl⟩, fun _ _ => ⟨rfl, rfl⟩⟩
  · exact ⟨fun _ _ => ⟨rfl, rfl⟩, fun _ _ => ⟨rfl, rfl⟩⟩
  · exact absurd hin (hreset rest)

/-- Settles O51: a refusal and a fault set their error's bit, and nothing else touches the log. -/
theorem faultLogRecordsEveryError : Obligations.FaultLogRecordsEveryError := by
  intro i s t h
  obtain ⟨⟨code, v⟩, hresp, hlog⟩ := (exec_does h).records
  exact ⟨_, hresp, hlog.trans (by cases code <;> rfl)⟩

/-- Settles O52: an error is answered by a refusal or a fault alone; PX.RUN's is that of its last row. -/
theorem errorsChangeNothingElse : Obligations.ErrorsChangeNothingElse := by
  intro i s t e v h hresp
  cases exec_does h with
  | refuses =>
    obtain ⟨rfl, rfl⟩ : _ = e ∧ 0#32 = v := by simpa using hresp
    exact ⟨rfl, .inl rfl⟩
  | ckRaises =>
    obtain ⟨rfl, rfl⟩ : _ = e ∧ 0#32 = v := by simpa using hresp
    exact ⟨rfl, .inr (.inl rfl)⟩
  | row =>
    obtain ⟨hv, ht⟩ := pxRowBody_error hresp
    exact ⟨hv, .inr (.inr (.inl ht))⟩
  | rows hp =>
    obtain ⟨n, u, hrows, hlast, -⟩ := pxRunBody_split hp
    rw [hlast] at hresp ⊢
    obtain ⟨hv, ht⟩ := pxRowBody_error hresp
    exact ⟨hv, .inr (.inr (.inr ⟨rfl, n, u, hrows.execRows, hrows.run, exec_pxRow_runs hrows.run, ht⟩))⟩
  | ckFaulted | pxFaulted | nop | rdr | wrr | ckReset | pxReset | starts | geom => simp at hresp
  | noChunk | begins | readsInt | forwards | forwardsString | finishes =>
    simp [ckNoChunk, ckBegin, ckReadInt, ckForward, ckEnd] at hresp

/-- Settles O53: each outcome of a command, field by field. -/
theorem unitsShareNothing : Obligations.UnitsShareNothing := by
  intro i s t h
  have hdoes := exec_does h
  obtain ⟨hcks, hsls, hrowmax, hinbox⟩ := hdoes.shared
  exact ⟨hcks, hsls, hrowmax, hinbox, hdoes.px_kept, hdoes.ck_kept⟩

/-- Settles O54: every test and every effect of a CK command is a function of unit CK and its spaces. -/
theorem ckSeesOnlyItsOwnUnit : Obligations.CkSeesOnlyItsOwnUnit := by
  intro i s s' t t' hi hck hcks hpo h h'
  obtain ⟨f, hf, hsees⟩ := exec_seesCkAlone hi
  obtain rfl := Host.Outcome.next.inj ((hf s).symm.trans h)
  obtain rfl := Host.Outcome.next.inj ((hf s').symm.trans h')
  exact hsees s s' ⟨hck, hcks, hpo⟩

/-- Settles O55: the reader's two cases; an accepted PX.START leaves no cell written. -/
theorem unwrittenPixelIsAFaultOfTheReader : Obligations.UnwrittenPixelIsAFaultOfTheReader := by
  refine fun s t idx => ⟨fun h => by simp [readPix, h], fun c h => by simp [readPix, h], fun h hresp => ?_⟩
  cases exec_does h with
  | refuses | pxFaulted => simp at hresp
  | ckFaulted hi | ckRaises hi => simp [workOf] at hi
  | readsInt hi | forwards hi | forwardsString _ hi => simp [isPayloadRead] at hi
  | starts => rfl

end Sys2Proof
end

section
/-! Unit PX's commands (45_pixel_commands.md), the layer below their statements: the tests of PX.START, and what a
decoded row leaves in unit PX and in PIX. -/

namespace Sys2Proof.Machine

variable {s t u : State} {f : Filter}

/-! ## The tests of PX.START (R186) -/

/-- The size, depth and channel tests, which all answer E_RANGE. -/
def formatOk (s : State) : Bool :=
  dimOk s.px.width && dimOk s.px.height && depthLegal s.px.depth.toNat && chansLegal s.px.chans.toNat &&
    formatLegal s.px.depth.toNat s.px.chans.toNat

theorem startError_eq (s : State) :
    startError s =
      if formatOk s = false then some .eRange
      else if 1 < s.px.ilace.toNat then some .eUnsupported
      else if s.rowmax.toNat < rowBytes s.px.width.toNat s.px.chans.toNat s.px.depth.toNat then some .eRowmax
      else none := by
  rw [startError, ← ite_or, ← ite_or, ← ite_or]
  refine if_congr ?_ rfl rfl
  simp [formatOk, dimLegal_toNat, or_assoc, Bool.and_eq_false_iff, -Bool.and_eq_false_imp]

theorem depthLegal_iff_mem (d : Nat) : depthLegal d = true ↔ d ∈ [1, 2, 4, 8, 16] := by
  simp [depthLegal_iff]

theorem chansLegal_iff_mem (ch : Nat) : chansLegal ch = true ↔ ch ∈ [1, 2, 3, 4] := by
  simp [chansLegal]
  omega

theorem formatLegal_iff (d : Nat) (ch : Word) : formatLegal d ch.toNat = true ↔ ¬ (d < 8 ∧ ch ≠ 1#32) := by
  have : ch = 1#32 ↔ ch.toNat = 1 := BitVec.toNat_inj.symm
  simp [formatLegal, this]
  omega

theorem formatOk_iff (s : State) :
    formatOk s = true ↔ dimOk s.px.width = true ∧ dimOk s.px.height = true ∧ s.px.depth.toNat ∈ [1, 2, 4, 8, 16] ∧
      s.px.chans.toNat ∈ [1, 2, 3, 4] ∧ ¬ (s.px.depth.toNat < 8 ∧ s.px.chans ≠ 1#32) := by
  rw [formatOk, Bool.and_eq_true, Bool.and_eq_true, Bool.and_eq_true, Bool.and_eq_true, depthLegal_iff_mem,
    chansLegal_iff_mem, formatLegal_iff, and_assoc, and_assoc, and_assoc]

theorem exec_pxStart_runs (hp : s.px.phase = .idle ∨ s.px.phase = .done) :
    exec .pxStart s = .next (pxStartBody s) := by
  have hexec : exec .pxStart s = .next (pxCommand [.idle, .done] pxStartBody s) := rfl
  rw [hexec, pxCommand_runs (by rcases hp with h | h <;> simp [h]) (by simpa using hp)]

theorem pxStartBody_refuses {e : ErrCode} (h : startError s = some e) : pxStartBody s = refuse e s := by
  simp only [pxStartBody, h]

theorem pxStartBody_starts (h : startError s = none) : pxStartBody s = respond .ok 0#32 (beginRun s) := by
  simp only [pxStartBody, h]

/-! ## What a row leaves (R187) -/

theorem decodeRow_sameRow (f : Filter) (h : s.px.row + 1#32 ≠ s.px.ph) : decodeRow f s = afterRow f s := by
  rcases endPass_cases (afterRow f s) with ⟨_, e⟩ | ⟨hrow, _⟩ | ⟨hrow, _⟩
  · exact e
  · exact absurd hrow h
  · exact absurd hrow h

theorem decodeRow_done (f : Filter) (h : s.px.row + 1#32 = s.px.ph)
    (hn : nextPass s.px.ilace s.px.width.toNat s.px.height.toNat s.px.pass.toNat = none) :
    decodeRow f s = { afterRow f s with px := { (afterRow f s).px with phase := .done } } := by
  rcases endPass_cases (afterRow f s) with ⟨hrow, _⟩ | ⟨_, _, e⟩ | ⟨_, n, hn', _⟩
  · exact absurd h hrow
  · exact e
  · exact absurd (hn.symm.trans hn') (by simp)

theorem decodeRow_nextPass (f : Filter) {n : Nat} (h : s.px.row + 1#32 = s.px.ph)
    (hn : nextPass s.px.ilace s.px.width.toNat s.px.height.toNat s.px.pass.toNat = some n) :
    decodeRow f s = setPass n (afterRow f s) := by
  rcases endPass_cases (afterRow f s) with ⟨hrow, _⟩ | ⟨_, hn', _⟩ | ⟨_, m, hn', e⟩
  · exact absurd h hrow
  · exact absurd (hn.symm.trans hn') (by simp)
  · obtain rfl : n = m := Option.some.inj (hn.symm.trans hn')
    exact e

theorem decodeRow_pix (f : Filter) (s : State) : (decodeRow f s).pix =
    writeCells (pxIndex s) (cell s.px.chans.toNat s.px.depth.toNat (decodedRow f s ++ s.px.cur.drop s.px.rb.toNat)) 0
      s.px.pw.toNat s.pix :=
  (endPass_pix (afterRow f s)).trans (afterRow_pix f s)

/-- Distinct columns of a row have distinct indices. -/
theorem pxIndex_injective (s : State) (a b : Nat) (h : pxIndex s a = pxIndex s b) : a = b :=
  pixIndex_inj (geom_xStep_pos _ _) _ _ _ _ h

theorem read_decodeRow_other (f : Filter) {idx : Nat} (h : ∀ q, q < s.px.pw.toNat → idx ≠ pxIndex s q) :
    (decodeRow f s).pix.read idx = s.pix.read idx := by
  rw [decodeRow_pix]
  exact read_writeCells_other _ _ _ _ _ fun q _ hq => h q (by omega)

theorem read_decodeRow_same (f : Filter) (hr : PxRunning s) {q : Nat} (hq : q < s.px.pw.toNat) :
    (decodeRow f s).pix.read (pxIndex s q) = some (cell s.px.chans.toNat s.px.depth.toNat (decodedRow f s) q) := by
  obtain ⟨-, -, hdepth, -⟩ := startError_none hr.config
  rw [decodeRow_pix, read_writeCells_same _ _ _ _ _ (pxIndex_injective s) (Nat.zero_le q) (by omega),
    cell_append hdepth hq (by rw [← hr.rowBytes]; simp)]

theorem advance_pos (s : State) :
    s.px.pos + (1#32 + s.px.rb) = BitVec.ofNat 32 (s.px.pos.toNat + 1 + s.px.rb.toNat) := by
  simp [BitVec.ofNat_add, BitVec.add_assoc]

/-- Each byte of the row by its neighbours (R140, R148). -/
theorem getD_decodedRow (f : Filter) (hr : PxRunning s) {i : Nat} (hi : i < s.px.rb.toNat) :
    (decodedRow f s).getD i 0#8 = s.sls.read (s.px.pos.toNat + 1 + i) +
      pred f (if s.px.bpp.toNat ≤ i then (decodedRow f s).getD (i - s.px.bpp.toNat) 0#8 else 0#8)
        (s.px.prev.getD i 0#8)
        (if s.px.bpp.toNat ≤ i then s.px.prev.getD (i - s.px.bpp.toNat) 0#8 else 0#8) := by
  rw [← getD_scanline hi]
  exact getD_unfilter f (hr.bpp ▸ bytesPerPixel_pos _ _) _ _ i (by simpa using hi)

theorem pxRowBody_short (h : pxAvail s < 1 + s.px.rb.toNat) : pxRowBody s = raise .px .eSltrunc s := by
  rcases pxRowBody_cases s with ⟨_, e⟩ | ⟨ha, _⟩ | ⟨ha, _⟩
  · exact e
  · omega
  · omega

theorem pxRowBody_badFilter (h : 1 + s.px.rb.toNat ≤ pxAvail s)
    (hf : Filter.ofByte (s.sls.read s.px.pos.toNat) = none) : pxRowBody s = raise .px .eFilter s := by
  rcases pxRowBody_cases s with ⟨ha, _⟩ | ⟨_, _, e⟩ | ⟨_, f, hf', _⟩
  · omega
  · exact e
  · exact absurd (hf.symm.trans hf') (by simp)

theorem pxRowBody_decodes (h : 1 + s.px.rb.toNat ≤ pxAvail s)
    (hf : Filter.ofByte (s.sls.read s.px.pos.toNat) = some f) : pxRowBody s = respond .ok 0#32 (decodeRow f s) := by
  rcases pxRowBody_cases s with ⟨ha, _⟩ | ⟨_, hf', _⟩ | ⟨_, g, hg, e⟩
  · omega
  · exact absurd (hf.symm.trans hf') (by simp)
  · obtain rfl : f = g := Option.some.inj (hf.symm.trans hg)
    exact e

end Sys2Proof.Machine
end

section
/-! Unit PX's commands (45_pixel_commands.md): PX.RESET, PX.START and PX.ROW. -/

namespace Sys2Proof

open Machine

/-- Settles O39: PX.RESET is defined as the reset values of R231 with fresh line buffers. -/
theorem pxResetRestoresTheUnit : Obligations.PxResetRestoresTheUnit := fun _ => ⟨_, _, _, rfl⟩

/-- Settles O40: the phase, then the tests of PX.START in three groups; past them all, pass 0 is set up. -/
theorem pxStartFollowsItsTests : Obligations.PxStartFollowsItsTests := by
  intro s
  have hexec : exec .pxStart s = .next (pxCommand [.idle, .done] pxStartBody s) := rfl
  refine ⟨fun hf => ?_, fun hrun => ?_, fun hp => ?_⟩
  · rw [hexec, pxCommand_fault hf]
    rfl
  · rw [hexec, pxCommand_wrongPhase (by simp [hrun]) (by simp [hrun])]
  rw [exec_pxStart_runs hp]
  have herror := startError_eq s
  refine ⟨fun hbad => ?_, fun hw hh hd hc hfmt => ?_⟩
  · have hformat : formatOk s = false := by
      rw [← Bool.not_eq_true, formatOk_iff]
      rintro ⟨hw, hh, hd, hc, hfmt⟩
      rcases hbad with h | h | h | h | h
      · simp [hw] at h
      · simp [hh] at h
      · exact h hd
      · exact h hc
      · exact hfmt h
    rw [pxStartBody_refuses (herror.trans (if_pos hformat))]
  · have hformat : formatOk s = true := (formatOk_iff s).mpr ⟨hw, hh, hd, hc, hfmt⟩
    rw [if_neg (by simp [hformat])] at herror
    refine ⟨fun hi => ?_, fun hi hrow => ?_, fun hi hrow => ?_⟩
    · rw [pxStartBody_refuses (herror.trans (if_pos hi))]
    · rw [if_neg (by omega)] at herror
      rw [pxStartBody_refuses (herror.trans (if_pos hrow))]
    · rw [if_neg (by omega)] at herror
      rw [pxStartBody_starts (herror.trans (if_neg (Nat.not_lt.mpr hrow)))]
      rfl

/-- Settles O42: the phase, then the stream test before the filter byte. -/
theorem pxRowRefusesAndFaultsInOrder : Obligations.PxRowRefusesAndFaultsInOrder := by
  intro s
  have hexec : exec .pxRow s = .next (pxCommand [.run] pxRowBody s) := rfl
  refine ⟨fun hf => ?_, fun hp => ?_, fun hrun => ?_⟩
  · rw [hexec, pxCommand_fault hf]
    rfl
  · rw [hexec]
    rcases hp with h | h <;> rw [pxCommand_wrongPhase (by simp [h]) (by simp [h])]
  · rw [exec_pxRow_runs hrun]
    exact ⟨fun h => by rw [pxRowBody_short h],
      fun h hbyte => by rw [pxRowBody_badFilter h ((Filter.ofByte_eq_none_iff _).mpr hbyte)]⟩

/-- Settles O41: the row is the reconstruction loop's, its cells are the placement loop's, and the end of the row is one
of three. -/
theorem pxRowDecodesOneScanline : Obligations.PxRowDecodesOneScanline := by
  intro s f hr hrun ha hf
  refine ⟨decodedRow f s, respond .ok 0#32 (decodeRow f s), ?_, by simp, fun i hi => getD_decodedRow f hr hi,
    fun q hq => read_decodeRow_same f hr hq, fun idx h => read_decodeRow_other f h, fun h => ?_, fun h hn => ?_,
    fun p h hn => ?_, rfl, ?_⟩
  · rw [exec_pxRow_runs hrun, pxRowBody_decodes ha hf]
  · rw [respond_px, decodeRow_sameRow f h, afterRow_px, advance_pos]
  · rw [respond_px, decodeRow_done f h hn, afterRow_px, advance_pos]
  · rw [respond_px, decodeRow_nextPass f h hn, setPass_px, afterRow_px, advance_pos]
    rfl
  · have hframe := congrArg (fun t => { t with resp := s.resp }) (decodeRow_frame f s)
    exact hframe

end Sys2Proof
end

section
/-! The invariant of legal states (R23, R30 to R32, R36, R44, R45, R63): what each part of it rests on, and that every
command keeps each part. -/

namespace Sys2Proof.Machine

variable {i : Instr} {s t u : State} {f : Filter}

/-! ## The fault log grows (R23) -/

/-- The fault log is as before, or has one error's bit set. -/
def LogGrows (s t : State) : Prop := t.faultlog = s.faultlog ∨ ∃ e, t.faultlog = setLogBit s.faultlog e

theorem logGrows_exec (h : exec i s = .next t) : LogGrows s t := by
  obtain ⟨⟨code, v⟩, -, hlog⟩ := (exec_does h).records
  cases code with
  | ok | nochunk | faulted => exact .inl hlog
  | error e => exact .inr ⟨e, hlog⟩

theorem LogGrows.bit (h : LogGrows s t) {n : Nat} (hn : s.faultlog.getLsbD n = true) : t.faultlog.getLsbD n = true := by
  rcases h with h | ⟨e, h⟩ <;> rw [h]
  · exact hn
  · rw [setLogBit, BitVec.getLsbD_or, hn, Bool.true_or]

theorem toNat_logBit_lt (e : ErrCode) : e.logBit.toNat < 2 ^ 13 := by cases e <;> decide

theorem LogGrows.lt (h : LogGrows s t) (hs : s.faultlog.toNat < 2 ^ 13) : t.faultlog.toNat < 2 ^ 13 := by
  rcases h with h | ⟨e, h⟩ <;> rw [h]
  · exact hs
  · rw [setLogBit, BitVec.toNat_or]
    exact Nat.or_lt_two_pow hs (toNat_logBit_lt e)

/-- The error's own bit is set (R201, R204). -/
theorem setLogBit_own (log : Word) (e : ErrCode) : (setLogBit log e).getLsbD (e.word.toNat - 16) = true := by
  rw [setLogBit, BitVec.getLsbD_or, Bool.or_eq_true]
  exact .inr (by cases e <;> decide)

/-! ## The spaces (R36, R63) -/

theorem SpacesLegal.congr (h : SpacesLegal s) (hcks : t.cks = s.cks) (hsls : t.sls = s.sls) (hpix : t.pix = s.pix)
    (hpoPos : t.ck.poPos = s.ck.poPos) (hpo : t.po = s.po) : SpacesLegal t :=
  ⟨hcks ▸ h.cks, hsls ▸ h.sls, hpix ▸ h.pix, by rw [hpoPos, hpo]; exact h.poPos⟩

theorem spacesLegal_ckForward (h : SpacesLegal s) (n k : Nat) : SpacesLegal (ckForward n k s) :=
  ⟨h.cks, h.sls, h.pix, by simp [ckForward, h.poPos, BitVec.ofNat_add]⟩

theorem spacesLegal_pxRowBody (h : SpacesLegal s) : SpacesLegal (pxRowBody s) := by
  rcases pxRowBody_cases s with ⟨_, e⟩ | ⟨_, _, e⟩ | ⟨_, f, _, e⟩
  · exact e ▸ h.congr rfl rfl rfl rfl rfl
  · exact e ▸ h.congr rfl rfl rfl rfl rfl
  · have hpix : Assoc.Rising (decodeRow f s).pix := decodeRow_pix f s ▸ rising_writeCells _ _ _ _ h.pix
    exact ⟨by simpa using h.cks, by simpa using h.sls, by simpa [e] using hpix, by simpa using h.poPos⟩

theorem writeReg_poPos (r : Reg) (v : Word) (s : State) : (writeReg r v s).ck.poPos = s.ck.poPos := by
  cases r <;> rfl

theorem Does.spacesLegal (h : Does i s t) (hl : SpacesLegal s) : SpacesLegal t := by
  cases h with
  | refuses | ckFaulted | pxFaulted | ckRaises | nop | rdr | noChunk | begins => exact hl.congr rfl rfl rfl rfl rfl
  | readsInt | finishes | pxReset | geom => exact hl.congr rfl rfl rfl rfl rfl
  | wrr => exact hl.congr (by simp) (by simp) (by simp) (writeReg_poPos _ _ s) (by simp)
  | ckReset => exact ⟨hl.cks, hl.sls, hl.pix, rfl⟩
  | forwards => exact spacesLegal_ckForward hl _ _
  | forwardsString => exact (spacesLegal_ckForward hl _ _).congr rfl rfl rfl rfl rfl
  | starts => exact ⟨hl.cks, hl.sls, List.Pairwise.nil, hl.poPos⟩
  | row => exact spacesLegal_pxRowBody hl
  | rows hp => exact runRows_induction (fun _ _ => spacesLegal_pxRowBody) hp hl

/-! ## Unit CK (R23, R27, R30 to R32) -/

theorem CkLegal.congr (h : CkLegal s) (hlog : LogGrows s t) (hphase : t.ck.phase = s.ck.phase)
    (herr : t.ck.err = s.ck.err) (hremain : t.ck.remain = s.ck.remain)
    (hdeclen : t.ck.declen = s.ck.declen) (htype : t.ck.type = s.ck.type) : CkLegal t where
  fault hp := by
    obtain ⟨hlo, hhi, hbit⟩ := h.fault (hphase ▸ hp)
    rw [herr]
    exact ⟨hlo, hhi, hlog.bit hbit⟩
  noFault hp := herr ▸ h.noFault (hphase ▸ hp)
  budget := by rw [hremain, hdeclen]; exact h.budget
  length := hdeclen ▸ h.length
  type := htype ▸ h.type

theorem CkLegal.of_ck_eq (h : CkLegal s) (hlog : LogGrows s t) (hck : t.ck = s.ck) : CkLegal t :=
  h.congr hlog (by rw [hck]) (by rw [hck]) (by rw [hck]) (by rw [hck]) (by rw [hck])

theorem ckLegal_raise {e : ErrCode} (h : CkLegal s) (he : 22 ≤ e.word.toNat ∧ e.word.toNat ≤ 26) :
    CkLegal (raise .ck e s) :=
  ⟨fun _ => ⟨he.1, he.2, setLogBit_own _ e⟩, fun hp => absurd rfl hp, h.budget, h.length, h.type⟩

theorem ckLegal_ckBegin {bytes : List Byte} (h : CkLegal s) (hp : s.ck.phase = .idle) {len : Word}
    (hlen : len.toNat < 2 ^ 31) (ht : typeValid bytes = true) : CkLegal (ckBegin len bytes s) :=
  ⟨fun hp => by simp [ckBegin] at hp, fun _ => h.noFault (by simp [hp]), le_rfl, hlen, .inr ⟨bytes, ht, rfl⟩⟩

/-- A payload read lowers the budget. -/
theorem CkLegal.consume {n : Nat} (h : CkLegal s) (hn : n ≤ s.ck.remain.toNat) (hlog : t.faultlog = s.faultlog)
    (hphase : t.ck.phase = s.ck.phase) (herr : t.ck.err = s.ck.err)
    (hremain : t.ck.remain = s.ck.remain - BitVec.ofNat 32 n) (hdeclen : t.ck.declen = s.ck.declen)
    (htype : t.ck.type = s.ck.type) : CkLegal t where
  fault hp := by rw [herr, hlog]; exact h.fault (hphase ▸ hp)
  noFault hp := herr ▸ h.noFault (hphase ▸ hp)
  budget := by
    have hbudget := h.budget
    have hlt := s.ck.remain.isLt
    rw [hremain, ← ofNat_toNat_sub _ hn, hdeclen, BitVec.toNat_ofNat]
    omega
  length := hdeclen ▸ h.length
  type := htype ▸ h.type

theorem writeReg_ckFields (r : Reg) (v : Word) (s : State) :
    (writeReg r v s).ck.phase = s.ck.phase ∧ (writeReg r v s).ck.err = s.ck.err ∧
      (writeReg r v s).ck.remain = s.ck.remain ∧ (writeReg r v s).ck.declen = s.ck.declen ∧
      (writeReg r v s).ck.type = s.ck.type := by
  cases r <;> exact ⟨rfl, rfl, rfl, rfl, rfl⟩

theorem ckLegal_of_reset (h : t.ck = CkUnit.reset) : CkLegal t := by
  constructor <;> simp [h, CkUnit.reset]

theorem ckLegal_exec (h : exec i s = .next t) (hl : CkLegal s) : CkLegal t := by
  have hlog := logGrows_exec h
  cases exec_does h with
  | refuses | ckFaulted | pxFaulted | nop | rdr | noChunk | pxReset | starts | geom =>
    exact hl.congr hlog rfl rfl rfl rfl rfl
  | ckRaises _ _ he => exact ckLegal_raise hl he
  | wrr hw imm =>
    obtain ⟨hphase, herr, hremain, hdeclen, htype⟩ := writeReg_ckFields _ imm s
    exact hl.congr hlog hphase herr hremain hdeclen htype
  | ckReset => exact ckLegal_of_reset rfl
  | begins hp _ hlen ht => exact ckLegal_ckBegin hl hp (by rw [beWord_toNat (by simp)]; exact hlen) ht
  | readsInt _ _ hb | forwards _ _ hb | forwardsString _ _ _ hb => exact hl.consume hb rfl rfl rfl rfl rfl rfl
  | finishes hp =>
    exact ⟨fun hp => by simp [ckEnd] at hp, fun _ => hl.noFault (by simp [hp]), hl.budget, hl.length, hl.type⟩
  | row => exact hl.of_ck_eq hlog (pxRowBody_ck s)
  | rows hp => exact hl.of_ck_eq hlog (pxRunBody_ck hp)

/-! ## A run under way (R44, R45, R191) -/

/-- What a run under way rests on: the parameter, the configuration and the pass registers. -/
theorem PxRunning.of_px (h : PxRunning s) {phase : PxPhase} {err pos len qw qh : Word} {prev cur : List Byte}
    (hrowmax : t.rowmax = s.rowmax) (hpx : t.px = { s.px with
      phase := phase, err := err, pos := pos, len := len, qw := qw, qh := qh, prev := prev, cur := cur }) :
    PxRunning t where
  config := by
    have hconfig := h.config
    unfold startError at hconfig ⊢
    rw [hrowmax, hpx]
    exact hconfig
  pass := by rw [hpx]; exact h.pass
  sequential := by rw [hpx]; exact h.sequential
  width := by rw [pxPassDim, hpx]; exact h.width
  height := by rw [pxPassDim, hpx]; exact h.height
  nonEmpty := by rw [hpx]; exact h.nonEmpty
  rowBytes := by rw [hpx]; exact h.rowBytes
  bpp := by rw [hpx]; exact h.bpp
  row := by rw [hpx]; exact h.row

theorem pxPassDim_le (s : State) (p : Nat) :
    (pxPassDim s p).1 ≤ s.px.width.toNat ∧ (pxPassDim s p).2 ≤ s.px.height.toNat :=
  ⟨passExtent_le (geom_xStep_pos _ _) _ _, passExtent_le (geom_yStep_pos _ _) _ _⟩

theorem rowBytes_pass_le (hconfig : startError s = none) (p : Nat) :
    rowBytes (pxPassDim s p).1 s.px.chans.toNat s.px.depth.toNat ≤ s.rowmax.toNat := by
  obtain ⟨-, -, -, -, -, -, hrow⟩ := startError_none hconfig
  exact le_trans (rowBytes_mono _ _ (pxPassDim_le s p).1) hrow

/-- A scanline of a run fits the line buffers. -/
theorem PxRunning.rb_le (h : PxRunning s) : s.px.rb.toNat ≤ s.rowmax.toNat := by
  rw [h.rowBytes, h.width]
  exact rowBytes_pass_le h.config _

/-- Setting up a non-empty pass of an accepted configuration (R191). -/
theorem pxRunning_setPass {p : Nat} (hconfig : startError s = none) (hp : p ≤ 6) (hseq : s.px.ilace = 0#32 → p = 0)
    (hbpp : s.px.bpp.toNat = bytesPerPixel s.px.chans.toNat s.px.depth.toNat)
    (hne : 0 < (pxPassDim s p).1 ∧ 0 < (pxPassDim s p).2) : PxRunning (setPass p s) := by
  have hw := s.px.width.isLt
  have hh := s.px.height.isLt
  have hr := s.rowmax.isLt
  obtain ⟨hwidth, hheight⟩ := pxPassDim_le s p
  have hpw : (BitVec.ofNat 32 (pxPassDim s p).1).toNat = (pxPassDim s p).1 := Nat.mod_eq_of_lt (by omega)
  have hph : (BitVec.ofNat 32 (pxPassDim s p).2).toNat = (pxPassDim s p).2 := Nat.mod_eq_of_lt (by omega)
  have hpass : (BitVec.ofNat 32 p).toNat = p := Nat.mod_eq_of_lt (by omega)
  have hdim : pxPassDim (setPass p s) (setPass p s).px.pass.toNat = pxPassDim s p := congrArg (pxPassDim s) hpass
  refine ⟨hconfig, hpass.symm ▸ hp, fun h => by rw [setPass_px, hseq h], ?_, ?_, ?_, ?_, hbpp, ?_⟩
  · rw [hdim]; exact hpw
  · rw [hdim]; exact hph
  · exact hpw.symm ▸ hne.1
  · exact (Nat.mod_eq_of_lt (lt_of_le_of_lt (rowBytes_pass_le hconfig p) hr)).trans
      (congrArg (rowBytes · s.px.chans.toNat s.px.depth.toNat) hpw.symm)
  · exact hph.symm ▸ hne.2

theorem PxRunning.ilace (h : PxRunning s) : s.px.ilace = 0#32 ∨ s.px.ilace = 1#32 := by
  obtain ⟨-, -, -, -, -, hi, -⟩ := startError_none h.config
  have h01 : s.px.ilace.toNat = 0 ∨ s.px.ilace.toNat = 1 := by omega
  exact h01.imp BitVec.eq_of_toNat_eq BitVec.eq_of_toNat_eq

/-- The pass that `nextPass` names is a non-empty pass of the progressive scheme behind the current one (R161). -/
theorem nextPass_some {ilace : Word} {w h p q : Nat} (hn : nextPass ilace w h p = some q) :
    ilace = 1#32 ∧ p < q ∧ q ≤ 6 ∧ passNonEmpty w h (geomRow q) = true ∧
      ∀ r, p < r → r < q → passNonEmpty w h (geomRow r) = false := by
  by_cases hi : ilace = 1#32
  · subst hi
    exact ⟨rfl, (nextPass_eq_some_iff w h p q).mp hn⟩
  · rw [nextPass_sequential hi] at hn
    cases hn

theorem pxPassDim_pos_iff (hi : s.px.ilace = 1#32) (p : Nat) :
    passNonEmpty s.px.width.toNat s.px.height.toNat (geomRow p) = true ↔
      0 < (pxPassDim s p).1 ∧ 0 < (pxPassDim s p).2 := by
  rw [pxPassDim, hi, geom_interlaced]
  simp [passNonEmpty]

theorem toNat_row_succ (h : PxRunning s) : (s.px.row + 1#32).toNat = s.px.row.toNat + 1 := by
  have hrow := h.row
  have hlt := s.px.ph.isLt
  rw [BitVec.toNat_add]
  change (s.px.row.toNat + 1) % 2 ^ 32 = _
  omega

/-- The next row of the same pass. -/
theorem pxRunning_afterRow (f : Filter) (h : PxRunning s) (hrow : s.px.row + 1#32 ≠ s.px.ph) :
    PxRunning (afterRow f s) := by
  have hsucc := toNat_row_succ h
  have hlt := h.row
  have hne : s.px.row.toNat + 1 ≠ s.px.ph.toNat := fun he => hrow (BitVec.eq_of_toNat_eq (hsucc.trans he))
  refine ⟨h.config, h.pass, h.sequential, h.width, h.height, h.nonEmpty, h.rowBytes, h.bpp, ?_⟩
  change (s.px.row + 1#32).toNat < s.px.ph.toNat
  omega

/-- The first row of the next pass. -/
theorem pxRunning_nextPass (f : Filter) {n : Nat} (h : PxRunning s)
    (hn : nextPass s.px.ilace s.px.width.toNat s.px.height.toNat s.px.pass.toNat = some n) :
    PxRunning (setPass n (afterRow f s)) := by
  obtain ⟨hi, -, hn6, hne, -⟩ := nextPass_some hn
  refine pxRunning_setPass h.config hn6 (fun h0 => ?_) h.bpp ((pxPassDim_pos_iff hi n).mp hne)
  exact absurd (hi.symm.trans h0) (by decide)

/-! ## Unit PX (R38, R44, R204) -/

theorem PxLegal.of_px_eq (h : PxLegal s) (hlog : LogGrows s t) (hrowmax : t.rowmax = s.rowmax) (hpx : t.px = s.px) :
    PxLegal t where
  fault hp := by
    rw [hpx] at hp ⊢
    obtain ⟨hlo, hhi, hbit⟩ := h.fault hp
    exact ⟨hlo, hhi, hlog.bit hbit⟩
  noFault hp := by rw [hpx] at hp ⊢; exact h.noFault hp
  running hp := (h.running (hpx ▸ hp)).of_px hrowmax hpx
  done hp := by rw [hpx] at hp ⊢; exact h.done hp

theorem pxLegal_raise {e : ErrCode} (h : PxRunning s) (he : 27 ≤ e.word.toNat ∧ e.word.toNat ≤ 28) :
    PxLegal (raise .px e s) :=
  ⟨fun _ => ⟨he.1, he.2, setLogBit_own _ e⟩, fun hp => absurd rfl hp, fun _ => h.of_px rfl rfl,
    fun hp => by simp at hp⟩

theorem pxLegal_of_running (hp : t.px.phase = .run) (herr : t.px.err = 0#32) (h : PxRunning t) : PxLegal t :=
  ⟨fun hf => by simp [hp] at hf, fun _ => herr, fun _ => h, fun hd => by simp [hp] at hd⟩

/-- In IDLE and DONE the run's registers are free, but for what DONE leaves. -/
theorem pxLegal_of_resting (hp : t.px.phase = .idle ∨ t.px.phase = .done) (herr : t.px.err = 0#32)
    (hdone : t.px.phase = .done → t.px.row = t.px.ph) : PxLegal t :=
  ⟨fun hf => by simp [hf] at hp, fun _ => herr, fun hr => by rcases hr with hr | hr <;> simp [hr] at hp, hdone⟩

theorem pxLegal_decodeRow (f : Filter) (hp : s.px.phase = .run) (h : PxLegal s) : PxLegal (decodeRow f s) := by
  have hr := h.running (.inl hp)
  have herr : s.px.err = 0#32 := h.noFault (by simp [hp])
  by_cases hrow : s.px.row + 1#32 = s.px.ph
  · cases hn : nextPass s.px.ilace s.px.width.toNat s.px.height.toNat s.px.pass.toNat with
    | none =>
      rw [decodeRow_done f hrow hn]
      exact pxLegal_of_resting (.inr rfl) herr fun _ => hrow
    | some n =>
      rw [decodeRow_nextPass f hrow hn]
      exact pxLegal_of_running hp herr (pxRunning_nextPass f hr hn)
  · rw [decodeRow_sameRow f hrow]
    exact pxLegal_of_running hp herr (pxRunning_afterRow f hr hrow)

theorem pxLegal_pxRowBody (hp : s.px.phase = .run) (h : PxLegal s) : PxLegal (pxRowBody s) := by
  have hr := h.running (.inl hp)
  rcases pxRowBody_cases s with ⟨_, e⟩ | ⟨_, _, e⟩ | ⟨_, f, _, e⟩ <;> rw [e]
  · exact pxLegal_raise hr (by decide)
  · exact pxLegal_raise hr (by decide)
  · exact (pxLegal_decodeRow f hp h).of_px_eq (.inl rfl) rfl rfl

theorem writeReg_pxFields (r : Reg) (v : Word) (s : State) :
    (writeReg r v s).px.phase = s.px.phase ∧ (writeReg r v s).px.err = s.px.err ∧
      (writeReg r v s).px.row = s.px.row ∧ (writeReg r v s).px.ph = s.px.ph ∧
      (writeReg r v s).px.prev = s.px.prev ∧ (writeReg r v s).px.cur = s.px.cur := by
  cases r <;> exact ⟨rfl, rfl, rfl, rfl, rfl, rfl⟩

theorem pxLegal_writeReg {r : Reg} (hw : writable r s = true) (imm : Word) (h : PxLegal s) :
    PxLegal (writeReg r imm s) := by
  rcases writable_cases hw with ⟨rfl, -⟩ | ⟨rfl, -⟩ | ⟨-, hp⟩
  · exact h.of_px_eq (.inl rfl) rfl rfl
  · exact h.of_px_eq (.inl rfl) rfl rfl
  · obtain ⟨hphase, herr, hrow, hph, -⟩ := writeReg_pxFields r imm s
    refine pxLegal_of_resting (hphase ▸ hp) (herr.trans (h.noFault ?_)) fun hd => ?_
    · rcases hp with hp | hp <;> simp [hp]
    · rw [hrow, hph]
      exact h.done (hphase ▸ hd)

/-- Pass 0 begins at the image's first pixel, in both modes (R155, R156). -/
theorem geom_zero_origin (ilace : Word) : (geom ilace 0).xOff = 0 ∧ (geom ilace 0).yOff = 0 := by
  unfold geom
  split <;> exact ⟨rfl, rfl⟩

theorem pxLegal_beginRun (herr : s.px.err = 0#32) (hc : startError s = none) : PxLegal (beginRun s) := by
  obtain ⟨hw, hh, hdepth, hchans, -⟩ := startError_none hc
  simp only [dimLegal, dimMax, Bool.and_eq_true, decide_eq_true_eq] at hw hh
  have hbpp : (BitVec.ofNat 32 (bytesPerPixel s.px.chans.toNat s.px.depth.toNat)).toNat =
      bytesPerPixel s.px.chans.toNat s.px.depth.toNat := by
    have hd : s.px.depth.toNat ≤ 16 := by
      rcases (depthLegal_iff _).mp hdepth with h | h | h | h | h <;> omega
    have hch : s.px.chans.toNat ≤ 4 := by simp [chansLegal] at hchans; omega
    have hmul := Nat.mul_le_mul hch hd
    refine Nat.mod_eq_of_lt ?_
    unfold bytesPerPixel
    omega
  obtain ⟨hxo, hyo⟩ := geom_zero_origin s.px.ilace
  have hdim : 0 < (pxPassDim s 0).1 ∧ 0 < (pxPassDim s 0).2 :=
    ⟨(lt_passExtent_iff (geom_xStep_pos _ _) _ _ _).mpr (by rw [hxo]; omega),
      (lt_passExtent_iff (geom_yStep_pos _ _) _ _ _).mpr (by rw [hyo]; omega)⟩
  have hpass := pxRunning_setPass (s := { s with px := { s.px with
    bpp := BitVec.ofNat 32 (bytesPerPixel s.px.chans.toNat s.px.depth.toNat) } })
    hc (Nat.zero_le 6) (fun _ => rfl) hbpp hdim
  exact pxLegal_of_running rfl herr (hpass.of_px rfl rfl)

theorem pxLegal_exec (h : exec i s = .next t) (hl : PxLegal s) : PxLegal t := by
  have hlog := logGrows_exec h
  cases exec_does h with
  | refuses | ckFaulted | pxFaulted | ckRaises | nop | rdr | ckReset => exact hl.of_px_eq hlog rfl rfl
  | noChunk | begins => exact hl.of_px_eq hlog rfl rfl
  | readsInt | forwards | forwardsString | finishes => exact hl.of_px_eq hlog rfl rfl
  | wrr hw imm => exact (pxLegal_writeReg hw imm hl).of_px_eq (.inl rfl) rfl rfl
  | pxReset => exact pxLegal_of_resting (.inl rfl) rfl fun _ => rfl
  | starts hp hc =>
    have herr := hl.noFault (by rcases hp with hp | hp <;> simp [hp])
    exact (pxLegal_beginRun herr hc).of_px_eq (.inl rfl) rfl rfl
  | row hp => exact pxLegal_pxRowBody hp hl
  | rows hp => exact runRows_induction (fun _ => pxLegal_pxRowBody) hp hl
  | geom => exact ⟨hl.fault, hl.noFault, fun hp => (hl.running hp).of_px rfl rfl, hl.done⟩

/-! ## The line buffers and the parameter (R11, R47, R48) -/

/-- The line buffers have ROWMAX bytes. -/
structure LinesFit (s : State) : Prop where
  prev : s.px.prev.length = s.rowmax.toNat
  cur : s.px.cur.length = s.rowmax.toNat

theorem linesFit_afterRow (f : Filter) (hr : PxRunning s) (h : LinesFit s) : LinesFit (afterRow f s) := by
  have hle := hr.rb_le
  have hprev := h.prev
  have hcur := h.cur
  have hrow : (decodedRow f s).length = s.px.rb.toNat := by simp
  constructor
  · rw [afterRow_px, List.length_append, hrow, List.length_drop]
    change _ = s.rowmax.toNat
    omega
  · rw [afterRow_px, List.length_append, hrow, List.length_drop]
    change _ = s.rowmax.toNat
    omega

theorem linesFit_endPass (h : LinesFit s) : LinesFit (endPass s) := by
  rcases endPass_cases s with ⟨_, e⟩ | ⟨_, _, e⟩ | ⟨_, n, _, e⟩ <;> rw [e]
  · exact h
  · exact ⟨h.prev, h.cur⟩
  · exact ⟨List.length_replicate, h.cur⟩

theorem linesFit_pxRowBody (hr : PxRunning s) (h : LinesFit s) : LinesFit (pxRowBody s) := by
  rcases pxRowBody_cases s with ⟨_, e⟩ | ⟨_, _, e⟩ | ⟨_, f, _, e⟩ <;> rw [e]
  · exact ⟨h.prev, h.cur⟩
  · exact ⟨h.prev, h.cur⟩
  · obtain ⟨hprev, hcur⟩ := linesFit_endPass (linesFit_afterRow f hr h)
    exact ⟨hprev, hcur⟩

theorem linesFit_exec (h : exec i s = .next t) (hp : PxLegal s) (hl : LinesFit s) : LinesFit t := by
  cases exec_does h with
  | refuses | ckFaulted | pxFaulted | ckRaises | nop | rdr | ckReset | noChunk | begins => exact ⟨hl.prev, hl.cur⟩
  | readsInt | forwards | forwardsString | finishes | geom => exact ⟨hl.prev, hl.cur⟩
  | wrr hw imm =>
    obtain ⟨-, -, -, -, hprev, hcur⟩ := writeReg_pxFields _ imm s
    exact ⟨by rw [respond_px, hprev]; simpa using hl.prev, by rw [respond_px, hcur]; simpa using hl.cur⟩
  | pxReset => exact ⟨by simp [PxUnit.resetWith, freeLine], by simp [PxUnit.resetWith, freeLine]⟩
  | starts => exact ⟨List.length_replicate, hl.cur⟩
  | row hrun => exact linesFit_pxRowBody (hp.running (.inl hrun)) hl
  | rows hrun =>
    exact (runRows_induction (P := fun u => PxLegal u ∧ LinesFit u)
      (fun u hu ⟨hpu, hlu⟩ => ⟨pxLegal_pxRowBody hu hpu, linesFit_pxRowBody (hpu.running (.inl hu)) hlu⟩)
      hrun ⟨hp, hl⟩).2

/-! ## The invariant -/

theorem inv_exec (h : exec i s = .next t) (hi : Inv s) : Inv t := by
  obtain ⟨-, -, hrowmax, -⟩ := (exec_does h).shared
  have hlines := linesFit_exec h hi.px ⟨hi.global.prev, hi.global.cur⟩
  exact ⟨(exec_does h).spacesLegal hi.spaces,
    ⟨hrowmax ▸ hi.global.rowmax, hlines.prev, hlines.cur, (logGrows_exec h).lt hi.global.log⟩,
    ckLegal_exec h hi.ck, pxLegal_exec h hi.px⟩

/-- The input spaces may change while they stay canonical; the response, the host's actions and the count of free values
are no part of the invariant. -/
theorem Inv.of_inputs (h : Inv s) (hcks : t.cks.wf) (hsls : t.sls.wf) (hlog : t.faultlog = s.faultlog)
    (hrowmax : t.rowmax = s.rowmax) (hck : t.ck = s.ck) (hpx : t.px = s.px) (hpo : t.po = s.po) (hpix : t.pix = s.pix) :
    Inv t where
  spaces := ⟨hcks, hsls, hpix ▸ h.spaces.pix, by rw [hck, hpo]; exact h.spaces.poPos⟩
  global := ⟨hrowmax ▸ h.global.rowmax, by rw [hpx, hrowmax]; exact h.global.prev,
    by rw [hpx, hrowmax]; exact h.global.cur, hlog ▸ h.global.log⟩
  ck := h.ck.of_ck_eq (.inl hlog) hck
  px := h.px.of_px_eq (.inl hlog) hrowmax hpx

theorem inv_takeAction (h : Inv s) (rest : List HostAction) : Inv (takeAction rest s) :=
  h.of_inputs h.spaces.cks h.spaces.sls rfl rfl rfl rfl rfl rfl

/-- An illegal word is answered as RDR of a number that is no register. -/
theorem inv_illegalWord (h : Inv s) : Inv (illegalWord s) :=
  inv_exec (exec_rdr_noRegister (rn := 0x03#8) (fun r => by cases r <;> decide) s) h

theorem inv_hardwareReset (hcks : s.cks.wf) (hsls : s.sls.wf) (hrowmax : 0 < s.rowmax.toNat) :
    Inv (hardwareReset s) where
  spaces := ⟨hcks, hsls, List.Pairwise.nil, rfl⟩
  global := ⟨hrowmax, List.length_replicate, List.length_replicate, Nat.two_pow_pos 13⟩
  ck := ckLegal_of_reset rfl
  px := pxLegal_of_resting (.inl rfl) rfl fun _ => rfl

end Sys2Proof.Machine
end

section
/-! Every reachable state is legal. -/

namespace Sys2Proof

open Machine

/-- Settles O57: the state after reset is what the hardware reset makes of a state with nothing in the input spaces. -/
theorem resetIsLegal : Obligations.ResetIsLegal := by
  have reset {p : Word} (hp : p ≠ 0#32) : Inv (State.resetWith p) := by
    have hpos : 0 < p.toNat := Nat.pos_of_ne_zero fun h => hp (BitVec.eq_of_toNat_eq h)
    exact inv_hardwareReset (s := State.resetWith p) ⟨List.Pairwise.nil, by simp [State.resetWith]⟩
      ⟨List.Pairwise.nil, by simp [State.resetWith]⟩ hpos
  exact ⟨reset (by decide), fun _ => reset⟩

/-- Settles O58: every host action keeps the invariant; a command keeps each of its parts. -/
theorem everyStepKeepsTheStateLegal : Obligations.EveryStepKeepsTheStateLegal := by
  intro s t hi h
  rcases step_cases h with ⟨-, rfl⟩ | ⟨w, rest, -, ⟨why, -, rfl⟩ | ⟨i, -, hexec⟩⟩ | ⟨a, b, rest, -, rfl⟩ |
    ⟨a, b, rest, -, rfl⟩ | ⟨rest, -, rfl⟩
  · exact hi
  · exact inv_illegalWord (inv_takeAction hi rest)
  · exact inv_exec hexec (inv_takeAction hi rest)
  · exact hi.of_inputs (Memory.write_wf hi.spaces.cks a.isLt b) hi.spaces.sls rfl rfl rfl rfl rfl rfl
  · exact hi.of_inputs hi.spaces.cks (Memory.write_wf hi.spaces.sls a.isLt b) rfl rfl rfl rfl rfl rfl
  · exact inv_hardwareReset hi.spaces.cks hi.spaces.sls hi.global.rowmax

end Sys2Proof
end

section
/-! The progress of a run: the written cells of PIX (R160, R163, R179) and the scanlines still to come (R159, R189). -/

namespace Sys2Proof.Machine

variable {i : Instr} {s t u : State} {f : Filter} {n p q r : Nat}

/-! ## What no row changes -/

/-- Of unit PX a run changes the phase, the error, the position, the pass registers and the line buffers. -/
def SameConfig (s t : State) : Prop :=
  { t.px with
    phase := s.px.phase, err := s.px.err, pos := s.px.pos, pass := s.px.pass, row := s.px.row, pw := s.px.pw
    ph := s.px.ph, rb := s.px.rb, prev := s.px.prev, cur := s.px.cur } = s.px

theorem SameConfig.refl (s : State) : SameConfig s s := rfl

theorem SameConfig.field (h : SameConfig s t) {α : Type} (g : PxUnit → α) :
    g { t.px with
      phase := s.px.phase, err := s.px.err, pos := s.px.pos, pass := s.px.pass, row := s.px.row, pw := s.px.pw
      ph := s.px.ph, rb := s.px.rb, prev := s.px.prev, cur := s.px.cur } = g s.px := congrArg g h

theorem SameConfig.ilace (h : SameConfig s t) : t.px.ilace = s.px.ilace := h.field PxUnit.ilace

theorem SameConfig.width (h : SameConfig s t) : t.px.width = s.px.width := h.field PxUnit.width

theorem SameConfig.height (h : SameConfig s t) : t.px.height = s.px.height := h.field PxUnit.height

theorem SameConfig.trans (h : SameConfig s t) (h' : SameConfig t u) : SameConfig s u := by
  unfold SameConfig at *
  rw [← h'] at h
  exact h

theorem SameConfig.pxPassDim (h : SameConfig s t) (p : Nat) : pxPassDim t p = pxPassDim s p := by
  rw [Machine.pxPassDim, Machine.pxPassDim, h.ilace, h.width, h.height]

theorem SameConfig.isPassPixel (h : SameConfig s t) : IsPassPixel t p q r ↔ IsPassPixel s p q r := by
  rw [IsPassPixel, IsPassPixel, h.pxPassDim, h.ilace]

/-- The three ends of a row: the next row, DONE, the next pass. -/
theorem decodeRow_cases (f : Filter) (s : State) :
    (s.px.row + 1#32 ≠ s.px.ph ∧ decodeRow f s = afterRow f s) ∨
    (s.px.row + 1#32 = s.px.ph ∧ nextPass s.px.ilace s.px.width.toNat s.px.height.toNat s.px.pass.toNat = none ∧
      decodeRow f s = { afterRow f s with px := { (afterRow f s).px with phase := .done } }) ∨
    (s.px.row + 1#32 = s.px.ph ∧ ∃ n, nextPass s.px.ilace s.px.width.toNat s.px.height.toNat s.px.pass.toNat = some n ∧
      decodeRow f s = setPass n (afterRow f s)) := endPass_cases (afterRow f s)

theorem sameConfig_decodeRow (f : Filter) (s : State) : SameConfig s (decodeRow f s) := by
  rcases decodeRow_cases f s with ⟨_, e⟩ | ⟨_, _, e⟩ | ⟨_, n, _, e⟩ <;> rw [e] <;> rfl

theorem sameConfig_pxRowBody (s : State) : SameConfig s (pxRowBody s) := by
  rcases pxRowBody_cases s with ⟨_, e⟩ | ⟨_, _, e⟩ | ⟨_, f, _, e⟩ <;> rw [e]
  · rfl
  · rfl
  · exact sameConfig_decodeRow f s

/-! ## The pixels of the row being decoded -/

/-- Column q of the current row is a pixel of the configured image. -/
theorem PxRunning.isPassPixel_iff (h : PxRunning s) (q : Nat) :
    IsPassPixel s s.px.pass.toNat q s.px.row.toNat ↔ q < s.px.pw.toNat := by
  rw [IsPassPixel, ← h.width, ← h.height]
  have hpass : s.px.ilace = 1#32 ∧ s.px.pass.toNat ≤ 6 ∨ s.px.pass.toNat = 0 := by
    rcases h.ilace with hi | hi
    · exact .inr (by rw [h.sequential hi]; rfl)
    · exact .inl ⟨hi, h.pass⟩
  exact ⟨fun hq => hq.2.1, fun hq => ⟨hpass, hq, h.row⟩⟩

/-- Row r of pass p is the row PX decodes next. -/
def IsCurrent (s : State) (p r : Nat) : Prop := p = s.px.pass.toNat ∧ r = s.px.row.toNat

/-- A decoded row writes its own pixels and no other cell. -/
theorem decodeRow_written (f : Filter) (h : PxRunning s) (idx : Nat) :
    ((decodeRow f s).pix.read idx).isSome = true ↔
      (s.pix.read idx).isSome = true ∨ ∃ p q r, IsPassPixel s p q r ∧ IsCurrent s p r ∧
        idx = pixIndex (geom s.px.ilace p) s.px.width.toNat q r := by
  by_cases hrow : ∃ q, q < s.px.pw.toNat ∧ idx = pxIndex s q
  · obtain ⟨q, hq, rfl⟩ := hrow
    rw [read_decodeRow_same f h hq]
    exact iff_of_true rfl (.inr ⟨_, q, _, (h.isPassPixel_iff q).mpr hq, ⟨rfl, rfl⟩, rfl⟩)
  · rw [read_decodeRow_other f fun q hq he => hrow ⟨q, hq, he⟩]
    refine ⟨.inl, fun hw => hw.resolve_right ?_⟩
    rintro ⟨p, q, r, hpix, ⟨rfl, rfl⟩, rfl⟩
    exact hrow ⟨q, (h.isPassPixel_iff q).mp hpix, rfl⟩

/-- The written cells after a row: the pixels decoded before it, and its own. -/
theorem decodeRow_written_iff (f : Filter) (h : PxRunning s) (hp : s.px.phase = .run) (hpix : PixProgress s)
    (idx : Nat) :
    ((decodeRow f s).pix.read idx).isSome = true ↔
      ∃ p q r, IsPassPixel s p q r ∧ (IsDecoded s p r ∨ IsCurrent s p r) ∧
        idx = pixIndex (geom s.px.ilace p) s.px.width.toNat q r := by
  rw [decodeRow_written f h, hpix hp idx]
  constructor
  · rintro (⟨p, q, r, h1, h2, h3⟩ | ⟨p, q, r, h1, h2, h3⟩)
    · exact ⟨p, q, r, h1, .inl h2, h3⟩
    · exact ⟨p, q, r, h1, .inr h2, h3⟩
  · rintro ⟨p, q, r, h1, h2 | h2, h3⟩
    · exact .inl ⟨p, q, r, h1, h2, h3⟩
    · exact .inr ⟨p, q, r, h1, h2, h3⟩

/-! ## Which rows come before the next one -/

/-- In the last row of its pass every row of the pass is decoded, or is this one. -/
theorem decoded_of_lastRow (h : PxRunning s) (hrow : s.px.row + 1#32 = s.px.ph)
    (hpix : IsPassPixel s s.px.pass.toNat q r) :
    IsDecoded s s.px.pass.toNat r ∨ IsCurrent s s.px.pass.toNat r := by
  have hsucc := toNat_row_succ h
  have hr := hpix.2.2
  rw [← h.height, ← hrow, hsucc] at hr
  rcases Nat.lt_succ_iff_lt_or_eq.mp hr with hr | hr
  · exact .inl (.inr ⟨rfl, hr⟩)
  · exact .inr ⟨rfl, hr⟩

/-- A pass with a pixel is not empty. -/
theorem IsPassPixel.nonEmpty (h : IsPassPixel s p q r) (hi : s.px.ilace = 1#32) :
    passNonEmpty s.px.width.toNat s.px.height.toNat (geomRow p) = true := by
  obtain ⟨-, hq, hr⟩ := h
  exact (pxPassDim_pos_iff hi p).mpr ⟨by omega, by omega⟩

/-- After a row that is not the last of its pass. -/
theorem isDecoded_afterRow_iff (f : Filter) (h : PxRunning s) :
    IsDecoded (afterRow f s) p r ↔ IsDecoded s p r ∨ IsCurrent s p r := by
  have hsucc := toNat_row_succ h
  have hdecoded : IsDecoded (afterRow f s) p r ↔
      p < s.px.pass.toNat ∨ p = s.px.pass.toNat ∧ r < (s.px.row + 1#32).toNat := Iff.rfl
  rw [hdecoded, hsucc, IsDecoded, IsCurrent]
  omega

/-- The first row of pass n comes after all rows of the passes before it. -/
theorem isDecoded_setPass_iff (hn : n ≤ 6) : IsDecoded (setPass n s) p r ↔ p < n := by
  have hpass : (setPass n s).px.pass.toNat = n := Nat.mod_eq_of_lt (by omega)
  have hrow : (setPass n s).px.row.toNat = 0 := rfl
  rw [IsDecoded, hpass, hrow]
  omega

/-- After the last row of a pass that another follows. -/
theorem isDecoded_nextPass_iff (f : Filter) (h : PxRunning s) (hrow : s.px.row + 1#32 = s.px.ph)
    (hn : nextPass s.px.ilace s.px.width.toNat s.px.height.toNat s.px.pass.toNat = some n)
    (hpix : IsPassPixel s p q r) :
    IsDecoded (setPass n (afterRow f s)) p r ↔ IsDecoded s p r ∨ IsCurrent s p r := by
  obtain ⟨hi, hlt, hn6, -, hleast⟩ := nextPass_some hn
  rw [isDecoded_setPass_iff hn6]
  constructor
  · intro hp
    rcases Nat.lt_trichotomy p s.px.pass.toNat with hlt' | rfl | hgt
    · exact .inl (.inl hlt')
    · exact decoded_of_lastRow h hrow hpix
    · exact absurd (hpix.nonEmpty hi) (by simp [hleast p hgt hp])
  · rintro ((hp | ⟨rfl, -⟩) | ⟨rfl, -⟩)
    · omega
    · exact hlt
    · exact hlt

/-- After the last row of the last pass every pixel is decoded, or is of this row. -/
theorem decoded_of_lastPass (h : PxRunning s) (hrow : s.px.row + 1#32 = s.px.ph)
    (hn : nextPass s.px.ilace s.px.width.toNat s.px.height.toNat s.px.pass.toNat = none) (hpix : IsPassPixel s p q r) :
    IsDecoded s p r ∨ IsCurrent s p r := by
  rcases Nat.lt_trichotomy p s.px.pass.toNat with hlt | rfl | hgt
  · exact .inl (.inl hlt)
  · exact decoded_of_lastRow h hrow hpix
  · rcases hpix.1 with ⟨hi, hp6⟩ | rfl
    · rw [hi] at hn
      exact absurd (hpix.nonEmpty hi) (by simp [(nextPass_eq_none_iff _ _ _).mp hn p hgt hp6])
    · omega

/-! ## PIX holds the pixels decoded so far -/

theorem PixProgress.of_px_eq (h : PixProgress s) (hpx : t.px = s.px) (hpix : t.pix = s.pix) : PixProgress t := by
  unfold PixProgress IsPassPixel IsDecoded pxPassDim at *
  rw [hpx, hpix]
  exact h

theorem pixProgress_of_not_run (h : t.px.phase ≠ .run) : PixProgress t := fun hp => absurd hp h

/-- The written cells, once it is known which rows come before the next one. -/
theorem pixProgress_of_decoded (f : Filter) (hr : PxRunning s) (hp : s.px.phase = .run) (h : PixProgress s)
    (hdecoded : ∀ p q r, IsPassPixel s p q r → (IsDecoded (decodeRow f s) p r ↔ IsDecoded s p r ∨ IsCurrent s p r)) :
    PixProgress (decodeRow f s) := by
  intro _ idx
  have hconfig := sameConfig_decodeRow f s
  rw [decodeRow_written_iff f hr hp h idx, hconfig.ilace, hconfig.width]
  refine exists_congr fun p => exists_congr fun q => exists_congr fun r => ?_
  rw [hconfig.isPassPixel]
  exact ⟨fun ⟨hpix, hd, he⟩ => ⟨hpix, (hdecoded p q r hpix).mpr hd, he⟩,
    fun ⟨hpix, hd, he⟩ => ⟨hpix, (hdecoded p q r hpix).mp hd, he⟩⟩

theorem pixProgress_decodeRow (f : Filter) (hr : PxRunning s) (hp : s.px.phase = .run) (h : PixProgress s) :
    PixProgress (decodeRow f s) := by
  rcases decodeRow_cases f s with ⟨_, e⟩ | ⟨_, _, e⟩ | ⟨hrow, n, hn, e⟩
  · exact pixProgress_of_decoded f hr hp h fun p q r _ => by rw [e]; exact isDecoded_afterRow_iff f hr
  · exact pixProgress_of_not_run (by rw [e]; simp)
  · exact pixProgress_of_decoded f hr hp h fun p q r hpix => by rw [e]; exact isDecoded_nextPass_iff f hr hrow hn hpix

theorem pixProgress_pxRowBody (hi : Inv s) (hp : s.px.phase = .run) (h : PixProgress s) :
    PixProgress (pxRowBody s) := by
  rcases pxRowBody_cases s with ⟨_, e⟩ | ⟨_, _, e⟩ | ⟨_, f, _, e⟩ <;> rw [e]
  · exact pixProgress_of_not_run (by simp)
  · exact pixProgress_of_not_run (by simp)
  · exact (pixProgress_decodeRow f (hi.px.running (.inl hp)) hp h).of_px_eq rfl rfl

theorem pixProgress_beginRun (s : State) : PixProgress (beginRun s) := by
  intro _ idx
  refine iff_of_false (by simp [beginRun, PixGrid.read, Assoc.lookup]) ?_
  rintro ⟨p, q, r, -, hd, -⟩
  have hnone : ¬ IsDecoded (setPass 0 (beginRun s)) p r := by
    rw [isDecoded_setPass_iff (by decide)]
    omega
  exact hnone hd

theorem pixProgress_writeReg {r : Reg} (hw : writable r s = true) (imm : Word) (h : PixProgress s) :
    PixProgress (writeReg r imm s) := by
  rcases writable_cases hw with ⟨rfl, -⟩ | ⟨rfl, -⟩ | ⟨-, hp⟩
  · exact h.of_px_eq rfl rfl
  · exact h.of_px_eq rfl rfl
  · refine pixProgress_of_not_run ?_
    rw [(writeReg_pxFields r imm s).1]
    rcases hp with hp | hp <;> simp [hp]

theorem pixProgress_exec (h : exec i s = .next t) (hi : Inv s) (hpix : PixProgress s) : PixProgress t := by
  cases exec_does h with
  | refuses | ckFaulted | pxFaulted | ckRaises | nop | rdr | ckReset | noChunk | begins => exact hpix.of_px_eq rfl rfl
  | readsInt | forwards | forwardsString | finishes => exact hpix.of_px_eq rfl rfl
  | wrr hw imm => exact (pixProgress_writeReg hw imm hpix).of_px_eq rfl rfl
  | pxReset => exact pixProgress_of_not_run (by simp [PxUnit.resetWith])
  | starts => exact (pixProgress_beginRun s).of_px_eq rfl rfl
  | row hp => exact pixProgress_pxRowBody hi hp hpix
  | rows hp =>
    obtain ⟨n, u, -, hlast, hleft⟩ := pxRunBody_split hp
    exact pixProgress_of_not_run (hlast ▸ hleft)
  | geom => exact hpix

/-! ## The whole image -/

/-- The index of a pixel within the image, and the pixel of an index. -/
theorem index_lt {w h x y : Nat} (hx : x < w) (hy : y < h) : y * w + x < w * h := by
  have := Nat.mul_le_mul_right w hy
  rw [Nat.succ_mul, Nat.mul_comm h] at this
  omega

/-- The pixels of all passes are the indices of the image (R163). -/
theorem passPixels_cover (hi : s.px.ilace = 0#32 ∨ s.px.ilace = 1#32) (idx : Nat) :
    (∃ p q r, IsPassPixel s p q r ∧ idx = pixIndex (geom s.px.ilace p) s.px.width.toNat q r) ↔
      idx < s.px.width.toNat * s.px.height.toNat := by
  constructor
  · rintro ⟨p, q, r, ⟨-, hq, hr⟩, rfl⟩
    exact index_lt ((lt_passExtent_iff (geom_xStep_pos _ _) _ _ _).mp hq)
      ((lt_passExtent_iff (geom_yStep_pos _ _) _ _ _).mp hr)
  · intro hidx
    have hw : 0 < s.px.width.toNat := Nat.pos_of_ne_zero fun h => by simp [h] at hidx
    have hx : idx % s.px.width.toNat < s.px.width.toNat := Nat.mod_lt _ hw
    have hy : idx / s.px.width.toNat < s.px.height.toNat := Nat.div_lt_of_lt_mul hidx
    have hsplit : idx = idx / s.px.width.toNat * s.px.width.toNat + idx % s.px.width.toNat :=
      (Nat.div_add_mod' idx _).symm
    rcases hi with hi | hi
    · refine ⟨0, idx % s.px.width.toNat, idx / s.px.width.toNat, ⟨.inr rfl, ?_, ?_⟩, ?_⟩ <;>
        simp only [pxPassDim, hi, geom_sequential, passDim, pixIndex]
      · exact (lt_passExtent_iff (by decide) _ _ _).mpr (by simpa [geomSequential] using hx)
      · exact (lt_passExtent_iff (by decide) _ _ _).mpr (by simpa [geomSequential] using hy)
      · simpa [geomSequential] using hsplit
    · obtain ⟨p, q, r, ⟨hp, hq, hr, hcol, hrow⟩, -⟩ := passesPartitionTheImage _ _ _ _ hx hy
      refine ⟨p, q, r, ⟨.inl ⟨hi, hp⟩, ?_, ?_⟩, ?_⟩
      · simpa only [pxPassDim, hi, geom_interlaced] using hq
      · simpa only [pxPassDim, hi, geom_interlaced] using hr
      · rw [hi, geom_interlaced, pixIndex, ← hcol, ← hrow]
        exact hsplit

/-- The row that ends the run completes the image. -/
theorem written_of_done (hi : Inv s) (hp : s.px.phase = .run) (hpix : PixProgress s)
    (hd : (pxRowBody s).px.phase = .done) (idx : Nat) :
    ((pxRowBody s).pix.read idx).isSome = true ↔ idx < s.px.width.toNat * s.px.height.toNat := by
  have hr := hi.px.running (.inl hp)
  rcases pxRowBody_cases s with ⟨_, e⟩ | ⟨_, _, e⟩ | ⟨_, f, _, e⟩ <;> rw [e] at hd ⊢
  · simp at hd
  · simp at hd
  rw [respond_px] at hd
  rw [respond_pix, decodeRow_written_iff f hr hp hpix, ← passPixels_cover hr.ilace]
  rcases decodeRow_cases f s with ⟨_, e⟩ | ⟨hrow, hn, _⟩ | ⟨_, n, _, e⟩
  · rw [e] at hd
    exact absurd (hp.symm.trans hd) (by decide)
  · exact exists_congr fun p => exists_congr fun q => exists_congr fun r =>
      ⟨fun ⟨h1, _, h3⟩ => ⟨h1, h3⟩, fun ⟨h1, h3⟩ => ⟨h1, decoded_of_lastPass hr hrow hn h1, h3⟩⟩
  · rw [e] at hd
    exact absurd (hp.symm.trans hd) (by decide)

end Sys2Proof.Machine
end

section
/-! The progress of a run and the whole image (20_memory.md, 43_adam7_decomposer.md). -/

namespace Sys2Proof

open Machine

/-- Settles O59: a decoded row writes exactly its own pixels and moves the boundary of the decoded rows past itself;
PX.START begins with neither. -/
theorem everyCommandKeepsThePixelProgress : Obligations.EveryCommandKeepsThePixelProgress := fun _ _ _ hi hpix h =>
  pixProgress_exec h hi hpix

/-- Settles O60: only a row ends a run, and when it is the last row every pixel is decoded. -/
theorem doneMeansEveryPixelIsWritten : Obligations.DoneMeansEveryPixelIsWritten := by
  intro i s t hi hpix hp h hd idx
  cases exec_does h with
  | refuses | ckFaulted | pxFaulted | ckRaises | nop | rdr | ckReset | noChunk | begins =>
    exact absurd (hp.symm.trans hd) (by decide)
  | readsInt | forwards | forwardsString | finishes | geom => exact absurd (hp.symm.trans hd) (by decide)
  | wrr hw imm =>
    rw [respond_px, (writeReg_pxFields _ imm s).1] at hd
    exact absurd (hp.symm.trans hd) (by decide)
  | pxReset => simp [PxUnit.resetWith] at hd
  | starts hs => rcases hs with hs | hs <;> simp [hp] at hs
  | row => exact written_of_done hi hp hpix hd idx
  | rows =>
    obtain ⟨n, u, hrows, hlast, -⟩ := pxRunBody_split hp
    obtain ⟨hiu, hpixu, hconfig⟩ := hrows.induction (P := fun u => Inv u ∧ PixProgress u ∧ SameConfig s u)
      (fun u hu ⟨hiu, hpixu, hconfig⟩ => ⟨inv_exec (exec_pxRow_runs hu) hiu, pixProgress_pxRowBody hiu hu hpixu,
        hconfig.trans (sameConfig_pxRowBody u)⟩) ⟨hi, hpix, .refl s⟩
    rw [hlast] at hd ⊢
    rw [written_of_done hiu hrows.run hpixu hd, hconfig.width, hconfig.height]

end Sys2Proof
end

section
/-! A whole PX.RUN (R188, R189): what it leaves unchanged, and that it consumes exactly the scanlines still to come. -/

namespace Sys2Proof.Machine

variable {s t u : State} {f : Filter} {n p q r : Nat}

/-! ## What a run leaves unchanged -/

/-- The index is no pixel of a row still to be decoded. -/
def NotToDecode (s : State) (idx : Nat) : Prop :=
  ∀ p q r, IsPassPixel s p q r → ¬ IsDecoded s p r → idx ≠ pixIndex (geom s.px.ilace p) s.px.width.toNat q r

/-- A row is decoded once. -/
theorem isDecoded_decodeRow (f : Filter) (h : PxRunning s) (hd : IsDecoded s p r) : IsDecoded (decodeRow f s) p r := by
  have hafter : IsDecoded (afterRow f s) p r := (isDecoded_afterRow_iff f h).mpr (.inl hd)
  rcases decodeRow_cases f s with ⟨_, e⟩ | ⟨_, _, e⟩ | ⟨_, n, hn, e⟩ <;> rw [e]
  · exact hafter
  · exact hafter
  · obtain ⟨-, hlt, hn6, -⟩ := nextPass_some hn
    rw [isDecoded_setPass_iff hn6]
    unfold IsDecoded at hd
    omega

theorem isDecoded_pxRowBody (h : PxRunning s) (hd : IsDecoded s p r) : IsDecoded (pxRowBody s) p r := by
  rcases pxRowBody_cases s with ⟨_, e⟩ | ⟨_, _, e⟩ | ⟨_, f, _, e⟩ <;> rw [e]
  · exact hd
  · exact hd
  · exact isDecoded_decodeRow f h hd

/-- A row writes pixels that were still to be decoded. -/
theorem read_pxRowBody (h : PxRunning s) {idx : Nat} (hidx : NotToDecode s idx) :
    (pxRowBody s).pix.read idx = s.pix.read idx := by
  rcases pxRowBody_cases s with ⟨_, e⟩ | ⟨_, _, e⟩ | ⟨_, f, _, e⟩ <;> rw [e]
  · rfl
  · rfl
  · refine read_decodeRow_other f fun q hq => hidx _ q _ ((h.isPassPixel_iff q).mpr hq) ?_
    unfold IsDecoded
    omega

theorem NotToDecode.pxRowBody (h : PxRunning s) {idx : Nat} (hidx : NotToDecode s idx) :
    NotToDecode (pxRowBody s) idx := by
  have hconfig := sameConfig_pxRowBody s
  intro p q r hpix hd
  rw [hconfig.ilace, hconfig.width]
  exact hidx p q r (hconfig.isPassPixel.mp hpix) fun hs => hd (isDecoded_pxRowBody h hs)

theorem read_pxRunBody (hi : Inv s) (hp : s.px.phase = .run) {idx : Nat} (hidx : NotToDecode s idx) :
    (pxRunBody s).pix.read idx = s.pix.read idx :=
  (runRows_induction (P := fun u => Inv u ∧ NotToDecode u idx ∧ u.pix.read idx = s.pix.read idx)
    (fun _ hu ⟨hiu, hidxu, hread⟩ =>
      have hr := hiu.px.running (.inl hu)
      ⟨inv_exec (exec_pxRow_runs hu) hiu, hidxu.pxRowBody hr, (read_pxRowBody hr hidxu).trans hread⟩)
    hp ⟨hi, hidx, rfl⟩).2.2

theorem sameConfig_pxRunBody (hp : s.px.phase = .run) : SameConfig s (pxRunBody s) :=
  runRows_induction (fun _ _ h => h.trans (sameConfig_pxRowBody _)) hp (.refl s)

/-! ## Groups of scanlines (R189) -/

theorem scanlineBytes_succ (n size : Nat) (rest : List (Nat × Nat)) :
    scanlineBytes ((n + 1, size) :: rest) = size + scanlineBytes ((n, size) :: rest) := by
  simp only [scanlineBytes, Nat.succ_mul]
  omega

theorem scanlineBytes_zero (size : Nat) (rest : List (Nat × Nat)) :
    scanlineBytes ((0, size) :: rest) = scanlineBytes rest := by
  simp [scanlineBytes]

theorem filterByteAddresses_succ (start n size : Nat) (rest : List (Nat × Nat)) :
    filterByteAddresses start ((n + 1, size) :: rest) =
      start :: filterByteAddresses (start + size) ((n, size) :: rest) := by
  have hend : start + (n + 1) * size = start + size + n * size := by rw [Nat.succ_mul]; omega
  have hmap : (List.range n).map ((fun j => start + j * size) ∘ Nat.succ) =
      (List.range n).map (fun j => start + size + j * size) :=
    List.map_congr_left fun j _ => by simp only [Function.comp, Nat.succ_mul]; omega
  simp only [filterByteAddresses, List.range_succ_eq_map, List.map_cons, List.map_map, hend, hmap, Nat.zero_mul,
    Nat.add_zero, List.cons_append]

theorem filterByteAddresses_zero (start size : Nat) (rest : List (Nat × Nat)) :
    filterByteAddresses start ((0, size) :: rest) = filterByteAddresses start rest := by
  simp [filterByteAddresses]

/-- What is still to come is one scanline of this length and then those groups. -/
def ComesFirst (start size : Nat) (groups rest : List (Nat × Nat)) : Prop :=
  scanlineBytes groups = size + scanlineBytes rest ∧
    filterByteAddresses start groups = start :: filterByteAddresses (start + size) rest

theorem comesFirst_sameGroup (start n size : Nat) (rest : List (Nat × Nat)) :
    ComesFirst start size ((n + 1, size) :: rest) ((n, size) :: rest) :=
  ⟨scanlineBytes_succ n size rest, filterByteAddresses_succ start n size rest⟩

theorem comesFirst_lastOfGroup (start size : Nat) (rest : List (Nat × Nat)) :
    ComesFirst start size ((1, size) :: rest) rest := by
  obtain ⟨hbytes, haddresses⟩ := comesFirst_sameGroup start 0 size rest
  rw [scanlineBytes_zero] at hbytes
  rw [filterByteAddresses_zero] at haddresses
  exact ⟨hbytes, haddresses⟩

/-! ## The passes still to come (R161) -/

/-- Of a rising list, what a filter keeps is the first element it finds and what it keeps behind it. -/
theorem filter_eq_cons_of_find {l : List Nat} {P : Nat → Bool} (hl : l.Pairwise (· < ·)) (h : l.find? P = some n) :
    l.filter P = n :: l.filter (fun p => decide (n < p) && P p) := by
  induction l with
  | nil => simp at h
  | cons a l ih =>
    obtain ⟨ha, hl⟩ := List.pairwise_cons.mp hl
    by_cases hP : P a = true
    · rw [List.find?_cons_of_pos hP] at h
      obtain rfl := Option.some.inj h
      have hbehind : l.filter P = l.filter (fun p => decide (a < p) && P p) :=
        List.filter_congr fun p hp => by simp [ha p hp]
      simp [hP, hbehind]
    · rw [List.find?_cons_of_neg hP] at h
      rw [List.filter_cons_of_neg hP, List.filter_cons_of_neg (by simp [hP])]
      exact ih hl h

theorem laterPasses_none (hn : nextPass s.px.ilace s.px.width.toNat s.px.height.toNat s.px.pass.toNat = none) :
    laterPasses s = [] := by
  unfold laterPasses
  unfold nextPass at hn
  split_ifs at hn ⊢ with hi
  · exact List.filter_eq_nil_iff.mpr fun p hp => List.find?_eq_none.mp hn p hp
  · rfl

theorem laterPasses_setPass (f : Filter)
    (hn : nextPass s.px.ilace s.px.width.toNat s.px.height.toNat s.px.pass.toNat = some n) :
    laterPasses s = n :: laterPasses (setPass n (afterRow f s)) := by
  obtain ⟨hi, hlt, hn6, -⟩ := nextPass_some hn
  have hpass : (setPass n (afterRow f s)).px.pass.toNat = n := Nat.mod_eq_of_lt (by omega)
  have hlater : laterPasses (setPass n (afterRow f s)) = [1, 2, 3, 4, 5, 6].filter (fun p => n < p &&
      passNonEmpty s.px.width.toNat s.px.height.toNat (geomRow p)) := by
    rw [laterPasses, hpass]
    exact if_pos hi
  rw [nextPass, if_pos hi] at hn
  rw [laterPasses, if_pos hi, hlater, filter_eq_cons_of_find (by decide) hn]
  refine congrArg _ (List.filter_congr fun p _ => ?_)
  by_cases hp : n < p
  · simp [hp, hlt.trans hp]
  · simp [hp]

/-! ## One row of what is still to come -/

theorem remainingScanlines_head (h : PxRunning s) :
    remainingScanlines s = (s.px.ph.toNat - (s.px.row.toNat + 1) + 1, 1 + s.px.rb.toNat) ::
      (laterPasses s).map (passScanlines s) := by
  have hrow := h.row
  rw [remainingScanlines]
  congr 2
  omega

/-- The groups behind a row that ends its pass. -/
theorem remainingScanlines_lastRow (h : PxRunning s) (hrow : s.px.row + 1#32 = s.px.ph) :
    remainingScanlines s = (1, 1 + s.px.rb.toNat) :: (laterPasses s).map (passScanlines s) := by
  rw [remainingScanlines_head h, ← toNat_row_succ h, hrow, Nat.sub_self]

/-- Before the first row of a pass all its scanlines are still to come. -/
theorem remainingScanlines_firstRow (h : PxRunning t) (hrow : t.px.row = 0#32) :
    remainingScanlines t = (t.px.pass.toNat :: laterPasses t).map (passScanlines t) := by
  rw [remainingScanlines, hrow, h.height, h.rowBytes, h.width]
  rfl

theorem SameConfig.passScanlines (h : SameConfig s t) (p : Nat) : passScanlines t p = passScanlines s p := by
  have hchans : t.px.chans = s.px.chans := h.field PxUnit.chans
  have hdepth : t.px.depth = s.px.depth := h.field PxUnit.depth
  rw [Machine.passScanlines, Machine.passScanlines, h.pxPassDim, hchans, hdepth]

/-- What is still to come once the next pass is set up is what came after the row that ended the last one. -/
theorem remainingScanlines_setPass (f : Filter) (h : PxRunning s)
    (hn : nextPass s.px.ilace s.px.width.toNat s.px.height.toNat s.px.pass.toNat = some n) :
    remainingScanlines (setPass n (afterRow f s)) = (laterPasses s).map (passScanlines s) := by
  obtain ⟨-, -, hn6, -⟩ := nextPass_some hn
  have hpass : (setPass n (afterRow f s)).px.pass.toNat = n := Nat.mod_eq_of_lt (by omega)
  have hconfig : SameConfig s (setPass n (afterRow f s)) := rfl
  rw [remainingScanlines_firstRow (pxRunning_nextPass f h hn) rfl, hpass, ← laterPasses_setPass f hn]
  exact List.map_congr_left fun p _ => hconfig.passScanlines p

theorem decodeRow_goes_on (f : Filter) (h : PxRunning s) (hrun : (decodeRow f s).px.phase = .run) (start : Nat) :
    ComesFirst start (1 + s.px.rb.toNat) (remainingScanlines s) (remainingScanlines (decodeRow f s)) := by
  rcases decodeRow_cases f s with ⟨_, e⟩ | ⟨_, _, e⟩ | ⟨hrow, n, hn, e⟩ <;> rw [e] at hrun ⊢
  · have hafter : remainingScanlines (afterRow f s) = (s.px.ph.toNat - (s.px.row.toNat + 1), 1 + s.px.rb.toNat) ::
        (laterPasses s).map (passScanlines s) := by
      rw [← toNat_row_succ h]
      rfl
    rw [remainingScanlines_head h, hafter]
    exact comesFirst_sameGroup ..
  · simp at hrun
  · rw [remainingScanlines_lastRow h hrow, remainingScanlines_setPass f h hn]
    exact comesFirst_lastOfGroup ..

/-- A row that does not go on is the last of the last pass. -/
theorem decodeRow_ends (f : Filter) (h : PxRunning s) (hp : s.px.phase = .run) (hrun : (decodeRow f s).px.phase ≠ .run)
    (start : Nat) :
    (decodeRow f s).px.phase = .done ∧ ComesFirst start (1 + s.px.rb.toNat) (remainingScanlines s) [] := by
  rcases decodeRow_cases f s with ⟨_, e⟩ | ⟨hrow, hn, e⟩ | ⟨_, n, _, e⟩
  · exact absurd (e ▸ hp) hrun
  · refine ⟨e ▸ rfl, ?_⟩
    rw [remainingScanlines_lastRow h hrow, laterPasses_none hn]
    exact comesFirst_lastOfGroup ..
  · exact absurd (e ▸ hp) hrun

theorem toNat_pos_decodeRow (f : Filter) (ha : 1 + s.px.rb.toNat ≤ pxAvail s) :
    (decodeRow f s).px.pos.toNat = s.px.pos.toNat + (1 + s.px.rb.toNat) := by
  have hsize : BitVec.ofNat 32 (1 + s.px.rb.toNat) = 1#32 + s.px.rb := by simp [BitVec.ofNat_add]
  rw [(decodeRow_pos f s).1, ← hsize]
  exact pxPos_add ha (by omega)

/-- The whole stream of the scanlines still to come is there, each with a legal filter byte. -/
structure StreamReady (s : State) : Prop where
  available : scanlineBytes (remainingScanlines s) ≤ pxAvail s
  filters : ∀ a ∈ filterByteAddresses s.px.pos.toNat (remainingScanlines s), (s.sls.read a).toNat ≤ 4

theorem Filter.exists_ofByte {b : Byte} (h : b.toNat ≤ 4) : ∃ f, Filter.ofByte b = some f := by
  refine Option.ne_none_iff_exists'.mp fun hnone => ?_
  have := (Filter.ofByte_eq_none_iff b).mp hnone
  omega

/-- With the stream ready the next row is decoded. -/
theorem StreamReady.decodes (h : StreamReady s) (hr : PxRunning s) :
    1 + s.px.rb.toNat ≤ pxAvail s ∧ ∃ f, pxRowBody s = respond .ok 0#32 (decodeRow f s) := by
  have havailable := h.available
  have hfilters := h.filters
  rw [remainingScanlines_head hr] at havailable hfilters
  rw [scanlineBytes_succ] at havailable
  rw [filterByteAddresses_succ] at hfilters
  obtain ⟨f, hf⟩ := Filter.exists_ofByte (hfilters _ List.mem_cons_self)
  exact ⟨by omega, f, pxRowBody_decodes (by omega) hf⟩

/-- What PX.RUN leaves of a run whose stream is ready. -/
structure Completes (s t : State) : Prop where
  resp : t.resp = some ⟨.ok, 0#32⟩
  phase : t.px.phase = .done
  pos : t.px.pos.toNat = s.px.pos.toNat + scanlineBytes (remainingScanlines s)
  faultlog : t.faultlog = s.faultlog

theorem completes_runRows {fuel : Nat} (hi : Inv s) (hp : s.px.phase = .run) (h : StreamReady s)
    (hfuel : pxAvail s < fuel) : Completes s (runRows fuel s) := by
  induction fuel generalizing s with
  | zero => omega
  | succ fuel ih =>
    have hr := hi.px.running (.inl hp)
    obtain ⟨ha, f, he⟩ := h.decodes hr
    have hpos := toNat_pos_decodeRow f ha
    have hlen : (decodeRow f s).px.len = s.px.len := (decodeRow_pos f s).2
    have hready := h.available
    have hfilters := h.filters
    have havail : pxAvail (decodeRow f s) = pxAvail s - (1 + s.px.rb.toNat) := by
      rw [pxAvail, pxAvail, hpos, hlen]
      omega
    by_cases hrun : (decodeRow f s).px.phase = .run
    · have hrun' : (pxRowBody s).px.phase = .run := by rw [he]; exact hrun
      obtain ⟨hbytes, haddresses⟩ := decodeRow_goes_on f hr hrun s.px.pos.toNat
      have hnext : StreamReady (pxRowBody s) := by
        rw [he]
        constructor
        · change scanlineBytes (remainingScanlines (decodeRow f s)) ≤ pxAvail (decodeRow f s)
          omega
        · intro a hmem
          change a ∈ filterByteAddresses (decodeRow f s).px.pos.toNat (remainingScanlines (decodeRow f s)) at hmem
          rw [hpos] at hmem
          rw [respond_sls, decodeRow_sls]
          exact hfilters a (haddresses ▸ List.mem_cons_of_mem _ hmem)
      have hrest := ih (inv_exec (exec_pxRow_runs hp) hi) hrun' hnext (by have := pxAvail_pxRowBody_lt hrun'; omega)
      rw [runRows_succ_goes_on hrun']
      refine ⟨hrest.resp, hrest.phase, hrest.pos.trans ?_, hrest.faultlog.trans (by rw [he]; simp)⟩
      rw [he]
      change (decodeRow f s).px.pos.toNat + scanlineBytes (remainingScanlines (decodeRow f s)) = _
      omega
    · have hrun' : (pxRowBody s).px.phase ≠ .run := by rw [he]; exact hrun
      obtain ⟨hdone, hbytes, -⟩ := decodeRow_ends f hr hp hrun s.px.pos.toNat
      rw [runRows_succ_stops hrun', he]
      exact ⟨rfl, hdone, by rw [respond_px, hpos, hbytes]; rfl, by simp⟩

end Sys2Proof.Machine
end

section
/-! PX.RUN as a whole (45_pixel_commands.md). -/

namespace Sys2Proof

open Machine

/-- Settles O44: by induction on the rows, each of which takes the first of the scanlines still to come. -/
theorem pxRunCompletesAWholeImage : Obligations.PxRunCompletesAWholeImage := by
  intro s hi hp havailable hfilters
  have h := completes_runRows hi hp ⟨havailable, hfilters⟩ (Nat.lt_succ_self (pxAvail s))
  exact ⟨_, exec_pxRun_runs hp, h.resp, h.phase, h.pos, h.faultlog⟩

/-- Settles O45: every row keeps the configuration and writes pixels of its own row alone. -/
theorem pxRunLeavesTheRestUnchanged : Obligations.PxRunLeavesTheRestUnchanged := by
  intro s t hi hp h
  obtain rfl : pxRunBody s = t := Host.Outcome.next.inj ((exec_pxRun_runs hp).symm.trans h)
  have hconfig := sameConfig_pxRunBody hp
  exact ⟨pxRunBody_frame hp, hconfig.field PxUnit.len, hconfig.width, hconfig.height, hconfig.field PxUnit.depth,
    hconfig.field PxUnit.chans, hconfig.ilace, hconfig.field PxUnit.bpp, hconfig.field PxUnit.qw,
    hconfig.field PxUnit.qh, fun idx hidx => read_pxRunBody hi hp hidx⟩

end Sys2Proof
end
